-- ==== Sys2Proof/Word.lean ====
section
/-! DEFINITION. The word types of the FFD decode block and the list form of its memories. -/

namespace Sys2Proof

/-- A byte (00_scope.md R4). -/
abbrev Byte := BitVec 8

/-- A cell of `BLOCK` or `WRAP`: a signed 32-bit integer (10_state.md R25, R26). -/
abbrev Cell32 := BitVec 32

/-- A cell of `PCM`: a signed 16-bit sample (10_state.md R27). -/
abbrev Sample := BitVec 16

/-- A memory space with cells of `w` bits: the listed cells, addresses strictly rising
(the canonical form is `Machine.Memory.wf`). A memory of bytes is a list of `Host.Cell`. -/
abbrev Memory (w : Nat) := List (Nat × BitVec w)

end Sys2Proof
end

