-- ==== Sys2Proof/Config.lean ====
section
/-! DEFINITION. The parameters of 00_scope.md R3 (a structure of plain data that State carries), their
defaults, and the free values, which no definition and no proof can evaluate. -/

namespace Sys2Proof

/-- `LZ_PREFIX_ORDER` (20_memory.md R58). -/
inductive ByteOrder where
  | big
  | little
deriving DecidableEq, Repr

/-- `LZ_FLAG_ORDER` and `AU_BIT_ORDER` (30_encoding.md R82, 40_bit_reader.md R110). -/
inductive BitOrder where
  | lsbFirst
  | msbFirst
deriving DecidableEq, Repr

/-- `LZ_ZERO_PREFIX`: what a prefix of value 0 does (41_lzss.md R123). -/
inductive ZeroPrefix where
  | fault
  | skip
deriving DecidableEq, Repr

/-- `NARROW`: how a value becomes a 16-bit sample (44_audio_merge_output.md R220). -/
inductive Narrow where
  | wrap
  | saturate
deriving DecidableEq, Repr

/-- The decoder kinds a selector is mapped to (43_audio_block_decode.md R175). -/
inductive Decoder where
  | zero | linear | k13 | k12 | k24 | k23 | k35 | k34 | k45 | k44 | t15 | t27 | t37 | bad
deriving DecidableEq, Repr

/-- The parameters a model of the block takes (00_scope.md R3), less `CH_FORCE` (the register `AU_CH_FORCE`). `aw` is AW,
the width in bits of byte addresses and byte counts. The biases are those of the three shift tables: the source gives
none, and they are carried as configuration (43_audio_block_decode.md, opening; R190). `selmap` lists the decoder of each
selector; its rows 0 and 3 to 16 are never read, those selectors being fixed by the source (43_audio_block_decode.md
R176). notes/assumptions/1.md to 6.md. -/
structure Config where
  aw           : Nat
  prefixOrder  : ByteOrder
  zeroPrefix   : ZeroPrefix
  ringStart    : BitVec 12
  flagOrder    : BitOrder
  bitOrder     : BitOrder
  selmap       : Vector Decoder 32
  map1         : Vector Int 2
  map2n        : Vector Int 4
  map2f        : Vector Int 4
  map3         : Vector Int 8
  tab3x3       : Vector (BitVec 12) 27
  tab3x5       : Vector (BitVec 12) 125
  tab2x11      : Vector (BitVec 12) 121
  bias3x3      : Int
  bias3x5      : Int
  bias2x11     : Int
  mergePlusOne : Bool
  narrow       : Narrow
deriving DecidableEq, Repr

namespace Config

/-- What a register or an address of AW bits holds of a number (00_scope.md R3; 10_state.md R11): the number modulo `2 ^ AW`.
DESIGN CHOICE for a number that does not fit, notes/assumptions/1.md. -/
def fit (c : Config) (v : Nat) : Nat := v % 2 ^ c.aw

/-- An entry of a shift table with digits of base `m`: the digits of the index `b`, one a nibble, the
least significant lowest (43_audio_block_decode.md R190). -/
def packDigits (m digits b : Nat) : BitVec 12 :=
  match digits with
  | 0 => 0
  | 1 => BitVec.ofNat 12 (b % m)
  | 2 => BitVec.ofNat 12 (b % m + (b / m % m) * 16)
  | _ => BitVec.ofNat 12 (b % m + (b / m % m) * 16 + (b / (m * m) % m) * 256)

/-- The default of `TAB3x3` (43_audio_block_decode.md R190). PRESUMED (GK7). -/
def defaultTab3x3 : Vector (BitVec 12) 27 :=
  ⟨((List.range 27).map (packDigits 3 3)).toArray, by simp⟩

/-- The default of `TAB3x5` (43_audio_block_decode.md R190). PRESUMED (GK7). -/
def defaultTab3x5 : Vector (BitVec 12) 125 :=
  ⟨((List.range 125).map (packDigits 5 3)).toArray, by simp⟩

/-- The default of `TAB2x11` (43_audio_block_decode.md R190). PRESUMED (GK7). -/
def defaultTab2x11 : Vector (BitVec 12) 121 :=
  ⟨((List.range 121).map (packDigits 11 2)).toArray, by simp⟩

/-- The default of `SELMAP` (43_audio_block_decode.md R176). PRESUMED (GK5) but for rows 0 and 3 to 16. -/
def defaultSelmap : Vector Decoder 32 :=
  #v[.zero, .bad, .bad, .linear, .linear, .linear, .linear, .linear,
     .linear, .linear, .linear, .linear, .linear, .linear, .linear, .linear,
     .linear, .k13, .k12, .t15, .k24, .k23, .t27, .k35,
     .k34, .k45, .k44, .t37, .bad, .bad, .bad, .bad]

/-- The defaults of 00_scope.md R3. PRESUMED where the spec marks them GK, the biases 1, 2, 5 among them (GK7,
notes/assumptions/6.md), DESIGN CHOICE of the spec for `zeroPrefix` and `narrow` (notes/assumptions/3.md, 4.md). -/
def default : Config where
  aw           := 32
  prefixOrder  := .big
  zeroPrefix   := .fault
  ringStart    := 4078
  flagOrder    := .lsbFirst
  bitOrder     := .lsbFirst
  selmap       := defaultSelmap
  map1         := #v[-1, 1]
  map2n        := #v[-2, -1, 1, 2]
  map2f        := #v[-3, -2, 2, 3]
  map3         := #v[-4, -3, -2, -1, 1, 2, 3, 4]
  tab3x3       := defaultTab3x3
  tab3x5       := defaultTab3x5
  tab2x11      := defaultTab2x11
  bias3x3      := 1
  bias3x5      := 2
  bias2x11     := 5
  mergePlusOne := true
  narrow       := .wrap

/-- FREE VALUE: the byte at an address of LZU's `IN` that the host never placed (notes/assumptions/16.md). -/
opaque freeLzByte : Nat → Byte

/-- FREE VALUE: the byte at an address of ACU's `IN` that the host never placed (notes/assumptions/16.md). -/
opaque freeAuByte : Nat → Byte

/-- FREE VALUE: what a cell of `BLOCK` that holds no value reads as, by the counter `au.freeCtr` and the
address (10_state.md R25; notes/assumptions/14.md). -/
opaque freeBlockCell : Nat → Nat → Cell32

/-- FREE VALUE: what a cell of `WRAP` that holds no value reads as (10_state.md R26; notes/assumptions/14.md). -/
opaque freeWrapCell : Nat → Nat → Cell32

/-- FREE VALUE: the cell at an address of `PCM` that neither the host nor the unit wrote (notes/assumptions/27.md). -/
opaque freePcmCell : Nat → Sample

/-- FREE VALUE: the byte of ACU's `IN` under the bit cursor, in part consumed, once the host changed it, by the counter
`au.freeCtr` and its address (10_state.md R23; notes/assumptions/19.md). -/
opaque freeLeftover : Nat → Nat → Byte

/-- FREE VALUES: `blk.pwr`, `blk.scale`, `blk.col`, `blk.sel` after `END_TRUNCATED`
(43_audio_block_decode.md R193; notes/assumptions/15.md). -/
opaque freePwr : Nat → BitVec 4
opaque freeScale : Nat → BitVec 16
opaque freeCol : Nat → BitVec 16
opaque freeSel : Nat → BitVec 5

end Config

end Sys2Proof
end

