-- ==== Sys2Proof/Syntax.lean ====
section
/-! DEFINITION. The instructions: one constructor per row of spec/opcode_table.json. The tokens of the two
stream formats (30_encoding.md R80 to R90) and the host commands (R104). -/

namespace Sys2Proof

inductive Instr where
  /-- LZ.RAW: PREFIX word with sign bit 1: N = -w raw bytes follow (30_encoding.md R81; 41_lzss.md R124). -/
  | lzRaw (w : BitVec 16)
  /-- LZ.CODED: PREFIX word, positive: N = w bytes of dictionary-coded data follow (R81, R125). -/
  | lzCoded (w : BitVec 16)
  /-- LZ.ZEROPFX: PREFIX word 0x0000 (R93, R123). -/
  | lzZeroPfx
  /-- LZ.DATA: One byte of RAWDATA, the payload of a raw block (R85, R124; notes/assumptions/8.md). -/
  | lzData (d : Byte)
  /-- LZ.CTL: Control byte of a group (R82, R126). -/
  | lzCtl (c : Byte)
  /-- LZ.LIT: Literal item (R83, R128). -/
  | lzLit (d : Byte)
  /-- LZ.REF: Back-reference: absolute RING address, copy length less 3 (R84, R129). -/
  | lzRef (off : BitVec 12) (lenM3 : BitVec 4)
  /-- AU.HDR: HEADER with the magic 0x032897 (R87, R150 to R160). -/
  | auHdr (version : BitVec 8) (samples : BitVec 32) (channels rate : BitVec 16) (level : BitVec 4) (rows : BitVec 12)
  /-- AU.HDR.WRAPPER: HEADER that opens with the legacy wrapper magic 0x564157 (R152). -/
  | auHdrWrapper
  /-- AU.BLK: Audio block header (R88, R171). -/
  | auBlk (pwr : BitVec 4) (scale : BitVec 16)
  /-- AU.SEL0.ZERO: Selector 0 (R89, R172, R175, R176); under the default SELMAP its decoder is ZERO (R177). -/
  | auSel0Zero
  /-- AU.SEL1.BAD: Selector 1 (R89, R172, R175, R176); under the default SELMAP its decoder is BAD (R192). -/
  | auSel1Bad
  /-- AU.SEL2.BAD: Selector 2 (R89, R172, R175, R176); under the default SELMAP its decoder is BAD (R192). -/
  | auSel2Bad
  /-- AU.SEL3.LINEAR: Selector 3 (R89, R172, R175, R176); under the default SELMAP its decoder is LINEAR (R178). -/
  | auSel3Linear
  /-- AU.SEL4.LINEAR: Selector 4 (R89, R172, R175, R176); under the default SELMAP its decoder is LINEAR (R178). -/
  | auSel4Linear
  /-- AU.SEL5.LINEAR: Selector 5 (R89, R172, R175, R176); under the default SELMAP its decoder is LINEAR (R178). -/
  | auSel5Linear
  /-- AU.SEL6.LINEAR: Selector 6 (R89, R172, R175, R176); under the default SELMAP its decoder is LINEAR (R178). -/
  | auSel6Linear
  /-- AU.SEL7.LINEAR: Selector 7 (R89, R172, R175, R176); under the default SELMAP its decoder is LINEAR (R178). -/
  | auSel7Linear
  /-- AU.SEL8.LINEAR: Selector 8 (R89, R172, R175, R176); under the default SELMAP its decoder is LINEAR (R178). -/
  | auSel8Linear
  /-- AU.SEL9.LINEAR: Selector 9 (R89, R172, R175, R176); under the default SELMAP its decoder is LINEAR (R178). -/
  | auSel9Linear
  /-- AU.SEL10.LINEAR: Selector 10 (R89, R172, R175, R176); under the default SELMAP its decoder is LINEAR (R178). -/
  | auSel10Linear
  /-- AU.SEL11.LINEAR: Selector 11 (R89, R172, R175, R176); under the default SELMAP its decoder is LINEAR (R178). -/
  | auSel11Linear
  /-- AU.SEL12.LINEAR: Selector 12 (R89, R172, R175, R176); under the default SELMAP its decoder is LINEAR (R178). -/
  | auSel12Linear
  /-- AU.SEL13.LINEAR: Selector 13 (R89, R172, R175, R176); under the default SELMAP its decoder is LINEAR (R178). -/
  | auSel13Linear
  /-- AU.SEL14.LINEAR: Selector 14 (R89, R172, R175, R176); under the default SELMAP its decoder is LINEAR (R178). -/
  | auSel14Linear
  /-- AU.SEL15.LINEAR: Selector 15 (R89, R172, R175, R176); under the default SELMAP its decoder is LINEAR (R178). -/
  | auSel15Linear
  /-- AU.SEL16.LINEAR: Selector 16 (R89, R172, R175, R176); under the default SELMAP its decoder is LINEAR (R178). -/
  | auSel16Linear
  /-- AU.SEL17.K13: Selector 17 (R89, R172, R175, R176); under the default SELMAP its decoder is K13 (R179). -/
  | auSel17K13
  /-- AU.SEL18.K12: Selector 18 (R89, R172, R175, R176); under the default SELMAP its decoder is K12 (R180). -/
  | auSel18K12
  /-- AU.SEL19.T15: Selector 19 (R89, R172, R175, R176); under the default SELMAP its decoder is T15 (R188). -/
  | auSel19T15
  /-- AU.SEL20.K24: Selector 20 (R89, R172, R175, R176); under the default SELMAP its decoder is K24 (R181). -/
  | auSel20K24
  /-- AU.SEL21.K23: Selector 21 (R89, R172, R175, R176); under the default SELMAP its decoder is K23 (R182). -/
  | auSel21K23
  /-- AU.SEL22.T27: Selector 22 (R89, R172, R175, R176); under the default SELMAP its decoder is T27 (R189). -/
  | auSel22T27
  /-- AU.SEL23.K35: Selector 23 (R89, R172, R175, R176); under the default SELMAP its decoder is K35 (R184). -/
  | auSel23K35
  /-- AU.SEL24.K34: Selector 24 (R89, R172, R175, R176); under the default SELMAP its decoder is K34 (R185). -/
  | auSel24K34
  /-- AU.SEL25.K45: Selector 25 (R89, R172, R175, R176); under the default SELMAP its decoder is K45 (R186). -/
  | auSel25K45
  /-- AU.SEL26.K44: Selector 26 (R89, R172, R175, R176); under the default SELMAP its decoder is K44 (R187). -/
  | auSel26K44
  /-- AU.SEL27.T37: Selector 27 (R89, R172, R175, R176); under the default SELMAP its decoder is T37 (R191). -/
  | auSel27T37
  /-- AU.SEL28.BAD: Selector 28 (R89, R172, R175, R176); under the default SELMAP its decoder is BAD (R192). -/
  | auSel28Bad
  /-- AU.SEL29.BAD: Selector 29 (R89, R172, R175, R176); under the default SELMAP its decoder is BAD (R192). -/
  | auSel29Bad
  /-- AU.SEL30.BAD: Selector 30 (R89, R172, R175, R176); under the default SELMAP its decoder is BAD (R192). -/
  | auSel30Bad
  /-- AU.SEL31.BAD: Selector 31 (R89, R172, R175, R176); under the default SELMAP its decoder is BAD (R192). -/
  | auSel31Bad
  /-- AU.LINEAR.V: LINEAR code word: a `w`-bit value, `w` the selector (R90, R178). -/
  | auLinearV (w : BitVec 5) (v : BitVec 32)
  /-- AU.K13.Z2: Code word `0`: two zeros (one if only one slot is left) (R90, R179). -/
  | auK13Z2
  /-- AU.K13.Z1: Code word `1 0`: one zero (R90, R179). -/
  | auK13Z1
  /-- AU.K13.V: Code word `1 1 v:1`: one sample MAP1[v] (R90, R179). -/
  | auK13V (v : BitVec 1)
  /-- AU.K24.Z2: Code word `0`: two zeros (one if only one slot is left) (R90, R181). -/
  | auK24Z2
  /-- AU.K24.Z1: Code word `1 0`: one zero (R90, R181). -/
  | auK24Z1
  /-- AU.K24.V: Code word `1 1 v:2`: one sample MAP2N[v] (R90, R181). -/
  | auK24V (v : BitVec 2)
  /-- AU.K45.Z2: Code word `0`: two zeros (one if only one slot is left) (R90, R186). -/
  | auK45Z2
  /-- AU.K45.Z1: Code word `1 0`: one zero (R90, R186). -/
  | auK45Z1
  /-- AU.K45.V: Code word `1 1 v:3`: one sample MAP3[v] (R90, R186). -/
  | auK45V (v : BitVec 3)
  /-- AU.K12.Z1: Code word `0`: one zero (R90, R180). -/
  | auK12Z1
  /-- AU.K12.V: Code word `1 v:1`: one sample MAP1[v] (R90, R180). -/
  | auK12V (v : BitVec 1)
  /-- AU.K23.Z1: Code word `0`: one zero (R90, R182). -/
  | auK23Z1
  /-- AU.K23.V: Code word `1 v:2`: one sample MAP2N[v] (R90, R182). -/
  | auK23V (v : BitVec 2)
  /-- AU.K44.Z1: Code word `0`: one zero (R90, R187). -/
  | auK44Z1
  /-- AU.K44.V: Code word `1 v:3`: one sample MAP3[v] (R90, R187). -/
  | auK44V (v : BitVec 3)
  /-- AU.K35.Z2: Code word `0`: two zeros (one if only one slot is left) (R90, R184). -/
  | auK35Z2
  /-- AU.K35.Z1: Code word `1 0`: one zero (R90, R184). -/
  | auK35Z1
  /-- AU.K35.V1: Code word `1 1 0 v:1`: one sample MAP1[v] (R90, R184). -/
  | auK35V1 (v : BitVec 1)
  /-- AU.K35.V2: Code word `1 1 1 v:2`: one sample MAP2F[v] (R90, R184). -/
  | auK35V2 (v : BitVec 2)
  /-- AU.K34.Z1: Code word `0`: one zero (R90, R185). -/
  | auK34Z1
  /-- AU.K34.V1: Code word `1 0 v:1`: one sample MAP1[v] (R90, R185). -/
  | auK34V1 (v : BitVec 1)
  /-- AU.K34.V2: Code word `1 1 v:2`: one sample MAP2F[v] (R90, R185). -/
  | auK34V2 (v : BitVec 2)
  /-- AU.T15.IDX: Code word `v:5`: up to 3 samples, nibble k of TAB3x3[v] less the table's bias, 1 by default (R90, R188). -/
  | auT15Idx (v : BitVec 5)
  /-- AU.T27.IDX: Code word `v:7`: up to 3 samples, nibble k of TAB3x5[v] less the table's bias, 2 by default (R90, R189). -/
  | auT27Idx (v : BitVec 7)
  /-- AU.T37.IDX: Code word `v:7`: up to 2 samples, nibble k of TAB2x11[v] less the table's bias, 5 by default (R90, R191). -/
  | auT37Idx (v : BitVec 7)
  /-- LZ_START: `LZ_CMD` 0x01 (R104, R120). -/
  | lzStart
  /-- LZ_RESET: `LZ_CMD` 0x02 (R104, R135). -/
  | lzReset
  /-- AU_INIT: `AU_CMD` 0x01 (R104, R150). -/
  | auInit
  /-- AU_NEXT: `AU_CMD` 0x02 (R104, R170). -/
  | auNext
  /-- AU_RESTART: `AU_CMD` 0x03 (R104, R224). -/
  | auRestart
  /-- AU_CLEAR_WRAP: `AU_CMD` 0x04 (R104, R225). -/
  | auClearWrap
  /-- AU_RESET: `AU_CMD` 0x05 (R104, R228). -/
  | auReset
deriving DecidableEq, Repr

end Sys2Proof
end

