-- ==== Sys2Proof/WellFormed.lean ====
section
/-! DEFINITION. Which instruction terms an encoding can carry: the operands that are wider in the syntax than
in the stream. -/

namespace Sys2Proof

/-- The checks: a raw prefix is negative and a coded prefix is positive (30_encoding.md R81); a LINEAR code
word has its selector's width, at least 1, and a value of that width (R90, R178). Every other operand has
its field's width by its type. -/
def Instr.wellFormed : Instr → Bool
  | .lzRaw w => w.msb
  | .lzCoded w => !w.msb && w != 0
  | .auLinearV w v => decide (1 ≤ w.toNat) && decide (v.toNat < 2 ^ w.toNat)
  | _ => true

end Sys2Proof
end

