-- ==== Sys2Proof/Decode.lean ====
section
/-! DEFINITION. The decoder and the encoder of the two stream formats (30_encoding.md) and of the host commands
(R104). Which token comes next is told by the unit's place in the grammar, never by the token's own bits (R80,
R95): a decoder takes that place as a context. LZU's tokens are read from bytes, ACU's from stream bits. -/

namespace Sys2Proof

/-- The two units (10_state.md R10). -/
inductive UnitId where
  | lzu
  | acu
deriving DecidableEq, Repr

/-- What LZU reads next (30_encoding.md R80): a prefix, a byte of raw data, a control byte, or an item of the
kind its control bit says. -/
inductive LzCtx where
  | blockPrefix
  | rawData
  | control
  | item (literal : Bool)
deriving DecidableEq, Repr

/-- What ACU reads next (30_encoding.md R86): the header, a block header, a selector, or a code word of the
decoder `d` of selector `sel`. -/
inductive AuCtx where
  | header
  | block
  | selector
  | code (d : Decoder) (sel : BitVec 5)
deriving DecidableEq, Repr

/-- Why a decoder rejects what it reads. -/
inductive Reject where
  /-- The first 24 bits of a header are neither magic (30_encoding.md R93). -/
  | badMagic
  /-- The decoder of the context has no code words (ZERO and BAD, R90). -/
  | noCodeWord
  /-- The command code is not in the table of R104. -/
  | badCommand
deriving DecidableEq, Repr

/-- The outcome of decoding: a token and how many bytes (LZU) or bits (ACU) it takes; or the input ends inside
it, after `used` were read by reads that succeeded; or it is rejected after `used` were read. -/
inductive Decoded where
  | ok (i : Instr) (used : Nat)
  | short (used : Nat)
  | reject (why : Reject) (used : Nat)
deriving DecidableEq, Repr

/-- The instruction a decoding gives, if it gives one. -/
def Decoded.instr : Decoded → Option Instr
  | .ok i _ => some i
  | .short _ => none
  | .reject _ _ => none

/-! ## Fields of the bit stream -/

/-- The first `n` bits and the rest, if there are `n`. -/
def splitBits : Nat → List Bool → Option (List Bool × List Bool)
  | 0, bits => some ([], bits)
  | _ + 1, [] => none
  | n + 1, b :: bits => (splitBits n bits).map fun (f, rest) => (b :: f, rest)

/-- The value whose least significant bit is the first of the list. -/
def lsbValue : List Bool → Nat
  | [] => 0
  | b :: bits => b.toNat + 2 * lsbValue bits

/-- The value of the bits of one read, first bit read first (40_bit_reader.md R111). -/
def fieldValue : BitOrder → List Bool → Nat
  | .lsbFirst, bits => lsbValue bits
  | .msbFirst, bits => lsbValue bits.reverse

/-- The `n` low bits of `v`, least significant first. -/
def lsbBits : Nat → Nat → List Bool
  | 0, _ => []
  | n + 1, v => (v % 2 == 1) :: lsbBits n (v / 2)

/-- The `n` bits of a field of value `v` in read order (R111). -/
def fieldBits : BitOrder → Nat → Nat → List Bool
  | .lsbFirst, n, v => lsbBits n v
  | .msbFirst, n, v => (lsbBits n v).reverse

/-- One read of `n` bits inside a token: it fails as a whole when fewer are left (40_bit_reader.md R113). -/
def readField (o : BitOrder) (n : Nat) (bits : List Bool) (used : Nat)
    (next : Nat → List Bool → Nat → Decoded) : Decoded :=
  match splitBits n bits with
  | none => .short used
  | some (f, rest) => next (fieldValue o f) rest (used + n)

/-! ## The LZSS stream -/

/-- The 16-bit prefix word of two bytes (30_encoding.md R81; 20_memory.md R58). -/
def prefixWord : ByteOrder → Byte → Byte → BitVec 16
  | .big, b0, b1 => b0 ++ b1
  | .little, b0, b1 => b1 ++ b0

/-- The three kinds of prefix (R81, 41_lzss.md R123). -/
def prefixInstr (w : BitVec 16) : Instr :=
  if w = 0 then .lzZeroPfx else if w.msb then .lzRaw w else .lzCoded w

/-- The 12-bit offset of a back-reference (R84). -/
def refOffset (byte1 byte2 : Byte) : BitVec 12 :=
  byte1.setWidth 12 ||| ((byte2 &&& 0xF0).setWidth 12 <<< 4)

/-- The length field of a back-reference, the copy length less 3 (R84). -/
def refLenM3 (byte2 : Byte) : BitVec 4 := (byte2 &&& 0x0F).setWidth 4

/-- The LZSS decoder (30_encoding.md R80 to R85). -/
def decodeLz (c : Config) : LzCtx → List Byte → Decoded
  | .blockPrefix, b0 :: b1 :: _ => .ok (prefixInstr (prefixWord c.prefixOrder b0 b1)) 2
  | .rawData, d :: _ => .ok (.lzData d) 1
  | .control, d :: _ => .ok (.lzCtl d) 1
  | .item true, d :: _ => .ok (.lzLit d) 1
  | .item false, b1 :: b2 :: _ => .ok (.lzRef (refOffset b1 b2) (refLenM3 b2)) 2
  | _, bytes => .short bytes.length

/-! ## The audio stream -/

/-- `AU_MAGIC` (00_scope.md R2). -/
def auMagic : Nat := 0x032897

/-- `AU_WRAPPER_MAGIC` (00_scope.md R2). -/
def auWrapperMagic : Nat := 0x564157

/-- The header (30_encoding.md R87; 42_audio_header.md R151 to R153): the magic first, then the six fields. -/
def decodeHeader (o : BitOrder) (bits : List Bool) : Decoded :=
  readField o 24 bits 0 fun magic r u =>
  if magic = auWrapperMagic then .ok .auHdrWrapper u
  else if magic ≠ auMagic then .reject .badMagic u
  else
  readField o 8 r u fun version r u =>
  readField o 32 r u fun samples r u =>
  readField o 16 r u fun channels r u =>
  readField o 16 r u fun rate r u =>
  readField o 4 r u fun level r u =>
  readField o 12 r u fun rows _ u =>
  .ok (.auHdr (BitVec.ofNat 8 version) (BitVec.ofNat 32 samples) (BitVec.ofNat 16 channels)
    (BitVec.ofNat 16 rate) (BitVec.ofNat 4 level) (BitVec.ofNat 12 rows)) u

/-- The block header (R88). -/
def decodeBlock (o : BitOrder) (bits : List Bool) : Decoded :=
  readField o 4 bits 0 fun pwr r u =>
  readField o 16 r u fun scale _ u =>
  .ok (.auBlk (BitVec.ofNat 4 pwr) (BitVec.ofNat 16 scale)) u

/-- The instruction of a selector value (R89): one row of the opcode table each. -/
def selectorInstr : Nat → Instr
  | 0 => .auSel0Zero
  | 1 => .auSel1Bad
  | 2 => .auSel2Bad
  | 3 => .auSel3Linear
  | 4 => .auSel4Linear
  | 5 => .auSel5Linear
  | 6 => .auSel6Linear
  | 7 => .auSel7Linear
  | 8 => .auSel8Linear
  | 9 => .auSel9Linear
  | 10 => .auSel10Linear
  | 11 => .auSel11Linear
  | 12 => .auSel12Linear
  | 13 => .auSel13Linear
  | 14 => .auSel14Linear
  | 15 => .auSel15Linear
  | 16 => .auSel16Linear
  | 17 => .auSel17K13
  | 18 => .auSel18K12
  | 19 => .auSel19T15
  | 20 => .auSel20K24
  | 21 => .auSel21K23
  | 22 => .auSel22T27
  | 23 => .auSel23K35
  | 24 => .auSel24K34
  | 25 => .auSel25K45
  | 26 => .auSel26K44
  | 27 => .auSel27T37
  | 28 => .auSel28Bad
  | 29 => .auSel29Bad
  | 30 => .auSel30Bad
  | _ => .auSel31Bad

/-- The selector (R89). -/
def decodeSelector (o : BitOrder) (bits : List Bool) : Decoded :=
  readField o 5 bits 0 fun sel _ u => .ok (selectorInstr sel) u

/-- The code words `0`, `1 0`, `1 1 ...` of the two-zero escape (R90): K13, K24, K45, K35. -/
def decodeTwoZero (o : BitOrder) (z2 z1 : Instr) (value : List Bool → Nat → Decoded) (bits : List Bool) : Decoded :=
  readField o 1 bits 0 fun b r u =>
  if b = 0 then .ok z2 u
  else readField o 1 r u fun b r u => if b = 0 then .ok z1 u else value r u

/-- The code words `0`, `1 ...` of the one-zero escape (R90): K12, K23, K44, K34. -/
def decodeOneZero (o : BitOrder) (z1 : Instr) (value : List Bool → Nat → Decoded) (bits : List Bool) : Decoded :=
  readField o 1 bits 0 fun b r u => if b = 0 then .ok z1 u else value r u

/-- A value field `v:n` that ends a code word. -/
def decodeValue (o : BitOrder) (n : Nat) (mk : Nat → Instr) (bits : List Bool) (used : Nat) : Decoded :=
  readField o n bits used fun v _ u => .ok (mk v) u

/-- The two-tier values `0 v:1` and `1 v:2` (R90): K35, K34. -/
def decodeTiers (o : BitOrder) (near : BitVec 1 → Instr) (far : BitVec 2 → Instr) (bits : List Bool) (used : Nat) : Decoded :=
  readField o 1 bits used fun b r u =>
  if b = 0 then decodeValue o 1 (fun v => near (BitVec.ofNat 1 v)) r u
  else decodeValue o 2 (fun v => far (BitVec.ofNat 2 v)) r u

/-- The code words of each decoder (30_encoding.md R90). PRESUMED: the code words and index widths are the spec's from
general knowledge (GK6, GK7), notes/assumptions/6.md. -/
def decodeCode (o : BitOrder) (d : Decoder) (sel : BitVec 5) (bits : List Bool) : Decoded :=
  match d with
  | .zero => .reject .noCodeWord 0
  | .bad => .reject .noCodeWord 0
  | .linear =>
    if sel = 0 then .reject .noCodeWord 0
    else decodeValue o sel.toNat (fun v => .auLinearV sel (BitVec.ofNat 32 v)) bits 0
  | .k13 => decodeTwoZero o .auK13Z2 .auK13Z1 (decodeValue o 1 fun v => .auK13V (BitVec.ofNat 1 v)) bits
  | .k24 => decodeTwoZero o .auK24Z2 .auK24Z1 (decodeValue o 2 fun v => .auK24V (BitVec.ofNat 2 v)) bits
  | .k45 => decodeTwoZero o .auK45Z2 .auK45Z1 (decodeValue o 3 fun v => .auK45V (BitVec.ofNat 3 v)) bits
  | .k35 => decodeTwoZero o .auK35Z2 .auK35Z1 (decodeTiers o .auK35V1 .auK35V2) bits
  | .k12 => decodeOneZero o .auK12Z1 (decodeValue o 1 fun v => .auK12V (BitVec.ofNat 1 v)) bits
  | .k23 => decodeOneZero o .auK23Z1 (decodeValue o 2 fun v => .auK23V (BitVec.ofNat 2 v)) bits
  | .k44 => decodeOneZero o .auK44Z1 (decodeValue o 3 fun v => .auK44V (BitVec.ofNat 3 v)) bits
  | .k34 => decodeOneZero o .auK34Z1 (decodeTiers o .auK34V1 .auK34V2) bits
  | .t15 => decodeValue o 5 (fun v => .auT15Idx (BitVec.ofNat 5 v)) bits 0
  | .t27 => decodeValue o 7 (fun v => .auT27Idx (BitVec.ofNat 7 v)) bits 0
  | .t37 => decodeValue o 7 (fun v => .auT37Idx (BitVec.ofNat 7 v)) bits 0

/-- The audio decoder (30_encoding.md R86 to R90). -/
def decodeAu (c : Config) : AuCtx → List Bool → Decoded
  | .header, bits => decodeHeader c.bitOrder bits
  | .block, bits => decodeBlock c.bitOrder bits
  | .selector, bits => decodeSelector c.bitOrder bits
  | .code d sel, bits => decodeCode c.bitOrder d sel bits

/-! ## Host commands -/

/-- The command codes (30_encoding.md R104); any other code is illegal (60_exceptions.md R247). -/
def decodeCommand (unit : UnitId) (code : Byte) : Decoded :=
  match unit, code.toNat with
  | .lzu, 0x01 => .ok .lzStart 1
  | .lzu, 0x02 => .ok .lzReset 1
  | .acu, 0x01 => .ok .auInit 1
  | .acu, 0x02 => .ok .auNext 1
  | .acu, 0x03 => .ok .auRestart 1
  | .acu, 0x04 => .ok .auClearWrap 1
  | .acu, 0x05 => .ok .auReset 1
  | _, _ => .reject .badCommand 1

/-! ## The encoder -/

/-- The context a token is read in; none for a host command. -/
inductive Context where
  | lz (x : LzCtx)
  | au (x : AuCtx)
  | command (unit : UnitId)
deriving DecidableEq, Repr

/-- The words of an instruction: bytes of `IN` of LZU, stream bits of `IN` of ACU, or a command code. -/
inductive Words where
  | bytes (b : List Byte)
  | bits (b : List Bool)
  | command (code : Byte)
deriving DecidableEq, Repr

/-- The selector value of a selector instruction (R89). -/
def selectorValue : Instr → Option Nat
  | .auSel0Zero => some 0
  | .auSel1Bad => some 1
  | .auSel2Bad => some 2
  | .auSel3Linear => some 3
  | .auSel4Linear => some 4
  | .auSel5Linear => some 5
  | .auSel6Linear => some 6
  | .auSel7Linear => some 7
  | .auSel8Linear => some 8
  | .auSel9Linear => some 9
  | .auSel10Linear => some 10
  | .auSel11Linear => some 11
  | .auSel12Linear => some 12
  | .auSel13Linear => some 13
  | .auSel14Linear => some 14
  | .auSel15Linear => some 15
  | .auSel16Linear => some 16
  | .auSel17K13 => some 17
  | .auSel18K12 => some 18
  | .auSel19T15 => some 19
  | .auSel20K24 => some 20
  | .auSel21K23 => some 21
  | .auSel22T27 => some 22
  | .auSel23K35 => some 23
  | .auSel24K34 => some 24
  | .auSel25K45 => some 25
  | .auSel26K44 => some 26
  | .auSel27T37 => some 27
  | .auSel28Bad => some 28
  | .auSel29Bad => some 29
  | .auSel30Bad => some 30
  | .auSel31Bad => some 31
  | _ => none

/-- The two bytes of a prefix word (R81). -/
def prefixBytes : ByteOrder → BitVec 16 → List Byte
  | .big, w => [w.extractLsb' 8 8, w.extractLsb' 0 8]
  | .little, w => [w.extractLsb' 0 8, w.extractLsb' 8 8]

/-- The two bytes of a back-reference (30_encoding.md R96). -/
def refBytes (off : BitVec 12) (lenM3 : BitVec 4) : List Byte :=
  [off.setWidth 8, ((off >>> 8).setWidth 8 <<< 4) ||| lenM3.setWidth 8]

/-- The bits of the header, field by field (R87). -/
def headerBits (o : BitOrder) (version : BitVec 8) (samples : BitVec 32) (channels rate : BitVec 16)
    (level : BitVec 4) (rows : BitVec 12) : List Bool :=
  fieldBits o 24 auMagic ++ fieldBits o 8 version.toNat ++ fieldBits o 32 samples.toNat ++
  fieldBits o 16 channels.toNat ++ fieldBits o 16 rate.toNat ++ fieldBits o 4 level.toNat ++
  fieldBits o 12 rows.toNat

/-- The words of an instruction, from the encodings of 30_encoding.md R81 to R90 and R104. -/
def encode (c : Config) (i : Instr) : Words :=
  match i with
  | .lzRaw w => .bytes (prefixBytes c.prefixOrder w)
  | .lzCoded w => .bytes (prefixBytes c.prefixOrder w)
  | .lzZeroPfx => .bytes [0, 0]
  | .lzData d => .bytes [d]
  | .lzCtl d => .bytes [d]
  | .lzLit d => .bytes [d]
  | .lzRef off lenM3 => .bytes (refBytes off lenM3)
  | .auHdr version samples channels rate level rows => .bits (headerBits c.bitOrder version samples channels rate level rows)
  | .auHdrWrapper => .bits (fieldBits c.bitOrder 24 auWrapperMagic)
  | .auBlk pwr scale => .bits (fieldBits c.bitOrder 4 pwr.toNat ++ fieldBits c.bitOrder 16 scale.toNat)
  | .auLinearV w v => .bits (fieldBits c.bitOrder w.toNat v.toNat)
  | .auK13Z2 => .bits [false]
  | .auK13Z1 => .bits [true, false]
  | .auK13V v => .bits ([true, true] ++ fieldBits c.bitOrder 1 v.toNat)
  | .auK24Z2 => .bits [false]
  | .auK24Z1 => .bits [true, false]
  | .auK24V v => .bits ([true, true] ++ fieldBits c.bitOrder 2 v.toNat)
  | .auK45Z2 => .bits [false]
  | .auK45Z1 => .bits [true, false]
  | .auK45V v => .bits ([true, true] ++ fieldBits c.bitOrder 3 v.toNat)
  | .auK12Z1 => .bits [false]
  | .auK12V v => .bits ([true] ++ fieldBits c.bitOrder 1 v.toNat)
  | .auK23Z1 => .bits [false]
  | .auK23V v => .bits ([true] ++ fieldBits c.bitOrder 2 v.toNat)
  | .auK44Z1 => .bits [false]
  | .auK44V v => .bits ([true] ++ fieldBits c.bitOrder 3 v.toNat)
  | .auK35Z2 => .bits [false]
  | .auK35Z1 => .bits [true, false]
  | .auK35V1 v => .bits ([true, true, false] ++ fieldBits c.bitOrder 1 v.toNat)
  | .auK35V2 v => .bits ([true, true, true] ++ fieldBits c.bitOrder 2 v.toNat)
  | .auK34Z1 => .bits [false]
  | .auK34V1 v => .bits ([true, false] ++ fieldBits c.bitOrder 1 v.toNat)
  | .auK34V2 v => .bits ([true, true] ++ fieldBits c.bitOrder 2 v.toNat)
  | .auT15Idx v => .bits (fieldBits c.bitOrder 5 v.toNat)
  | .auT27Idx v => .bits (fieldBits c.bitOrder 7 v.toNat)
  | .auT37Idx v => .bits (fieldBits c.bitOrder 7 v.toNat)
  | .lzStart => .command 0x01
  | .lzReset => .command 0x02
  | .auInit => .command 0x01
  | .auNext => .command 0x02
  | .auRestart => .command 0x03
  | .auClearWrap => .command 0x04
  | .auReset => .command 0x05
  | .auSel0Zero => .bits (fieldBits c.bitOrder 5 0)
  | .auSel1Bad => .bits (fieldBits c.bitOrder 5 1)
  | .auSel2Bad => .bits (fieldBits c.bitOrder 5 2)
  | .auSel3Linear => .bits (fieldBits c.bitOrder 5 3)
  | .auSel4Linear => .bits (fieldBits c.bitOrder 5 4)
  | .auSel5Linear => .bits (fieldBits c.bitOrder 5 5)
  | .auSel6Linear => .bits (fieldBits c.bitOrder 5 6)
  | .auSel7Linear => .bits (fieldBits c.bitOrder 5 7)
  | .auSel8Linear => .bits (fieldBits c.bitOrder 5 8)
  | .auSel9Linear => .bits (fieldBits c.bitOrder 5 9)
  | .auSel10Linear => .bits (fieldBits c.bitOrder 5 10)
  | .auSel11Linear => .bits (fieldBits c.bitOrder 5 11)
  | .auSel12Linear => .bits (fieldBits c.bitOrder 5 12)
  | .auSel13Linear => .bits (fieldBits c.bitOrder 5 13)
  | .auSel14Linear => .bits (fieldBits c.bitOrder 5 14)
  | .auSel15Linear => .bits (fieldBits c.bitOrder 5 15)
  | .auSel16Linear => .bits (fieldBits c.bitOrder 5 16)
  | .auSel17K13 => .bits (fieldBits c.bitOrder 5 17)
  | .auSel18K12 => .bits (fieldBits c.bitOrder 5 18)
  | .auSel19T15 => .bits (fieldBits c.bitOrder 5 19)
  | .auSel20K24 => .bits (fieldBits c.bitOrder 5 20)
  | .auSel21K23 => .bits (fieldBits c.bitOrder 5 21)
  | .auSel22T27 => .bits (fieldBits c.bitOrder 5 22)
  | .auSel23K35 => .bits (fieldBits c.bitOrder 5 23)
  | .auSel24K34 => .bits (fieldBits c.bitOrder 5 24)
  | .auSel25K45 => .bits (fieldBits c.bitOrder 5 25)
  | .auSel26K44 => .bits (fieldBits c.bitOrder 5 26)
  | .auSel27T37 => .bits (fieldBits c.bitOrder 5 27)
  | .auSel28Bad => .bits (fieldBits c.bitOrder 5 28)
  | .auSel29Bad => .bits (fieldBits c.bitOrder 5 29)
  | .auSel30Bad => .bits (fieldBits c.bitOrder 5 30)
  | .auSel31Bad => .bits (fieldBits c.bitOrder 5 31)

/-- The context an instruction is read in. A code word's selector is the instruction's own where it names it
(LINEAR) and any selector that `SELMAP` gives the decoder otherwise; the decoder of a code word reads the
selector in LINEAR only, so the default's is named. -/
def contextOf (i : Instr) : Context :=
  match i with
  | .lzRaw _ => .lz .blockPrefix
  | .lzCoded _ => .lz .blockPrefix
  | .lzZeroPfx => .lz .blockPrefix
  | .lzData _ => .lz .rawData
  | .lzCtl _ => .lz .control
  | .lzLit _ => .lz (.item true)
  | .lzRef _ _ => .lz (.item false)
  | .auHdr _ _ _ _ _ _ => .au .header
  | .auHdrWrapper => .au .header
  | .auBlk _ _ => .au .block
  | .auLinearV w _ => .au (.code .linear w)
  | .auK13Z2 => .au (.code .k13 17)
  | .auK13Z1 => .au (.code .k13 17)
  | .auK13V _ => .au (.code .k13 17)
  | .auK24Z2 => .au (.code .k24 20)
  | .auK24Z1 => .au (.code .k24 20)
  | .auK24V _ => .au (.code .k24 20)
  | .auK45Z2 => .au (.code .k45 25)
  | .auK45Z1 => .au (.code .k45 25)
  | .auK45V _ => .au (.code .k45 25)
  | .auK12Z1 => .au (.code .k12 18)
  | .auK12V _ => .au (.code .k12 18)
  | .auK23Z1 => .au (.code .k23 21)
  | .auK23V _ => .au (.code .k23 21)
  | .auK44Z1 => .au (.code .k44 26)
  | .auK44V _ => .au (.code .k44 26)
  | .auK35Z2 => .au (.code .k35 23)
  | .auK35Z1 => .au (.code .k35 23)
  | .auK35V1 _ => .au (.code .k35 23)
  | .auK35V2 _ => .au (.code .k35 23)
  | .auK34Z1 => .au (.code .k34 24)
  | .auK34V1 _ => .au (.code .k34 24)
  | .auK34V2 _ => .au (.code .k34 24)
  | .auT15Idx _ => .au (.code .t15 19)
  | .auT27Idx _ => .au (.code .t27 22)
  | .auT37Idx _ => .au (.code .t37 27)
  | .lzStart => .command .lzu
  | .lzReset => .command .lzu
  | .auInit => .command .acu
  | .auNext => .command .acu
  | .auRestart => .command .acu
  | .auClearWrap => .command .acu
  | .auReset => .command .acu
  | .auSel0Zero => .au .selector
  | .auSel1Bad => .au .selector
  | .auSel2Bad => .au .selector
  | .auSel3Linear => .au .selector
  | .auSel4Linear => .au .selector
  | .auSel5Linear => .au .selector
  | .auSel6Linear => .au .selector
  | .auSel7Linear => .au .selector
  | .auSel8Linear => .au .selector
  | .auSel9Linear => .au .selector
  | .auSel10Linear => .au .selector
  | .auSel11Linear => .au .selector
  | .auSel12Linear => .au .selector
  | .auSel13Linear => .au .selector
  | .auSel14Linear => .au .selector
  | .auSel15Linear => .au .selector
  | .auSel16Linear => .au .selector
  | .auSel17K13 => .au .selector
  | .auSel18K12 => .au .selector
  | .auSel19T15 => .au .selector
  | .auSel20K24 => .au .selector
  | .auSel21K23 => .au .selector
  | .auSel22T27 => .au .selector
  | .auSel23K35 => .au .selector
  | .auSel24K34 => .au .selector
  | .auSel25K45 => .au .selector
  | .auSel26K44 => .au .selector
  | .auSel27T37 => .au .selector
  | .auSel28Bad => .au .selector
  | .auSel29Bad => .au .selector
  | .auSel30Bad => .au .selector
  | .auSel31Bad => .au .selector

/-- Decoding in a context, on words of its kind followed by whatever follows in the stream. -/
def decodeIn (c : Config) : Context → Words → Decoded
  | .lz x, .bytes b => decodeLz c x b
  | .au x, .bits b => decodeAu c x b
  | .command u, .command code => decodeCommand u code
  | _, _ => .reject .noCodeWord 0

/-! ## The opcode table's words -/

/-- The low `n` bytes of `w`, least significant first. -/
def lowBytes : Nat → Nat → List Byte
  | 0, _ => []
  | n + 1, w => BitVec.ofNat 8 w :: lowBytes n (w / 256)

/-- The bits of a byte in stream order (40_bit_reader.md R110). -/
def byteBits : BitOrder → Byte → List Bool
  | .lsbFirst, b => lsbBits 8 b.toNat
  | .msbFirst, b => (lsbBits 8 b.toNat).reverse

/-- The context in which a word of `nbits` bits of the opcode table is read. The table's own words overlap (an
8-bit word is a selector, a byte of the LZSS stream and a command), so the number of bits and the value choose:
notes/assumptions/23.md. -/
def tableContext (nbits w : Nat) : Context :=
  if nbits ≤ 8 then (if w < 32 then .au .selector else .lz .rawData)
  else if nbits ≤ 16 then .lz .blockPrefix
  else if nbits ≤ 24 ∧ w < 2 ^ 20 then .au .block
  else .au .header

/-- The bytes of that word as they lie in `IN`: a prefix in its byte order, audio bits from bit 0 up, zeros above
up to the longest token, the header's 14 bytes (30_encoding.md R87). -/
def tableBytes (c : Config) (nbits w : Nat) : List Byte :=
  match tableContext nbits w with
  | .lz .blockPrefix => prefixBytes c.prefixOrder (BitVec.ofNat 16 w)
  | .lz _ => [BitVec.ofNat 8 w]
  | _ => lowBytes 14 w

/-- The instruction the decoder reads, under the default parameters, from a word of the opcode table. -/
def decodeTableWord (nbits w : Nat) : Option Instr :=
  match tableContext nbits w with
  | .lz x => (decodeLz Config.default x (tableBytes Config.default nbits w)).instr
  | .au x =>
    (decodeAu Config.default x ((tableBytes Config.default nbits w).flatMap (byteBits Config.default.bitOrder))).instr
  | .command u => (decodeCommand u (BitVec.ofNat 8 w)).instr

end Sys2Proof
end

