-- ==== Sys2Proof/Machine/State.lean ====
section
/-! DEFINITION. The state of the FFD decode block as plain data: the two units (10_state.md R10 to R32), the
parameters, and the host's pending acts; why a step stops; and the machine right after reset (R270 to R272). -/

namespace Sys2Proof.Machine

/-- `LZ_STATUS` (10_state.md R11). -/
inductive LzStatus where
  | idle | busy | done | fault
deriving DecidableEq, Repr

/-- `lz.phase` (R13): where LZU is in the stream grammar. -/
inductive LzPhase where
  | top | group | item
deriving DecidableEq, Repr

/-- `AU_STATUS` (R20). -/
inductive AuStatus where
  | idle | busy | ready | endComplete | endTruncated | fault
deriving DecidableEq, Repr

/-- Where ACU is in the stream grammar of 30_encoding.md R86, or at the wrap-merge or the output that end a block
(43_audio_block_decode.md R170). The MODEL's own: notes/assumptions/20.md. -/
inductive AuPhase where
  | header | block | selector | code | merge | output
deriving DecidableEq, Repr

/-- LZU (10_state.md R11 to R15). The registers of AW bits (`inLen`, `outLen`, `faultIp`, `faultOp`, `ip`, `op`) are numbers
below `2 ^ AW`, AW the parameter `Config.aw`: no rule wraps one, and `LzInv` says that every step keeps them in range
(notes/assumptions/1.md). `rawLeft` is the MODEL's own: notes/assumptions/8.md. -/
structure Lzu where
  inLen   : Nat
  outLen  : Nat
  status  : LzStatus
  fault   : BitVec 8
  faultIp : Nat
  faultOp : Nat
  flags   : BitVec 1
  ip      : Nat
  op      : Nat
  phase   : LzPhase
  blkLen  : BitVec 16
  blkUsed : BitVec 16
  ctl     : Byte
  ctlK    : BitVec 4
  rp      : BitVec 12
  rawLeft : Nat
  inp     : Memory 8
  out     : Memory 8
  ring    : Memory 8
deriving DecidableEq, Repr

/-- ACU (10_state.md R20 to R27). `inLen` has AW bits, `faultPos`, `bitpos` and `dataStart` have AW + 3: numbers in that range, as
`AuInv` says (R20, R22, R24; notes/assumptions/1.md). `phase`, `row`, `freeCtr` and `changedAt` are the MODEL's own:
notes/assumptions/20.md, 14.md, 19.md. -/
structure Acu where
  inLen     : Nat
  chForce   : BitVec 2
  status    : AuStatus
  fault     : BitVec 8
  faultPos  : Nat
  samples   : BitVec 32
  chStored  : BitVec 16
  channels  : BitVec 2
  rate      : BitVec 16
  level     : BitVec 4
  rows      : BitVec 12
  lastN     : BitVec 28
  bitpos    : Nat
  dataStart : Nat
  emitted   : BitVec 32
  pwr       : BitVec 4
  scale     : BitVec 16
  col       : BitVec 16
  sel       : BitVec 5
  phase     : AuPhase
  row       : Nat
  freeCtr   : Nat
  changedAt : Option Nat
  inp       : Memory 8
  pcm       : Memory 16
  block     : Memory 32
  wrap      : Memory 32
deriving DecidableEq, Repr

/-- One act of the host on the block's interface (10_state.md R11, R20; 70_reset_and_hazards.md R273, R274), or
the platform's reset (R270). A number given for a register or an address of AW bits is taken modulo `2 ^ AW`
(notes/assumptions/1.md). The MODEL's own: notes/assumptions/9.md. -/
inductive HostAct where
  /-- A write of a code to `LZ_CMD`. -/
  | lzCommand (code : Byte)
  /-- A write of a code to `AU_CMD`. -/
  | auCommand (code : Byte)
  /-- A write of `LZ_IN_LEN`. -/
  | writeLzInLen (v : Nat)
  /-- A write of `LZ_OUT_LEN`. -/
  | writeLzOutLen (v : Nat)
  /-- A write of `AU_IN_LEN`. -/
  | writeAuInLen (v : Nat)
  /-- A write of `AU_CH_FORCE`. -/
  | writeAuChForce (v : BitVec 2)
  /-- The host places a byte of LZU's `IN`. -/
  | placeLzIn (a : Nat) (b : Byte)
  /-- The host places a byte of ACU's `IN`. -/
  | placeAuIn (a : Nat) (b : Byte)
  /-- The host places a byte of `OUT`. -/
  | placeOut (a : Nat) (b : Byte)
  /-- The host places a cell of `PCM`. -/
  | placePcm (a : BitVec 32) (v : Sample)
  /-- The platform's reset of both units. -/
  | reset
deriving DecidableEq, Repr

/-- The block: its parameters (00_scope.md R3), its two units (10_state.md R10), and the host's acts not yet
taken, oldest first. -/
structure State where
  cfg : Config
  lz  : Lzu
  au  : Acu
  ops : List HostAct
deriving DecidableEq, Repr

/-- Why the model stops where the spec names no behaviour. The faults of the spec (60_exceptions.md R240) are no
stops: they are states of a unit (`Machine.lzRaise`, `Machine.auRaise`). notes/assumptions/17.md. -/
inductive Fault where
  /-- Raised by a selector or a code word when the column or the row it would write lies outside `BLOCK`. The
  spec has no such slot (43_audio_block_decode.md R172) and no run meets one. Safe. -/
  | slotOutsideBlock
  /-- Raised by the fetch when ACU stands at a code word under a decoder that has none (ZERO, BAD). No run meets
  it. Safe. -/
  | undecodable
deriving DecidableEq, Repr

/-- What the model refuses. -/
inductive Refusal where
  /-- Raised by `exec` for an instruction that has no meaning yet. Safe. -/
  | notModelled (mnemonic : String)
  /-- Raised by a command given while its unit is `BUSY`: outside the spec (60_exceptions.md R247;
  93_implementation_defined.md U2). Never raised by `step`. Safe. -/
  | commandWhileBusy
deriving DecidableEq, Repr

/-- LZU after a hardware reset (70_reset_and_hazards.md R271), with host memories empty. The registers whose
reset value the spec leaves unspecified are zero: DESIGN CHOICE, notes/assumptions/11.md and 13.md. -/
def Lzu.initial : Lzu where
  inLen   := 0
  outLen  := 0
  status  := .idle
  fault   := 0
  faultIp := 0
  faultOp := 0
  flags   := 0
  ip      := 0
  op      := 0
  phase   := .top
  blkLen  := 0
  blkUsed := 0
  ctl     := 0
  ctlK    := 0
  rp      := 0
  rawLeft := 0
  inp     := []
  out     := []
  ring    := []

/-- ACU after a hardware reset (R271), with host memories empty. The registers whose reset value the spec leaves
unspecified are zero: DESIGN CHOICE, notes/assumptions/12.md. -/
def Acu.initial : Acu where
  inLen     := 0
  chForce   := 0
  status    := .idle
  fault     := 0
  faultPos  := 0
  samples   := 0
  chStored  := 0
  channels  := 0
  rate      := 0
  level     := 0
  rows      := 0
  lastN     := 0
  bitpos    := 0
  dataStart := 0
  emitted   := 0
  pwr       := 0
  scale     := 0
  col       := 0
  sel       := 0
  phase     := .block
  row       := 0
  freeCtr   := 0
  changedAt := none
  inp       := []
  pcm       := []
  block     := []
  wrap      := []

/-- The machine right after reset (70_reset_and_hazards.md R271, R272), under the default parameters, with no
act of the host pending. -/
def State.reset : State where
  cfg := Config.default
  lz  := Lzu.initial
  au  := Acu.initial
  ops := []

/-- The state with another LZU. -/
def State.withLz (s : State) (u : Lzu) : State := { s with lz := u }

/-- The state with another ACU. -/
def State.withAu (s : State) (u : Acu) : State := { s with au := u }

/-- The state with other pending acts of the host. -/
def State.withOps (s : State) (ops : List HostAct) : State := { s with ops := ops }

end Sys2Proof.Machine
end

