-- ==== Sys2Proof/Machine/Memory.lean ====
section
/-! DEFINITION. The memory spaces (20_memory.md R50 to R57): lists of (address, cell) in one canonical form. What
an unlisted address reads as: 0x20 in `RING` (00_scope.md R2, RING_FILL), no value in every other space. -/

namespace Sys2Proof.Machine

/-- The listed cell at an address. -/
def Memory.find {w : Nat} : Memory w → Nat → Option (BitVec w)
  | [], _ => none
  | (k, v) :: m, a => if a = k then some v else Memory.find m a

/-- Writing a cell of a space whose unlisted cells hold no value. -/
def Memory.put {w : Nat} : Memory w → Nat → BitVec w → Memory w
  | [], a, v => [(a, v)]
  | (k, u) :: m, a, v =>
    if a = k then (a, v) :: m
    else if a < k then (a, v) :: (k, u) :: m
    else (k, u) :: Memory.put m a v

/-- Taking a cell off the list. -/
def Memory.drop {w : Nat} (m : Memory w) (a : Nat) : Memory w := m.filter fun c => c.1 != a

/-- Writing a cell of a space whose unlisted cells read as `fill`: writing `fill` takes the entry off. -/
def Memory.putFilled {w : Nat} (fill : BitVec w) (m : Memory w) (a : Nat) (v : BitVec w) : Memory w :=
  if v = fill then Memory.drop m a else Memory.put m a v

/-- The canonical form: addresses strictly rising, no entry equal to what an unlisted address reads as (`fill`;
none where unlisted cells hold no value). -/
abbrev Memory.wf {w : Nat} (fill : Option (BitVec w)) (m : Memory w) : Prop :=
  m.Pairwise (fun c d => c.1 < d.1) ∧ ∀ c ∈ m, some c.2 ≠ fill

/-- `n` zero cells from address `a` up. -/
def Memory.zeros {w : Nat} : Nat → Nat → Memory w
  | _, 0 => []
  | a, n + 1 => (a, 0) :: Memory.zeros (a + 1) n

/-- `RING_FILL` (00_scope.md R2). -/
def ringFill : Byte := 0x20

/-- What a cell of `RING` reads as (41_lzss.md R125). -/
def ringCell (m : Memory 8) (a : BitVec 12) : Byte := (Memory.find m a.toNat).getD ringFill

/-- Writing a cell of `RING`. -/
def ringWrite (m : Memory 8) (a : BitVec 12) (b : Byte) : Memory 8 := Memory.putFilled ringFill m a.toNat b

/-- What a byte of LZU's `IN` reads as; where the host placed none, a free value (notes/assumptions/16.md). -/
def lzInByte (m : Memory 8) (a : Nat) : Byte := (Memory.find m a).getD (Config.freeLzByte a)

/-- What a byte of ACU's `IN` reads as; where the host placed none, a free value (notes/assumptions/16.md). -/
def auInByte (m : Memory 8) (a : Nat) : Byte := (Memory.find m a).getD (Config.freeAuByte a)

/-- What a cell of `BLOCK` reads as; where it holds no value, a free value (10_state.md R25; notes/assumptions/14.md). -/
def blockCell (ctr : Nat) (m : Memory 32) (a : Nat) : Cell32 := (Memory.find m a).getD (Config.freeBlockCell ctr a)

/-- What a cell of `WRAP` reads as; where it holds no value, a free value (R26; notes/assumptions/14.md). -/
def wrapCell (ctr : Nat) (m : Memory 32) (a : Nat) : Cell32 := (Memory.find m a).getD (Config.freeWrapCell ctr a)

/-- What a cell of `PCM` reads as for the host; where nothing wrote it, a free value (notes/assumptions/27.md). -/
def pcmCell (m : Memory 16) (a : Nat) : Sample := (Memory.find m a).getD (Config.freePcmCell a)

end Sys2Proof.Machine
end

