-- ==== Sys2Proof/Machine/Operands.lean ====
section
/-! DEFINITION. Operand forms and value computations: 32-bit wrap, shift and narrowing (00_scope.md R5,
44_audio_merge_output.md R215, R220), the derived sizes (10_state.md R21), the control bit (41_lzss.md R127), the
selector map (43_audio_block_decode.md R176) and the raw values of the code words (R178 to R191). -/

namespace Sys2Proof.Machine

/-- `wrap32` (00_scope.md R5). -/
def wrap32 (x : Int) : Cell32 := BitVec.ofInt 32 x

/-- The arithmetic right shift `x >>s n`, floor of the quotient (00_scope.md R5). -/
def shiftRight (x : Cell32) (n : Nat) : Int := x.toInt / 2 ^ n

/-- `narrow16` under the parameter `NARROW` (44_audio_merge_output.md R220). -/
def narrow16 : Narrow → Int → Sample
  | .wrap, x => BitVec.ofInt 16 x
  | .saturate, x => BitVec.ofInt 16 (if x < -32768 then -32768 else if 32767 < x then 32767 else x)

/-- `cols`, the subband count (10_state.md R21). -/
def cols (u : Acu) : Nat := 2 ^ u.level.toNat

/-- `rows`, the subband length, as a number (R21). -/
def rowCount (u : Acu) : Nat := u.rows.toNat

/-- `blocklen` (R21). -/
def blocklen (u : Acu) : Nat := cols u * rowCount u

/-- `wraplen` (R21). -/
def wraplen (u : Acu) : Nat := 2 * cols u - 2

/-- `step`, the rows of one chunk of the wrap-merge (R21). -/
def chunkRows (u : Acu) : Nat := max 1 (2048 / cols u - 2)

/-- The magnitude of a negative prefix: `-s`, computed in 16 bits unsigned (41_lzss.md R123, R133). -/
def rawMagnitude (w : BitVec 16) : BitVec 16 := -w

/-- The control bit of item `k` (41_lzss.md R127; 30_encoding.md R82). -/
def controlBit (o : BitOrder) (ctl : Byte) (k : BitVec 4) : Bool :=
  match o with
  | .lsbFirst => ctl.getLsbD k.toNat
  | .msbFirst => ctl.getLsbD (7 - k.toNat)

/-- `SELMAP[sel]` (43_audio_block_decode.md R176): selectors 0 and 3 to 16 are fixed by the source, the rest by the
parameter. -/
def decoderOf (c : Config) (sel : BitVec 5) : Decoder :=
  if sel = 0 then .zero
  else if 3 ≤ sel.toNat ∧ sel.toNat ≤ 16 then .linear
  else c.selmap[sel.toNat]'(sel.isLt)

/-- The value `SetSlot` stores for a raw value (R173). -/
def scaledRaw (raw : Int) (scale : BitVec 16) : Cell32 := wrap32 (raw * (scale.toNat : Int))

/-- The raw value of a LINEAR code word: `v - 2^(w-1)` (R178). -/
def linearRaw (w : BitVec 5) (v : BitVec 32) : Int := (v.toNat : Int) - 2 ^ (w.toNat - 1)

/-- `MAP1[v]` (R183). -/
def map1Raw (c : Config) (v : BitVec 1) : Int := c.map1[v.toNat]'(v.isLt)

/-- `MAP2N[v]` (R183). -/
def map2nRaw (c : Config) (v : BitVec 2) : Int := c.map2n[v.toNat]'(v.isLt)

/-- `MAP2F[v]` (R183). -/
def map2fRaw (c : Config) (v : BitVec 2) : Int := c.map2f[v.toNat]'(v.isLt)

/-- `MAP3[v]` (R183). -/
def map3Raw (c : Config) (v : BitVec 3) : Int := c.map3[v.toNat]'(v.isLt)

/-- Nibble `k` of a shift-table entry less the table's bias (R188). -/
def nibbleRaw (e : BitVec 12) (k : Nat) (bias : Int) : Int := ((e.toNat / 16 ^ k % 16 : Nat) : Int) - bias

/-- The samples of a T15 index, if the table has it (R188). The table and its bias are parameters, their defaults PRESUMED
(GK7): notes/assumptions/3.md, 6.md. -/
def t15Raws (c : Config) (v : BitVec 5) : Option (List Int) :=
  if h : v.toNat < 27 then
    let e := c.tab3x3[v.toNat]
    some [nibbleRaw e 0 c.bias3x3, nibbleRaw e 1 c.bias3x3, nibbleRaw e 2 c.bias3x3]
  else none

/-- The samples of a T27 index, if the table has it (R189); the parameters as in `t15Raws`. -/
def t27Raws (c : Config) (v : BitVec 7) : Option (List Int) :=
  if h : v.toNat < 125 then
    let e := c.tab3x5[v.toNat]
    some [nibbleRaw e 0 c.bias3x5, nibbleRaw e 1 c.bias3x5, nibbleRaw e 2 c.bias3x5]
  else none

/-- The samples of a T37 index, if the table has it (R191); the parameters as in `t15Raws`. -/
def t37Raws (c : Config) (v : BitVec 7) : Option (List Int) :=
  if h : v.toNat < 121 then
    let e := c.tab2x11[v.toNat]
    some [nibbleRaw e 0 c.bias2x11, nibbleRaw e 1 c.bias2x11]
  else none

/-- The effective channel count: the forced one if it is 1 or 2, else the stored one (42_audio_header.md R156). -/
def effectiveChannels (force : BitVec 2) (stored : BitVec 16) : BitVec 16 :=
  if force = 1 ∨ force = 2 then force.setWidth 16 else stored

end Sys2Proof.Machine
end

