-- ==== Sys2Proof/Machine/Flags.lean ====
section
/-! DEFINITION. The flag-like state (10_state.md R30): status codes, the fault causes and their codes
(60_exceptions.md R240), the TRIM flag, which commands a status allows (R247), and the host's view of every register
(10_state.md R11, R20). -/

namespace Sys2Proof.Machine

/-- The code of `LZ_STATUS` (10_state.md R11). -/
def LzStatus.code : LzStatus → BitVec 2
  | .idle => 0
  | .busy => 1
  | .done => 2
  | .fault => 3

/-- The code of `AU_STATUS` (R20). -/
def AuStatus.code : AuStatus → BitVec 3
  | .idle => 0
  | .busy => 1
  | .ready => 2
  | .endComplete => 3
  | .endTruncated => 4
  | .fault => 5

/-- The faults of LZU (60_exceptions.md R240). -/
inductive LzCause where
  | inputExhausted | blockOverrun | outputOverflow | zeroPrefix | usage
deriving DecidableEq, Repr

/-- The faults of ACU (R240). -/
inductive AuCause where
  | headerTruncated | badMagic | wrapperUnimplemented | badVersion | badChannels | lowRate | zeroBlock
  | unimplementedSelector | tableIndex | usage
deriving DecidableEq, Repr

/-- The codes of LZU's faults (R240). -/
def LzCause.code : LzCause → BitVec 8
  | .inputExhausted => 1
  | .blockOverrun => 2
  | .outputOverflow => 3
  | .zeroPrefix => 4
  | .usage => 5

/-- The codes of ACU's faults (R240). -/
def AuCause.code : AuCause → BitVec 8
  | .headerTruncated => 16
  | .badMagic => 17
  | .wrapperUnimplemented => 18
  | .badVersion => 19
  | .badChannels => 20
  | .lowRate => 21
  | .zeroBlock => 22
  | .unimplementedSelector => 23
  | .tableIndex => 24
  | .usage => 25

/-- `LZ_FLAGS` with TRIM set (10_state.md R11; 41_lzss.md R124). -/
def setTrim (flags : BitVec 1) : BitVec 1 := flags ||| 1

/-- The statuses in which AU_NEXT, AU_RESTART and AU_CLEAR_WRAP are legal (60_exceptions.md R247). -/
def AuStatus.hasStream : AuStatus → Bool
  | .ready => true
  | .endComplete => true
  | .endTruncated => true
  | .idle => false
  | .busy => false
  | .fault => false

/-- The host-visible registers (10_state.md R11, R20). -/
inductive HostReg where
  | lzCmd | lzInLen | lzOutLen | lzStatus | lzFault | lzFaultIp | lzFaultOp | lzOutCount | lzFlags
  | auCmd | auInLen | auChForce | auStatus | auFault | auFaultPos | auSamples | auChStored | auChannels | auRate
  | auLevel | auSublen | auEmitted | auLastN
deriving DecidableEq, Repr

/-- What the host reads from a register: the command registers read as 0, `LZ_OUT_COUNT` and `AU_EMITTED` are
views of `lz.op` and `au.emitted` (10_state.md R11, R20). Reading changes nothing (20_memory.md R62). -/
def readReg (s : State) : HostReg → Nat
  | .lzCmd => 0
  | .lzInLen => s.lz.inLen
  | .lzOutLen => s.lz.outLen
  | .lzStatus => s.lz.status.code.toNat
  | .lzFault => s.lz.fault.toNat
  | .lzFaultIp => s.lz.faultIp
  | .lzFaultOp => s.lz.faultOp
  | .lzOutCount => s.lz.op
  | .lzFlags => s.lz.flags.toNat
  | .auCmd => 0
  | .auInLen => s.au.inLen
  | .auChForce => s.au.chForce.toNat
  | .auStatus => s.au.status.code.toNat
  | .auFault => s.au.fault.toNat
  | .auFaultPos => s.au.faultPos
  | .auSamples => s.au.samples.toNat
  | .auChStored => s.au.chStored.toNat
  | .auChannels => s.au.channels.toNat
  | .auRate => s.au.rate.toNat
  | .auLevel => s.au.level.toNat
  | .auSublen => s.au.rows.toNat
  | .auEmitted => s.au.emitted.toNat
  | .auLastN => s.au.lastN.toNat

end Sys2Proof.Machine
end

