-- ==== Sys2Proof/Machine/Ops.lean ====
section
/-! DEFINITION. The named operations over registers and memories: fault entry (60_exceptions.md R250) and leaving it
(R253), LzFetch, LzEmit and LzPush (41_lzss.md R121, R130), the bit reader (40_bit_reader.md), SetSlot and the end of a
subband (43_audio_block_decode.md R172, R173), end of input in a block (R193), and the resets (70_reset_and_hazards.md). -/

namespace Sys2Proof.Machine

/-! ## Fault entry -/

/-- Fault entry of LZU (60_exceptions.md R250): the code, the two cursors (not for LZ_USAGE) and the status; nothing
else. -/
def lzRaise (f : LzCause) (u : Lzu) : Lzu :=
  { u with
    fault := f.code
    faultIp := if f = .usage then u.faultIp else u.ip
    faultOp := if f = .usage then u.faultOp else u.op
    status := .fault }

/-- Fault entry of ACU (R250): the code, the cursor (not for AU_USAGE) and the status; nothing else. -/
def auRaise (f : AuCause) (u : Acu) : Acu :=
  { u with
    fault := f.code
    faultPos := if f = .usage then u.faultPos else u.bitpos
    status := .fault }

/-- What every way out of `FAULT` does to LZU's fault registers (R253; 41_lzss.md R120). -/
def lzClearFault (u : Lzu) : Lzu := { u with fault := 0, faultIp := 0, faultOp := 0 }

/-- What every way out of `FAULT` does to ACU's fault registers (R253; 42_audio_header.md R150). -/
def auClearFault (u : Acu) : Acu := { u with fault := 0, faultPos := 0 }

/-! ## LZU -/

/-- The result of an operation that may raise: `.error` holds LZU after fault entry (00_scope.md R7). -/
abbrev LzRun := Except Lzu Lzu

/-- LZU after an operation, raised or not. -/
def settle : LzRun → Lzu
  | .ok u => u
  | .error u => u

/-- `LzFetch(coded)` (41_lzss.md R121): the block count is tested before the end of `IN`. -/
def lzFetch (coded : Bool) (u : Lzu) : Except Lzu (Byte × Lzu) :=
  if coded ∧ u.blkLen.toNat ≤ u.blkUsed.toNat then .error (lzRaise .blockOverrun u)
  else if u.inLen ≤ u.ip then .error (lzRaise .inputExhausted u)
  else .ok (lzInByte u.inp u.ip,
    { u with ip := u.ip + 1, blkUsed := if coded then u.blkUsed + 1 else u.blkUsed })

/-- `n` fetches one after another; what the fetches before a fault did stays done (60_exceptions.md R241). -/
def lzFetchMany (coded : Bool) : Nat → Lzu → Except Lzu (List Byte × Lzu)
  | 0, u => .ok ([], u)
  | n + 1, u =>
    match lzFetch coded u with
    | .error u' => .error u'
    | .ok (b, u') =>
      match lzFetchMany coded n u' with
      | .error u'' => .error u''
      | .ok (bs, u'') => .ok (b :: bs, u'')

/-- `LzEmit(b)` (41_lzss.md R130). -/
def lzEmit (b : Byte) (u : Lzu) : LzRun :=
  if u.outLen ≤ u.op then .error (lzRaise .outputOverflow u)
  else .ok { u with out := Memory.put u.out u.op b, op := u.op + 1 }

/-- `LzPush(b)` (R130). -/
def lzPush (b : Byte) (u : Lzu) : Lzu := { u with ring := ringWrite u.ring u.rp b, rp := u.rp + 1 }

/-- The copy of a back-reference: `n` bytes from address `a` of `RING`, each read, emitted and pushed before the next
is read (41_lzss.md R129; 20_memory.md R64). -/
def lzCopy : Nat → BitVec 12 → Lzu → LzRun
  | 0, _, u => .ok u
  | n + 1, a, u =>
    match lzEmit (ringCell u.ring a) u with
    | .error u' => .error u'
    | .ok u' => lzCopy n (a + 1) (lzPush (ringCell u.ring a) u')

/-- Opening a dictionary-coded block (R125): all of `RING` is 0x20 (nothing listed), the write index RING_START. -/
def lzOpenCoded (c : Config) (u : Lzu) : Lzu :=
  { u with ring := [], rp := c.ringStart, blkUsed := 0, phase := .group }

/-- LZ_RESET (41_lzss.md R135): every register to its reset value but the two the host writes; `IN` and `OUT` are the
host's (70_reset_and_hazards.md R271). -/
def lzResetUnit (u : Lzu) : Lzu :=
  { Lzu.initial with inLen := u.inLen, outLen := u.outLen, inp := u.inp, out := u.out }

/-- The hardware reset of LZU (R270, R271). -/
def lzHardReset (u : Lzu) : Lzu := { Lzu.initial with inp := u.inp, out := u.out }

/-! ## The bit reader -/

/-- `StreamBit(p)` (40_bit_reader.md R110). -/
def streamBit (o : BitOrder) (m : Memory 8) (p : Nat) : Bool :=
  match o with
  | .lsbFirst => (auInByte m (p / 8)).getLsbD (p % 8)
  | .msbFirst => (auInByte m (p / 8)).getLsbD (7 - p % 8)

/-- The `n` stream bits from position `p` up. -/
def streamBits (o : BitOrder) (m : Memory 8) : Nat → Nat → List Bool
  | _, 0 => []
  | p, n + 1 => streamBit o m p :: streamBits o m (p + 1) n

/-- How many bits remain (R112): `8 * AU_IN_LEN - au.bitpos`. -/
def bitsLeft (u : Acu) : Nat := 8 * u.inLen - u.bitpos

/-- `IN` as the bit reader sees it: as it stands (40_bit_reader.md R110, R112), but for the byte under the cursor that the
host changed after a part of it was consumed. Whether its remaining bits are the new ones (R112) or the leftover ones
(10_state.md R23; 70_reset_and_hazards.md R283) the spec leaves open: a free value, notes/assumptions/19.md. -/
def auView (u : Acu) : Memory 8 :=
  match u.changedAt with
  | none => u.inp
  | some a => Memory.put u.inp a (Config.freeLeftover u.freeCtr a)

/-- The stream bits that remain, next bit first. -/
def bitsAhead (o : BitOrder) (u : Acu) : List Bool := streamBits o (auView u) u.bitpos (bitsLeft u)

/-- The host places a byte of ACU's `IN` (70_reset_and_hazards.md R274). A change of the byte under the cursor, where a
part of it is consumed, is noted: notes/assumptions/19.md. -/
def auPlace (a : Nat) (b : Byte) (u : Acu) : Acu :=
  { u with
    inp := Memory.put u.inp a b
    changedAt :=
      if u.bitpos / 8 = a ∧ u.bitpos % 8 ≠ 0 ∧ Memory.find u.inp a ≠ some b then some a
      else u.changedAt }

/-- ACU with its cursor `n` bits on. -/
def advance (n : Nat) (u : Acu) : Acu := { u with bitpos := u.bitpos + n }

/-- The outcomes of one `BitRead` (40_bit_reader.md R112). -/
inductive BitReadResult where
  | value (v : Nat) (u : Acu)
  | endOfInput (u : Acu)
  | usage (u : Acu)
deriving DecidableEq, Repr

/-- `BitRead(n)` (R112): the usage error R114, EndOfInput with the cursor unchanged R113, or the value of the next `n`
bits R111. The token decoder makes the same reads through `readField`. R112 raises the usage error with `au.bitpos` as its
info, while 60_exceptions.md R240 and R250 record no position for AU_USAGE: the model keeps `AU_FAULT_POS`, as R250 says,
DEDUCED, notes/assumptions/25.md. -/
def bitRead (o : BitOrder) (n : Nat) (u : Acu) : BitReadResult :=
  if n < 1 ∨ 32 < n then .usage (auRaise .usage u)
  else
    match splitBits n (bitsAhead o u) with
    | none => .endOfInput u
    | some (f, _) => .value (fieldValue o f) (advance n u)

/-! ## ACU -/

/-- ACU with no value in any cell of `BLOCK` (10_state.md R25). -/
def dropBlock (u : Acu) : Acu := { u with block := [], freeCtr := u.freeCtr + 1 }

/-- `SetSlot(i, col, raw)` at the slot the decoder stands at, which then stands at the next one
(43_audio_block_decode.md R173). -/
def setSlot (raw : Int) (u : Acu) : Acu :=
  { u with
    block := Memory.put u.block (u.row * cols u + u.col.toNat) (scaledRaw raw u.scale)
    row := u.row + 1 }

/-- The samples of a code word in order, as many as the subband has slots left (R179, R188). -/
def putRaws : List Int → Acu → Acu
  | [], u => u
  | raw :: raws, u => if u.row < rowCount u then putRaws raws (setSlot raw u) else u

/-- The end of a subband step (R172): the next column, or the wrap-merge after the last. -/
def endSubband (u : Acu) : Acu :=
  { u with
    col := u.col + 1
    phase := if u.col.toNat + 1 = cols u then .merge else .selector }

/-- After a code word: the subband ends when its quota is met (R179). -/
def closeSubband (u : Acu) : Acu := if rowCount u ≤ u.row then endSubband u else u

/-- The column under way is a column of `BLOCK`. -/
def colExists (u : Acu) : Bool := decide (u.col.toNat < cols u)

/-- The slot under way is a slot of `BLOCK` (10_state.md R25). -/
def slotExists (u : Acu) : Bool := colExists u && decide (u.row < rowCount u)

/-- A code word's samples are written and the subband ends if that fills it. -/
def emitRaws (raws : List Int) (s : State) : Host.Outcome State Fault Refusal :=
  if slotExists s.au then .next (s.withAu (closeSubband (putRaws raws s.au))) else .fault .slotOutsideBlock

/-- A selector (43_audio_block_decode.md R172, R175): `blk.sel` is latched and the decoder `SELMAP` gives begins at slot
0. BAD faults (R192), ZERO fills the column at once (R177), every other decoder goes on with its code words. -/
def beginSubband (sel : BitVec 5) (s : State) : Host.Outcome State Fault Refusal :=
  let u : Acu := { s.au with sel := sel, row := 0 }
  match decoderOf s.cfg sel with
  | .bad => .next (s.withAu (auRaise .unimplementedSelector u))
  | .zero =>
    if colExists u then .next (s.withAu (endSubband (putRaws (List.replicate (rowCount u) 0) u)))
    else .fault .slotOutsideBlock
  | _ =>
    if colExists u then .next (s.withAu (closeSubband { u with phase := .code }))
    else .fault .slotOutsideBlock

/-- The shift-table code words (R188, R189, R191): the table's samples, or AU_TABLE_INDEX. -/
def emitTable (raws : Option (List Int)) (s : State) : Host.Outcome State Fault Refusal :=
  match raws with
  | some raws => emitRaws raws s
  | none => .next (s.withAu (auRaise .tableIndex s.au))

/-- End of input inside a block (43_audio_block_decode.md R193): no fault; `BLOCK` and the `blk.*` registers hold no
value (free values, notes/assumptions/15.md). -/
def endTruncated (u : Acu) : Acu :=
  { dropBlock u with
    lastN := 0
    status := .endTruncated
    pwr := Config.freePwr u.freeCtr
    scale := Config.freeScale u.freeCtr
    col := Config.freeCol u.freeCtr
    sel := Config.freeSel u.freeCtr }

/-- AU_RESET (44_audio_merge_output.md R228): every register to its reset value but the two the host writes; `BLOCK`
and `WRAP` hold no value; `IN` and `PCM` are the host's (70_reset_and_hazards.md R271). -/
def auResetUnit (u : Acu) : Acu :=
  { Acu.initial with
    inLen := u.inLen, chForce := u.chForce, inp := u.inp, pcm := u.pcm, freeCtr := u.freeCtr + 1 }

/-- The hardware reset of ACU (R270, R271). -/
def auHardReset (u : Acu) : Acu :=
  { Acu.initial with inp := u.inp, pcm := u.pcm, freeCtr := u.freeCtr + 1 }

/-- The platform's reset of both units (70_reset_and_hazards.md R270). -/
def hardReset (s : State) : State := { s with lz := lzHardReset s.lz, au := auHardReset s.au }

end Sys2Proof.Machine
end

