-- ==== Sys2Proof/Machine/AudioFrame.lean ====
section
/-! DEFINITION. The meanings of the audio frame tokens: the header (42_audio_header.md) and the block header
(43_audio_block_decode.md R171). The token's bits have been read by the step (Machine/Fetch.lean). -/

namespace Sys2Proof.Machine

/-- The set-up after the header's checks (42_audio_header.md R160, R150): the body starts here, `WRAP` is zero. -/
def headerAccept (u : Acu) : Acu :=
  { u with dataStart := u.bitpos, wrap := Memory.zeros 0 (wraplen u), status := .ready }

/-- The checks on the header registers once written, in the order of R161, and the set-up. -/
def headerCheck (version : BitVec 8) (u : Acu) : Acu :=
  let channels := effectiveChannels u.chForce u.chStored
  if version ≠ 1 then auRaise .badVersion u
  else if channels ≠ 1 ∧ channels ≠ 2 then auRaise .badChannels u
  else
    let u := { u with channels := channels.setWidth 2 }
    if u.rate.toNat < 4096 then auRaise .lowRate u
    else if u.rows = 0 then auRaise .zeroBlock u
    else headerAccept u

/-- AU.HDR (42_audio_header.md R153 to R160): the header registers are written, then checked. -/
def execAuHdr (version : BitVec 8) (samples : BitVec 32) (channels rate : BitVec 16) (level : BitVec 4)
    (rows : BitVec 12) (s : State) : Host.Outcome State Fault Refusal :=
  .next (s.withAu (headerCheck version
    { s.au with samples := samples, chStored := channels, rate := rate, level := level, rows := rows }))

/-- AU.HDR.WRAPPER (R152): AU_WRAPPER_UNIMPLEMENTED; nothing further is read. -/
def execAuHdrWrapper (s : State) : Host.Outcome State Fault Refusal :=
  .next (s.withAu (auRaise .wrapperUnimplemented s.au))

/-- AU.BLK (43_audio_block_decode.md R171): the exponent and the scale are latched, the first column is next, and no
cell of `BLOCK` holds a value (10_state.md R25). -/
def execAuBlk (pwr : BitVec 4) (scale : BitVec 16) (s : State) : Host.Outcome State Fault Refusal :=
  .next (s.withAu { dropBlock s.au with pwr := pwr, scale := scale, col := 0, phase := .selector })

end Sys2Proof.Machine
end

