-- ==== Sys2Proof/Machine/CodeWords.lean ====
section
/-! DEFINITION. The meanings of the code words (43_audio_block_decode.md R178 to R191): the raw samples each stands
for, written to the slots the subband has left. -/

namespace Sys2Proof.Machine

/-- AU.LINEAR.V: one sample v - 2^(w-1) (R178). -/
def execAuLinearV (w : BitVec 5) (v : BitVec 32) (s : State) : Host.Outcome State Fault Refusal := emitRaws [linearRaw w v] s

/-- AU.K13.Z2: two zeros (one if only one slot is left) (R179). -/
def execAuK13Z2 (s : State) : Host.Outcome State Fault Refusal := emitRaws [0, 0] s

/-- AU.K13.Z1: one zero (R179). -/
def execAuK13Z1 (s : State) : Host.Outcome State Fault Refusal := emitRaws [0] s

/-- AU.K13.V: one sample MAP1[v] (R179). -/
def execAuK13V (v : BitVec 1) (s : State) : Host.Outcome State Fault Refusal := emitRaws [map1Raw s.cfg v] s

/-- AU.K24.Z2: two zeros (one if only one slot is left) (R181). -/
def execAuK24Z2 (s : State) : Host.Outcome State Fault Refusal := emitRaws [0, 0] s

/-- AU.K24.Z1: one zero (R181). -/
def execAuK24Z1 (s : State) : Host.Outcome State Fault Refusal := emitRaws [0] s

/-- AU.K24.V: one sample MAP2N[v] (R181). -/
def execAuK24V (v : BitVec 2) (s : State) : Host.Outcome State Fault Refusal := emitRaws [map2nRaw s.cfg v] s

/-- AU.K45.Z2: two zeros (one if only one slot is left) (R186). -/
def execAuK45Z2 (s : State) : Host.Outcome State Fault Refusal := emitRaws [0, 0] s

/-- AU.K45.Z1: one zero (R186). -/
def execAuK45Z1 (s : State) : Host.Outcome State Fault Refusal := emitRaws [0] s

/-- AU.K45.V: one sample MAP3[v] (R186). -/
def execAuK45V (v : BitVec 3) (s : State) : Host.Outcome State Fault Refusal := emitRaws [map3Raw s.cfg v] s

/-- AU.K12.Z1: one zero (R180). -/
def execAuK12Z1 (s : State) : Host.Outcome State Fault Refusal := emitRaws [0] s

/-- AU.K12.V: one sample MAP1[v] (R180). -/
def execAuK12V (v : BitVec 1) (s : State) : Host.Outcome State Fault Refusal := emitRaws [map1Raw s.cfg v] s

/-- AU.K23.Z1: one zero (R182). -/
def execAuK23Z1 (s : State) : Host.Outcome State Fault Refusal := emitRaws [0] s

/-- AU.K23.V: one sample MAP2N[v] (R182). -/
def execAuK23V (v : BitVec 2) (s : State) : Host.Outcome State Fault Refusal := emitRaws [map2nRaw s.cfg v] s

/-- AU.K44.Z1: one zero (R187). -/
def execAuK44Z1 (s : State) : Host.Outcome State Fault Refusal := emitRaws [0] s

/-- AU.K44.V: one sample MAP3[v] (R187). -/
def execAuK44V (v : BitVec 3) (s : State) : Host.Outcome State Fault Refusal := emitRaws [map3Raw s.cfg v] s

/-- AU.K35.Z2: two zeros (one if only one slot is left) (R184). -/
def execAuK35Z2 (s : State) : Host.Outcome State Fault Refusal := emitRaws [0, 0] s

/-- AU.K35.Z1: one zero (R184). -/
def execAuK35Z1 (s : State) : Host.Outcome State Fault Refusal := emitRaws [0] s

/-- AU.K35.V1: one sample MAP1[v] (R184). -/
def execAuK35V1 (v : BitVec 1) (s : State) : Host.Outcome State Fault Refusal := emitRaws [map1Raw s.cfg v] s

/-- AU.K35.V2: one sample MAP2F[v] (R184). -/
def execAuK35V2 (v : BitVec 2) (s : State) : Host.Outcome State Fault Refusal := emitRaws [map2fRaw s.cfg v] s

/-- AU.K34.Z1: one zero (R185). -/
def execAuK34Z1 (s : State) : Host.Outcome State Fault Refusal := emitRaws [0] s

/-- AU.K34.V1: one sample MAP1[v] (R185). -/
def execAuK34V1 (v : BitVec 1) (s : State) : Host.Outcome State Fault Refusal := emitRaws [map1Raw s.cfg v] s

/-- AU.K34.V2: one sample MAP2F[v] (R185). -/
def execAuK34V2 (v : BitVec 2) (s : State) : Host.Outcome State Fault Refusal := emitRaws [map2fRaw s.cfg v] s

/-- AU.T15.IDX: up to 3 samples, nibble k of TAB3x3[v] less the table's bias, 1 by default (R188). -/
def execAuT15Idx (v : BitVec 5) (s : State) : Host.Outcome State Fault Refusal := emitTable (t15Raws s.cfg v) s

/-- AU.T27.IDX: up to 3 samples, nibble k of TAB3x5[v] less the table's bias, 2 by default (R189). -/
def execAuT27Idx (v : BitVec 7) (s : State) : Host.Outcome State Fault Refusal := emitTable (t27Raws s.cfg v) s

/-- AU.T37.IDX: up to 2 samples, nibble k of TAB2x11[v] less the table's bias, 5 by default (R191). -/
def execAuT37Idx (v : BitVec 7) (s : State) : Host.Outcome State Fault Refusal := emitTable (t37Raws s.cfg v) s

end Sys2Proof.Machine
end

