-- ==== Sys2Proof/Machine/Commands.lean ====
section
/-! DEFINITION. The meanings of the host commands: 41_lzss.md R120, R135; 42_audio_header.md R150;
43_audio_block_decode.md R170; 44_audio_merge_output.md R222 to R228; legality 60_exceptions.md R247. A command while
the unit is `BUSY` is outside the spec (U2): it is refused (notes/assumptions/18.md), and `step` never gives one. -/

namespace Sys2Proof.Machine

/-- LZU at the start of a run (41_lzss.md R120). -/
def lzBegin (u : Lzu) : Lzu :=
  { lzClearFault u with ip := 0, op := 0, phase := .top, flags := 0, rawLeft := 0, status := .busy }

/-- LZ_START (R120): legal in IDLE, DONE and FAULT. -/
def execLzStart (s : State) : Host.Outcome State Fault Refusal :=
  if s.lz.status = .busy then .refused .commandWhileBusy else .next (s.withLz (lzBegin s.lz))

/-- LZ_RESET (R135): legal in IDLE, DONE and FAULT. -/
def execLzReset (s : State) : Host.Outcome State Fault Refusal :=
  if s.lz.status = .busy then .refused .commandWhileBusy else .next (s.withLz (lzResetUnit s.lz))

/-- ACU at the start of the header parse (42_audio_header.md R150). `WRAP` and `BLOCK` hold no value until the parse
succeeds (R150, 10_state.md R25). -/
def auBegin (u : Acu) : Acu :=
  { dropBlock (auClearFault u) with
    lastN := 0
    status := .busy
    bitpos := 0
    emitted := 0
    col := 0
    phase := .header
    wrap := []
    changedAt := none }

/-- AU_INIT (R150): legal in any status but BUSY, with `AU_CH_FORCE` not 3 (60_exceptions.md R247). -/
def execAuInit (s : State) : Host.Outcome State Fault Refusal :=
  if s.au.status = .busy then .refused .commandWhileBusy
  else if s.au.chForce = 3 then .next (s.withAu (auRaise .usage s.au))
  else .next (s.withAu (auBegin s.au))

/-- AU_NEXT (43_audio_block_decode.md R170): after the end it tells the end again (44_audio_merge_output.md R223); with
all samples delivered it ends the pass (R222); else a block begins. `AU_LAST_N` is 0 from there on until the output writes it,
so that a block that faults leaves 0: 10_state.md R20, DEDUCED, notes/assumptions/31.md. A block after a change of `IN` since
AU_INIT reads `IN` as it stands: DESIGN CHOICE, notes/assumptions/19.md. -/
def execAuNext (s : State) : Host.Outcome State Fault Refusal :=
  match s.au.status with
  | .busy => .refused .commandWhileBusy
  | .idle => .next (s.withAu (auRaise .usage s.au))
  | .fault => .next (s.withAu (auRaise .usage s.au))
  | .endComplete => .next (s.withAu { s.au with lastN := 0 })
  | .endTruncated => .next (s.withAu { s.au with lastN := 0 })
  | .ready =>
    if s.au.emitted = s.au.samples then .next (s.withAu { s.au with lastN := 0, status := .endComplete })
    else .next (s.withAu { s.au with status := .busy, lastN := 0, phase := .block })

/-- AU_RESTART (44_audio_merge_output.md R224): a new pass; `WRAP` is kept. The cursor leaves the byte it stood in, so
that no leftover remains. After a change of `IN` since AU_INIT the command, which the spec leaves outside itself
(20_memory.md R66; 70_reset_and_hazards.md R283; 93_implementation_defined.md U3), does the same: DESIGN CHOICE,
notes/assumptions/19.md. -/
def execAuRestart (s : State) : Host.Outcome State Fault Refusal :=
  if s.au.status = .busy then .refused .commandWhileBusy
  else if s.au.status.hasStream then
    .next (s.withAu { s.au with
      bitpos := s.au.dataStart, emitted := 0, col := 0, lastN := 0, status := .ready, changedAt := none })
  else .next (s.withAu (auRaise .usage s.au))

/-- AU_CLEAR_WRAP (R225): every cell of `WRAP` is 0. -/
def execAuClearWrap (s : State) : Host.Outcome State Fault Refusal :=
  if s.au.status = .busy then .refused .commandWhileBusy
  else if s.au.status.hasStream then .next (s.withAu { s.au with wrap := Memory.zeros 0 (wraplen s.au) })
  else .next (s.withAu (auRaise .usage s.au))

/-- AU_RESET (R228): legal in any status but BUSY. -/
def execAuReset (s : State) : Host.Outcome State Fault Refusal :=
  if s.au.status = .busy then .refused .commandWhileBusy else .next (s.withAu (auResetUnit s.au))

end Sys2Proof.Machine
end

