-- ==== Sys2Proof/Machine/Lzss.lean ====
section
/-! DEFINITION. The meanings of the LZSS tokens (41_lzss.md R123 to R129). The bytes of the token have been fetched by
the step (Machine/Fetch.lean), which also makes the tests between tokens (R122, R126, R127). -/

namespace Sys2Proof.Machine

/-- LZ.RAW (41_lzss.md R123, R124): the block's length, trimmed to what remains of the input; its bytes are LZ.DATA
tokens (notes/assumptions/8.md). -/
def execLzRaw (w : BitVec 16) (s : State) : Host.Outcome State Fault Refusal :=
  let n := (rawMagnitude w).toNat
  let left := s.lz.inLen - s.lz.ip
  .next (s.withLz { s.lz with
    blkLen := rawMagnitude w
    flags := if left < n then setTrim s.lz.flags else s.lz.flags
    rawLeft := min n left
    phase := .top })

/-- LZ.CODED (R123, R125): the block's length, and the dictionary reset. -/
def execLzCoded (w : BitVec 16) (s : State) : Host.Outcome State Fault Refusal :=
  .next (s.withLz (lzOpenCoded s.cfg { s.lz with blkLen := w }))

/-- LZ.ZEROPFX (R123): LZ_ZERO_PREFIX, or back to TOP under `LZ_ZERO_PREFIX = skip`. -/
def execLzZeroPfx (s : State) : Host.Outcome State Fault Refusal :=
  match s.cfg.zeroPrefix with
  | .fault => .next (s.withLz (lzRaise .zeroPrefix s.lz))
  | .skip => .next (s.withLz { s.lz with phase := .top })

/-- LZ.DATA (R124): one byte of a raw block to `OUT`; `RING` is not touched. -/
def execLzData (d : Byte) (s : State) : Host.Outcome State Fault Refusal :=
  .next (s.withLz (settle ((lzEmit d s.lz).map fun u => { u with rawLeft := u.rawLeft - 1 })))

/-- LZ.CTL (R126): the control byte is latched and the group begins at item 0. -/
def execLzCtl (c : Byte) (s : State) : Host.Outcome State Fault Refusal :=
  .next (s.withLz { s.lz with ctl := c, ctlK := 0, phase := .item })

/-- LZ.LIT (R128): to `OUT`, then into the dictionary. -/
def execLzLit (d : Byte) (s : State) : Host.Outcome State Fault Refusal :=
  .next (s.withLz (settle ((lzEmit d s.lz).map (lzPush d))))

/-- LZ.REF (R129): `lenM3 + 3` bytes copied from `RING`. -/
def execLzRef (off : BitVec 12) (lenM3 : BitVec 4) (s : State) : Host.Outcome State Fault Refusal :=
  .next (s.withLz (settle (lzCopy (lenM3.toNat + 3) off s.lz)))

end Sys2Proof.Machine
end

