-- ==== Sys2Proof/Machine/Selectors.lean ====
section
/-! DEFINITION. The meanings of the 32 selectors (43_audio_block_decode.md R172, R175 to R178, R192): each latches its
number and begins the decoder that SELMAP gives it (R176). -/

namespace Sys2Proof.Machine

/-- AU.SEL0.ZERO (R177). -/
def execAuSel0Zero (s : State) : Host.Outcome State Fault Refusal := beginSubband 0 s

/-- AU.SEL1.BAD (R192). -/
def execAuSel1Bad (s : State) : Host.Outcome State Fault Refusal := beginSubband 1 s

/-- AU.SEL2.BAD (R192). -/
def execAuSel2Bad (s : State) : Host.Outcome State Fault Refusal := beginSubband 2 s

/-- AU.SEL3.LINEAR (R178). -/
def execAuSel3Linear (s : State) : Host.Outcome State Fault Refusal := beginSubband 3 s

/-- AU.SEL4.LINEAR (R178). -/
def execAuSel4Linear (s : State) : Host.Outcome State Fault Refusal := beginSubband 4 s

/-- AU.SEL5.LINEAR (R178). -/
def execAuSel5Linear (s : State) : Host.Outcome State Fault Refusal := beginSubband 5 s

/-- AU.SEL6.LINEAR (R178). -/
def execAuSel6Linear (s : State) : Host.Outcome State Fault Refusal := beginSubband 6 s

/-- AU.SEL7.LINEAR (R178). -/
def execAuSel7Linear (s : State) : Host.Outcome State Fault Refusal := beginSubband 7 s

/-- AU.SEL8.LINEAR (R178). -/
def execAuSel8Linear (s : State) : Host.Outcome State Fault Refusal := beginSubband 8 s

/-- AU.SEL9.LINEAR (R178). -/
def execAuSel9Linear (s : State) : Host.Outcome State Fault Refusal := beginSubband 9 s

/-- AU.SEL10.LINEAR (R178). -/
def execAuSel10Linear (s : State) : Host.Outcome State Fault Refusal := beginSubband 10 s

/-- AU.SEL11.LINEAR (R178). -/
def execAuSel11Linear (s : State) : Host.Outcome State Fault Refusal := beginSubband 11 s

/-- AU.SEL12.LINEAR (R178). -/
def execAuSel12Linear (s : State) : Host.Outcome State Fault Refusal := beginSubband 12 s

/-- AU.SEL13.LINEAR (R178). -/
def execAuSel13Linear (s : State) : Host.Outcome State Fault Refusal := beginSubband 13 s

/-- AU.SEL14.LINEAR (R178). -/
def execAuSel14Linear (s : State) : Host.Outcome State Fault Refusal := beginSubband 14 s

/-- AU.SEL15.LINEAR (R178). -/
def execAuSel15Linear (s : State) : Host.Outcome State Fault Refusal := beginSubband 15 s

/-- AU.SEL16.LINEAR (R178). -/
def execAuSel16Linear (s : State) : Host.Outcome State Fault Refusal := beginSubband 16 s

/-- AU.SEL17.K13 (R179). -/
def execAuSel17K13 (s : State) : Host.Outcome State Fault Refusal := beginSubband 17 s

/-- AU.SEL18.K12 (R180). -/
def execAuSel18K12 (s : State) : Host.Outcome State Fault Refusal := beginSubband 18 s

/-- AU.SEL19.T15 (R188). -/
def execAuSel19T15 (s : State) : Host.Outcome State Fault Refusal := beginSubband 19 s

/-- AU.SEL20.K24 (R181). -/
def execAuSel20K24 (s : State) : Host.Outcome State Fault Refusal := beginSubband 20 s

/-- AU.SEL21.K23 (R182). -/
def execAuSel21K23 (s : State) : Host.Outcome State Fault Refusal := beginSubband 21 s

/-- AU.SEL22.T27 (R189). -/
def execAuSel22T27 (s : State) : Host.Outcome State Fault Refusal := beginSubband 22 s

/-- AU.SEL23.K35 (R184). -/
def execAuSel23K35 (s : State) : Host.Outcome State Fault Refusal := beginSubband 23 s

/-- AU.SEL24.K34 (R185). -/
def execAuSel24K34 (s : State) : Host.Outcome State Fault Refusal := beginSubband 24 s

/-- AU.SEL25.K45 (R186). -/
def execAuSel25K45 (s : State) : Host.Outcome State Fault Refusal := beginSubband 25 s

/-- AU.SEL26.K44 (R187). -/
def execAuSel26K44 (s : State) : Host.Outcome State Fault Refusal := beginSubband 26 s

/-- AU.SEL27.T37 (R191). -/
def execAuSel27T37 (s : State) : Host.Outcome State Fault Refusal := beginSubband 27 s

/-- AU.SEL28.BAD (R192). -/
def execAuSel28Bad (s : State) : Host.Outcome State Fault Refusal := beginSubband 28 s

/-- AU.SEL29.BAD (R192). -/
def execAuSel29Bad (s : State) : Host.Outcome State Fault Refusal := beginSubband 29 s

/-- AU.SEL30.BAD (R192). -/
def execAuSel30Bad (s : State) : Host.Outcome State Fault Refusal := beginSubband 30 s

/-- AU.SEL31.BAD (R192). -/
def execAuSel31Bad (s : State) : Host.Outcome State Fault Refusal := beginSubband 31 s

end Sys2Proof.Machine
end

