-- ==== Sys2Proof/Machine/Dispatch.lean ====
section
/-! DEFINITION. Every instruction and its meaning. -/

namespace Sys2Proof.Machine

def exec (i : Instr) (s : State) : Host.Outcome State Fault Refusal :=
  match i with
  | .lzRaw w => Sys2Proof.Machine.execLzRaw w s
  | .lzCoded w => Sys2Proof.Machine.execLzCoded w s
  | .lzZeroPfx => Sys2Proof.Machine.execLzZeroPfx s
  | .lzData d => Sys2Proof.Machine.execLzData d s
  | .lzCtl c => Sys2Proof.Machine.execLzCtl c s
  | .lzLit d => Sys2Proof.Machine.execLzLit d s
  | .lzRef off lenM3 => Sys2Proof.Machine.execLzRef off lenM3 s
  | .auHdr version samples channels rate level rows => Sys2Proof.Machine.execAuHdr version samples channels rate level rows s
  | .auHdrWrapper => Sys2Proof.Machine.execAuHdrWrapper s
  | .auBlk pwr scale => Sys2Proof.Machine.execAuBlk pwr scale s
  | .auSel0Zero => Sys2Proof.Machine.execAuSel0Zero s
  | .auSel1Bad => Sys2Proof.Machine.execAuSel1Bad s
  | .auSel2Bad => Sys2Proof.Machine.execAuSel2Bad s
  | .auSel3Linear => Sys2Proof.Machine.execAuSel3Linear s
  | .auSel4Linear => Sys2Proof.Machine.execAuSel4Linear s
  | .auSel5Linear => Sys2Proof.Machine.execAuSel5Linear s
  | .auSel6Linear => Sys2Proof.Machine.execAuSel6Linear s
  | .auSel7Linear => Sys2Proof.Machine.execAuSel7Linear s
  | .auSel8Linear => Sys2Proof.Machine.execAuSel8Linear s
  | .auSel9Linear => Sys2Proof.Machine.execAuSel9Linear s
  | .auSel10Linear => Sys2Proof.Machine.execAuSel10Linear s
  | .auSel11Linear => Sys2Proof.Machine.execAuSel11Linear s
  | .auSel12Linear => Sys2Proof.Machine.execAuSel12Linear s
  | .auSel13Linear => Sys2Proof.Machine.execAuSel13Linear s
  | .auSel14Linear => Sys2Proof.Machine.execAuSel14Linear s
  | .auSel15Linear => Sys2Proof.Machine.execAuSel15Linear s
  | .auSel16Linear => Sys2Proof.Machine.execAuSel16Linear s
  | .auSel17K13 => Sys2Proof.Machine.execAuSel17K13 s
  | .auSel18K12 => Sys2Proof.Machine.execAuSel18K12 s
  | .auSel19T15 => Sys2Proof.Machine.execAuSel19T15 s
  | .auSel20K24 => Sys2Proof.Machine.execAuSel20K24 s
  | .auSel21K23 => Sys2Proof.Machine.execAuSel21K23 s
  | .auSel22T27 => Sys2Proof.Machine.execAuSel22T27 s
  | .auSel23K35 => Sys2Proof.Machine.execAuSel23K35 s
  | .auSel24K34 => Sys2Proof.Machine.execAuSel24K34 s
  | .auSel25K45 => Sys2Proof.Machine.execAuSel25K45 s
  | .auSel26K44 => Sys2Proof.Machine.execAuSel26K44 s
  | .auSel27T37 => Sys2Proof.Machine.execAuSel27T37 s
  | .auSel28Bad => Sys2Proof.Machine.execAuSel28Bad s
  | .auSel29Bad => Sys2Proof.Machine.execAuSel29Bad s
  | .auSel30Bad => Sys2Proof.Machine.execAuSel30Bad s
  | .auSel31Bad => Sys2Proof.Machine.execAuSel31Bad s
  | .auLinearV w v => Sys2Proof.Machine.execAuLinearV w v s
  | .auK13Z2 => Sys2Proof.Machine.execAuK13Z2 s
  | .auK13Z1 => Sys2Proof.Machine.execAuK13Z1 s
  | .auK13V v => Sys2Proof.Machine.execAuK13V v s
  | .auK24Z2 => Sys2Proof.Machine.execAuK24Z2 s
  | .auK24Z1 => Sys2Proof.Machine.execAuK24Z1 s
  | .auK24V v => Sys2Proof.Machine.execAuK24V v s
  | .auK45Z2 => Sys2Proof.Machine.execAuK45Z2 s
  | .auK45Z1 => Sys2Proof.Machine.execAuK45Z1 s
  | .auK45V v => Sys2Proof.Machine.execAuK45V v s
  | .auK12Z1 => Sys2Proof.Machine.execAuK12Z1 s
  | .auK12V v => Sys2Proof.Machine.execAuK12V v s
  | .auK23Z1 => Sys2Proof.Machine.execAuK23Z1 s
  | .auK23V v => Sys2Proof.Machine.execAuK23V v s
  | .auK44Z1 => Sys2Proof.Machine.execAuK44Z1 s
  | .auK44V v => Sys2Proof.Machine.execAuK44V v s
  | .auK35Z2 => Sys2Proof.Machine.execAuK35Z2 s
  | .auK35Z1 => Sys2Proof.Machine.execAuK35Z1 s
  | .auK35V1 v => Sys2Proof.Machine.execAuK35V1 v s
  | .auK35V2 v => Sys2Proof.Machine.execAuK35V2 v s
  | .auK34Z1 => Sys2Proof.Machine.execAuK34Z1 s
  | .auK34V1 v => Sys2Proof.Machine.execAuK34V1 v s
  | .auK34V2 v => Sys2Proof.Machine.execAuK34V2 v s
  | .auT15Idx v => Sys2Proof.Machine.execAuT15Idx v s
  | .auT27Idx v => Sys2Proof.Machine.execAuT27Idx v s
  | .auT37Idx v => Sys2Proof.Machine.execAuT37Idx v s
  | .lzStart => Sys2Proof.Machine.execLzStart s
  | .lzReset => Sys2Proof.Machine.execLzReset s
  | .auInit => Sys2Proof.Machine.execAuInit s
  | .auNext => Sys2Proof.Machine.execAuNext s
  | .auRestart => Sys2Proof.Machine.execAuRestart s
  | .auClearWrap => Sys2Proof.Machine.execAuClearWrap s
  | .auReset => Sys2Proof.Machine.execAuReset s

end Sys2Proof.Machine
end

