-- ==== Sys2Proof/Machine/Merge.lean ====
section
/-! DEFINITION. The wrap-merge transform (44_audio_merge_output.md R210 to R215), the output step (R220, R221) and the
WAVE file (R227). -/

namespace Sys2Proof.Machine

/-- One group of one pass (R211): `n` butterflies on the pairs of cells from `p` up with stride `stride`, `r0` and
`r1` the last two source values. Answers `BLOCK` and the last two source values. -/
def butterflies (ctr stride : Nat) : Nat → Nat → Cell32 → Cell32 → Memory 32 → Memory 32 × Cell32 × Cell32
  | 0, _, r0, r1, block => (block, r0, r1)
  | n + 1, p, r0, r1, block =>
    let a := blockCell ctr block p
    let block1 := Memory.put block p (wrap32 (2 * r1.toInt + (r0.toInt + a.toInt)))
    let b := blockCell ctr block1 (p + stride)
    let block2 := Memory.put block1 (p + stride) (wrap32 (2 * a.toInt - (r1.toInt + b.toInt)))
    butterflies ctr stride n (p + 2 * stride) a b block2

/-- One group with its two cells of `WRAP` (R211). -/
def juggleGroup (ctr wb bb subLen subCount i : Nat) (m : Memory 32 × Memory 32) : Memory 32 × Memory 32 :=
  let r := butterflies ctr subLen (subCount / 2) (bb + i)
    (wrapCell ctr m.2 (wb + 2 * i)) (wrapCell ctr m.2 (wb + 2 * i + 1)) m.1
  (r.1, Memory.put (Memory.put m.2 (wb + 2 * i) r.2.1) (wb + 2 * i + 1) r.2.2)

/-- The groups `i .. i + n - 1` in rising order. -/
def juggleFrom (ctr wb bb subLen subCount : Nat) : Nat → Nat → Memory 32 × Memory 32 → Memory 32 × Memory 32
  | 0, _, m => m
  | n + 1, i, m => juggleFrom ctr wb bb subLen subCount n (i + 1) (juggleGroup ctr wb bb subLen subCount i m)

/-- `Juggle(wb, bb, sub_len, sub_count)` on `BLOCK` and `WRAP` (R211). -/
def juggle (ctr wb bb subLen subCount : Nat) (m : Memory 32 × Memory 32) : Memory 32 × Memory 32 :=
  juggleFrom ctr wb bb subLen subCount subLen 0 m

/-- The plus-one step (R213) on the cells `a`, `a + stride`, ..., `n` of them. -/
def plusOne (ctr stride : Nat) : Nat → Nat → Memory 32 → Memory 32
  | 0, _, block => block
  | n + 1, a, block =>
    plusOne ctr stride n (a + stride) (Memory.put block a (wrap32 ((blockCell ctr block a).toInt + 1)))

/-- The passes after the first (R212): `k` halvings of `sub_len = 2^k`, `sub_count` doubling. -/
def laterPasses (ctr bb : Nat) : Nat → Nat → Nat → Memory 32 × Memory 32 → Memory 32 × Memory 32
  | 0, _, _, m => m
  | k + 1, wb, subCount, m =>
    laterPasses ctr bb k (wb + 2 * 2 ^ k) (2 * subCount) (juggle ctr wb bb (2 ^ k) (2 * subCount) m)

/-- All passes of one chunk of `cnt` rows at address `bb`, at level `k + 1` (R212). -/
def mergeChunk (ctr : Nat) (onePlus : Bool) (k bb cnt : Nat) (m : Memory 32 × Memory 32) : Memory 32 × Memory 32 :=
  let m1 := juggle ctr 0 bb (2 ^ k) (2 * cnt) m
  let m2 := if onePlus then (plusOne ctr (2 ^ k) (2 * cnt) bb m1.1, m1.2) else m1
  laterPasses ctr bb k (2 * 2 ^ k) (2 * cnt) m2

/-- The chunks of a block (R212): at most `fuel` of them, `todo` rows from address `bb` up. -/
def mergeChunks (ctr : Nat) (onePlus : Bool) (k chunk width : Nat) :
    Nat → Nat → Nat → Memory 32 × Memory 32 → Memory 32 × Memory 32
  | 0, _, _, m => m
  | fuel + 1, todo, bb, m =>
    let m' := mergeChunk ctr onePlus k bb (min chunk todo) m
    if todo ≤ chunk then m' else mergeChunks ctr onePlus k chunk width fuel (todo - chunk) (bb + chunk * width) m'

/-- `WrapMerge` (R210, R212): skipped entirely at level 0. A chunk has at least one row, so `rows` chunks suffice. -/
def wrapMerge (c : Config) (u : Acu) : Acu :=
  match u.level.toNat with
  | 0 => u
  | k + 1 =>
    let m := mergeChunks u.freeCtr c.mergePlusOne k (chunkRows u) (cols u) (rowCount u) (rowCount u) 0 (u.block, u.wrap)
    { u with block := m.1, wrap := m.2 }

/-- The sample of a cell of the merged block (R220): shifted right by the level, narrowed. -/
def sampleOf (c : Config) (u : Acu) (j : Nat) : Sample :=
  narrow16 c.narrow (shiftRight (blockCell u.freeCtr u.block j) u.level.toNat)

/-- The samples `j .. j + n - 1` of the block to `PCM` from address `base` up (R220). -/
def deliver (c : Config) (u : Acu) (base : Nat) : Nat → Nat → Memory 16 → Memory 16
  | 0, _, pcm => pcm
  | n + 1, j, pcm => deliver c u base n (j + 1) (Memory.put pcm (base + j) (sampleOf c u j))

/-- How many samples the block delivers (R221). -/
def deliverCount (u : Acu) : Nat := min (blocklen u) (u.samples.toNat - u.emitted.toNat)

/-- The output step (R220), with which AU_NEXT ends (43_audio_block_decode.md R170). -/
def outputStep (c : Config) (u : Acu) : Acu :=
  { u with
    pcm := deliver c u u.emitted.toNat (deliverCount u) 0 u.pcm
    emitted := u.emitted + BitVec.ofNat 32 (deliverCount u)
    lastN := BitVec.ofNat 28 (deliverCount u)
    status := .ready }

/-! ## The WAVE file -/

/-- The four bytes of a 32-bit number, low byte first. -/
def le32 (v : Nat) : List Byte := lowBytes 4 v

/-- The two bytes of a 16-bit number, low byte first. -/
def le16 (v : Nat) : List Byte := lowBytes 2 v

/-- `WaveHeader` (44_audio_merge_output.md R227): a pure function of the header registers. PRESUMED layout (GK14):
notes/assumptions/27.md. -/
def waveHeader (u : Acu) : List Byte :=
  let d := 2 * u.samples.toNat
  let c := u.channels.toNat
  let r := u.rate.toNat
  [0x52, 0x49, 0x46, 0x46] ++ le32 (36 + d) ++ [0x57, 0x41, 0x56, 0x45] ++ [0x66, 0x6D, 0x74, 0x20] ++
  le32 16 ++ le16 1 ++ le16 c ++ le32 r ++ le32 (r * c * 2) ++ le16 (c * 2) ++ le16 16 ++
  [0x64, 0x61, 0x74, 0x61] ++ le32 d

/-- The samples that follow the header (R227): the first `n` cells of `PCM` in address order, each as two bytes, low byte
first. PRESUMED byte order (GK14): notes/assumptions/27.md. -/
def waveSamples (u : Acu) (n : Nat) : List Byte := (List.range n).flatMap fun j => le16 (pcmCell u.pcm j).toNat

/-- The header and the samples it announces (R227): the cells of `PCM` are `h.samples` (20_memory.md R55).
notes/assumptions/27.md. -/
def waveFile (u : Acu) : List Byte := waveHeader u ++ waveSamples u u.samples.toNat

end Sys2Proof.Machine
end

