-- ==== Sys2Proof/Machine/Fetch.lean ====
section
/-! DEFINITION. What one step does before (or without) an instruction: the host's acts, the tests between tokens, and
the fetch of the next token of the unit that is BUSY (00_scope.md R8; 41_lzss.md R122, R126, R127;
43_audio_block_decode.md R170, R193). Step.lean only calls it. -/

namespace Sys2Proof.Machine

/-- What the fetch finds: a token, with its unit's cursor past it; a step that has no token, done; or nothing that can be
decoded. -/
inductive Fetched where
  | run (i : Instr) (s : State)
  | done (s : State)
  | stop (f : Fault)
deriving DecidableEq, Repr

/-! ## LZU -/

/-- The fetch of a token of `n` bytes (41_lzss.md R121): a fetch that raises ends the step. -/
def lzToken (x : LzCtx) (coded : Bool) (n : Nat) (s : State) (u : Lzu) : Fetched :=
  match lzFetchMany coded n u with
  | .error u' => .done (s.withLz u')
  | .ok (bytes, u') =>
    match decodeLz s.cfg x bytes with
    | .ok i _ => .run i (s.withLz u')
    | .short _ => .stop .undecodable
    | .reject _ _ => .stop .undecodable

/-- TOP (41_lzss.md R122): the rest of a raw block (R124), the end of the stream (R132), or a PREFIX. -/
def lzTop (s : State) : Fetched :=
  let u := s.lz
  if u.rawLeft ≠ 0 then lzToken .rawData false 1 s u
  else if u.op = u.outLen then .done (s.withLz { u with status := .done })
  else if u.inLen - u.ip < 2 then .done (s.withLz (lzRaise .inputExhausted u))
  else lzToken .blockPrefix false 2 s u

/-- GROUP (R126): the end of the block (R131), or a control byte. -/
def lzGroup (s : State) : Fetched :=
  let u := s.lz
  if u.blkUsed = u.blkLen then .done (s.withLz { u with phase := .top })
  else lzToken .control true 1 s u

/-- ITEM (R127): the end of the block (R131), the end of the group, or one item of the kind its control bit says. -/
def lzItem (s : State) : Fetched :=
  let u := s.lz
  if u.blkUsed = u.blkLen then .done (s.withLz { u with phase := .top })
  else if u.ctlK = 8 then .done (s.withLz { u with phase := .group })
  else
    let u' := { u with ctlK := u.ctlK + 1 }
    if controlBit s.cfg.flagOrder u.ctl u.ctlK then lzToken (.item true) true 1 s u'
    else lzToken (.item false) true 2 s u'

/-- The step of LZU that `lz.phase` selects (R120). -/
def lzNext (s : State) : Fetched :=
  match s.lz.phase with
  | .top => lzTop s
  | .group => lzGroup s
  | .item => lzItem s

/-! ## ACU -/

/-- The header parse (42_audio_header.md R151 to R153): a token, AU_HEADER_TRUNCATED at the read that failed, or
AU_BAD_MAGIC past the magic. -/
def auHeader (s : State) : Fetched :=
  match decodeAu s.cfg .header (bitsAhead s.cfg.bitOrder s.au) with
  | .ok i used => .run i (s.withAu (advance used s.au))
  | .short used => .done (s.withAu (auRaise .headerTruncated (advance used s.au)))
  | .reject _ used => .done (s.withAu (auRaise .badMagic (advance used s.au)))

/-- A token of the body (43_audio_block_decode.md R171, R172): where the input ends inside it, R193. -/
def auBody (x : AuCtx) (s : State) : Fetched :=
  match decodeAu s.cfg x (bitsAhead s.cfg.bitOrder s.au) with
  | .ok i used => .run i (s.withAu (advance used s.au))
  | .short used => .done (s.withAu (endTruncated (advance used s.au)))
  | .reject _ _ => .stop .undecodable

/-- The step of ACU that its place in the grammar selects (R170). -/
def auNext (s : State) : Fetched :=
  match s.au.phase with
  | .header => auHeader s
  | .block => auBody .block s
  | .selector => auBody .selector s
  | .code => auBody (.code (decoderOf s.cfg s.au.sel) s.au.sel) s
  | .merge => .done (s.withAu { wrapMerge s.cfg s.au with phase := .output })
  | .output => .done (s.withAu (outputStep s.cfg s.au))

/-! ## The host -/

/-- A command code written to a unit's command register (30_encoding.md R104); an illegal code raises the unit's usage
fault (60_exceptions.md R247). -/
def hostCommand (unit : UnitId) (code : Byte) (s : State) : Fetched :=
  match decodeCommand unit code with
  | .ok i _ => .run i s
  | .short _ => .stop .undecodable
  | .reject _ _ =>
    match unit with
    | .lzu => .done (s.withLz (lzRaise .usage s.lz))
    | .acu => .done (s.withAu (auRaise .usage s.au))

/-- One act of the host (10_state.md R11, R20; 70_reset_and_hazards.md R273, R274), taken while no unit is BUSY. -/
def hostAct (a : HostAct) (s : State) : Fetched :=
  match a with
  | .lzCommand code => hostCommand .lzu code s
  | .auCommand code => hostCommand .acu code s
  | .writeLzInLen v => .done (s.withLz { s.lz with inLen := s.cfg.fit v })
  | .writeLzOutLen v => .done (s.withLz { s.lz with outLen := s.cfg.fit v })
  | .writeAuInLen v => .done (s.withAu { s.au with inLen := s.cfg.fit v })
  | .writeAuChForce v => .done (s.withAu { s.au with chForce := v })
  | .placeLzIn a b => .done (s.withLz { s.lz with inp := Memory.put s.lz.inp (s.cfg.fit a) b })
  | .placeAuIn a b => .done (s.withAu (auPlace (s.cfg.fit a) b s.au))
  | .placeOut a b => .done (s.withLz { s.lz with out := Memory.put s.lz.out (s.cfg.fit a) b })
  | .placePcm a v => .done (s.withAu { s.au with pcm := Memory.put s.au.pcm a.toNat v })
  | .reset => .done (hardReset s)

/-- Whether the platform's reset is the next act: it is taken whatever the statuses (70_reset_and_hazards.md R270). -/
def resetPending : List HostAct → Bool
  | .reset :: _ => true
  | _ => false

/-- The next act of the host, or nothing to do: a unit that is not BUSY keeps all its state (60_exceptions.md R259). -/
def hostNext (s : State) : Fetched :=
  match s.ops with
  | [] => .done s
  | a :: rest => hostAct a (s.withOps rest)

/-- What the next step is: the platform's reset if it is pending, else the unit that is BUSY, else the host's next act.
notes/assumptions/9.md. -/
def fetch (s : State) : Fetched :=
  if resetPending s.ops then hostNext s
  else if s.lz.status = .busy then lzNext s
  else if s.au.status = .busy then auNext s
  else hostNext s

end Sys2Proof.Machine
end

