-- ==== Sys2Proof/Machine/Step.lean ====
section
/-! DEFINITION. One step of the block, and where the host's checks place a first instruction. -/

namespace Sys2Proof.Machine

/-- One step (00_scope.md R8): the fetched token's meaning, or the step without a token that the fetch has done. -/
def step (s : State) : Host.Outcome State Fault Refusal :=
  match fetch s with
  | .run i t => exec i t
  | .done t => .next t
  | .stop f => .fault f

/-- The bytes of `IN` from address 0 up. -/
def placeBytes : Nat → List Byte → Memory 8 → Memory 8
  | _, [], m => m
  | a, b :: bs, m => placeBytes (a + 1) bs (Memory.put m a b)

/-- `s` with a word of the opcode table standing where the next step fetches. The block runs no program at a program
counter: a unit reads `IN` while it is BUSY, at the place of the grammar it stands at. So this sets the unit's status
and place, its cursor at 0, its `IN` and input length, for a prefix an output still owed, and takes the host's pending
acts away. notes/assumptions/10.md, 23.md. -/
def State.withFetchWord (s : State) (nbits w : Nat) : State :=
  let bytes := tableBytes s.cfg nbits w
  let lzu (left : Nat) : State :=
    { s with
      ops := []
      lz := { s.lz with
        status := .busy, phase := .top, rawLeft := left, ip := 0, outLen := s.lz.op + 1
        inLen := bytes.length, inp := placeBytes 0 bytes s.lz.inp } }
  let acu (phase : AuPhase) : State :=
    { s with
      ops := []
      lz := { s.lz with status := if s.lz.status = .busy then .idle else s.lz.status }
      au := { s.au with
        status := .busy, phase := phase, bitpos := 0, changedAt := none
        inLen := bytes.length, inp := placeBytes 0 bytes s.au.inp } }
  match tableContext nbits w with
  | .lz .rawData => lzu 1
  | .lz _ => lzu 0
  | .au .selector => acu .selector
  | .au .block => acu .block
  | _ => acu .header

end Sys2Proof.Machine
end

