-- ==== Sys2Proof/Safety.lean ====
section
/-! DEFINITION. What the claims speak of: when an output is a result (60_exceptions.md R252, 70_reset_and_hazards.md
R284), the invariants that every step keeps, the measures that bound a run (R286), and the samples the spec gives each
code word (43_audio_block_decode.md R178 to R191). -/

namespace Sys2Proof.Machine

/-- The premise under which 60_exceptions.md R252 has claims made about `OUT`: no fault, the output complete. The same status
makes `OUT` valid, as a whole (70_reset_and_hazards.md R284). -/
def outResult (s : State) : Prop := s.lz.status = .done

/-- The premise under which R252 has claims made about `PCM`: READY or END_COMPLETE, no other status. -/
def pcmResult (s : State) : Prop := s.au.status = .ready ∨ s.au.status = .endComplete

/-- The cell of `PCM` at an address is valid (R284): it lies below `AU_EMITTED` and the status is READY, END_COMPLETE or
END_TRUNCATED. Of END_TRUNCATED R252 says nothing and R284 does, so the two are held apart: DEDUCED,
notes/assumptions/32.md. -/
def pcmValid (s : State) (a : Nat) : Prop := s.au.status.hasStream = true ∧ a < s.au.emitted.toNat

/-! ## What a host act asks -/

/-- The unit a host act is for (10_state.md R10, R11, R20; 20_memory.md R50, R51, R54, R55); the platform's reset is for
both (70_reset_and_hazards.md R270). -/
def actUnit : HostAct → Option UnitId
  | .lzCommand _ => some .lzu
  | .writeLzInLen _ => some .lzu
  | .writeLzOutLen _ => some .lzu
  | .placeLzIn _ _ => some .lzu
  | .placeOut _ _ => some .lzu
  | .auCommand _ => some .acu
  | .writeAuInLen _ => some .acu
  | .writeAuChForce _ => some .acu
  | .placeAuIn _ _ => some .acu
  | .placePcm _ _ => some .acu
  | .reset => none

/-! ## Invariants -/

/-- The registers of LZU that have AW bits hold numbers of AW bits (10_state.md R11, R12, R13; 00_scope.md R3). -/
def lzFits (c : Config) (u : Lzu) : Prop :=
  u.inLen < 2 ^ c.aw ∧ u.outLen < 2 ^ c.aw ∧ u.faultIp < 2 ^ c.aw ∧ u.faultOp < 2 ^ c.aw ∧ u.ip < 2 ^ c.aw ∧ u.op < 2 ^ c.aw

/-- The registers of ACU that have AW or AW + 3 bits hold numbers of so many (10_state.md R20, R22, R24; 00_scope.md R3). -/
def auFits (c : Config) (u : Acu) : Prop :=
  u.inLen < 2 ^ c.aw ∧ u.faultPos < 2 ^ (c.aw + 3) ∧ u.bitpos < 2 ^ (c.aw + 3) ∧ u.dataStart < 2 ^ (c.aw + 3)

/-- LZU: a fault code stands exactly in `FAULT` (10_state.md R11); while BUSY the cursors stay inside `IN` and `OUT`
(R12, 20_memory.md R51), a block never consumes more than it declares (R13, 41_lzss.md R121), the group index stays
at most 8 (R13), and no register leaves the AW bits it has (R11). -/
def LzInv (c : Config) (u : Lzu) : Prop :=
  (u.status = .fault ↔ u.fault ≠ 0) ∧
  (u.status = .busy →
    u.ip ≤ u.inLen ∧ u.op ≤ u.outLen ∧ u.rawLeft ≤ u.inLen - u.ip ∧
    (u.phase ≠ .top → u.rawLeft = 0 ∧ 1 ≤ u.blkLen.toNat ∧ u.blkUsed.toNat ≤ u.blkLen.toNat)) ∧
  (u.phase = .item → u.ctlK.toNat ≤ 8) ∧
  lzFits c u

/-- A header has been accepted and its stream is at hand (10_state.md R20). -/
def inStream (u : Acu) : Prop := u.status.hasStream = true ∨ (u.status = .busy ∧ u.phase ≠ .header)

/-- The decoders that read code words (43_audio_block_decode.md R175). -/
def hasCodeWords (d : Decoder) : Prop := d ≠ .zero ∧ d ≠ .bad

/-- ACU: a fault code stands exactly in `FAULT` (10_state.md R20); while BUSY `AU_LAST_N` is 0, because the command under way
has written no sample yet (R20); the header of a stream at hand has passed its checks
(42_audio_header.md R157 to R160) and no more was delivered than it declares (20_memory.md R55); the two ends are told
apart by the count (43_audio_block_decode.md R193, 44_audio_merge_output.md R222); in a block the column and the row
under way exist (R172); and no register leaves the AW or AW + 3 bits it has (R20, R22). -/
def AuInv (c : Config) (u : Acu) : Prop :=
  (u.status = .fault ↔ u.fault ≠ 0) ∧
  (u.status = .busy → u.lastN = 0) ∧
  (inStream u →
    4096 ≤ u.rate.toNat ∧ u.rows ≠ 0 ∧ (u.channels = 1 ∨ u.channels = 2) ∧ u.dataStart = 112 ∧
    u.emitted.toNat ≤ u.samples.toNat) ∧
  (u.status = .endComplete → u.emitted = u.samples) ∧
  (u.status = .endTruncated → u.emitted.toNat < u.samples.toNat) ∧
  (u.status = .busy →
    match u.phase with
    | .header => u.bitpos = 0 ∧ u.emitted = 0 ∧ u.block = [] ∧ u.wrap = []
    | .block => u.emitted.toNat < u.samples.toNat
    | .selector => u.emitted.toNat < u.samples.toNat ∧ u.col.toNat < cols u
    | .code => u.emitted.toNat < u.samples.toNat ∧ u.col.toNat < cols u ∧ u.row < rowCount u ∧
        hasCodeWords (decoderOf c u.sel)
    | .merge => u.emitted.toNat < u.samples.toNat ∧ u.col.toNat = cols u
    | .output => u.emitted.toNat < u.samples.toNat ∧ u.col.toNat = cols u) ∧
  auFits c u

/-- Every memory space is in canonical form. -/
def MemCanonical (s : State) : Prop :=
  Memory.wf none s.lz.inp ∧ Memory.wf none s.lz.out ∧ Memory.wf (some ringFill) s.lz.ring ∧
  Memory.wf none s.au.inp ∧ Memory.wf none s.au.pcm ∧ Memory.wf none s.au.block ∧ Memory.wf none s.au.wrap

/-- The private memories hold cells of their spaces only (20_memory.md R52, R56). -/
def MemInBounds (s : State) : Prop :=
  (∀ c ∈ s.lz.ring, c.1 < 4096) ∧ (∀ c ∈ s.au.block, c.1 < blocklen s.au) ∧ (∀ c ∈ s.au.wrap, c.1 < wraplen s.au)

/-! ## Measures -/

/-- What every step of an LZU run lowers (41_lzss.md R120; 70_reset_and_hazards.md R286): the input not yet read, then
the order ITEM, GROUP, TOP. -/
def lzMeasure (u : Lzu) : Nat :=
  4 * (u.inLen - u.ip) + (match u.phase with | .top => 0 | .group => 1 | .item => 2)

/-- What every step of an ACU run lowers (R286): the bits not yet read, then the wrap-merge before the output. -/
def auMeasure (u : Acu) : Nat :=
  3 * bitsLeft u + (match u.phase with | .merge => 2 | .output => 1 | _ => 0)

/-! ## The samples of the code words -/

/-- The raw samples the spec gives each code word, as long as the subband has slots: 43_audio_block_decode.md R178 (LINEAR),
R179 to R187 (the K decoders), R188, R189, R191 with R190 (the shift tables less their biases; an index beyond the table has none). The
maps, tables and biases are those of the parameters: notes/assumptions/6.md. -/
def wordSamples (c : Config) : Instr → Option (List Int)
  | .auLinearV w v => some [(v.toNat : Int) - 2 ^ (w.toNat - 1)]
  | .auK13Z2 => some [0, 0]
  | .auK24Z2 => some [0, 0]
  | .auK45Z2 => some [0, 0]
  | .auK35Z2 => some [0, 0]
  | .auK13Z1 => some [0]
  | .auK24Z1 => some [0]
  | .auK45Z1 => some [0]
  | .auK12Z1 => some [0]
  | .auK23Z1 => some [0]
  | .auK44Z1 => some [0]
  | .auK35Z1 => some [0]
  | .auK34Z1 => some [0]
  | .auK13V v => some [c.map1[v.toNat]'(v.isLt)]
  | .auK12V v => some [c.map1[v.toNat]'(v.isLt)]
  | .auK35V1 v => some [c.map1[v.toNat]'(v.isLt)]
  | .auK34V1 v => some [c.map1[v.toNat]'(v.isLt)]
  | .auK24V v => some [c.map2n[v.toNat]'(v.isLt)]
  | .auK23V v => some [c.map2n[v.toNat]'(v.isLt)]
  | .auK35V2 v => some [c.map2f[v.toNat]'(v.isLt)]
  | .auK34V2 v => some [c.map2f[v.toNat]'(v.isLt)]
  | .auK45V v => some [c.map3[v.toNat]'(v.isLt)]
  | .auK44V v => some [c.map3[v.toNat]'(v.isLt)]
  | .auT15Idx v => (c.tab3x3[v.toNat]?).map fun e =>
      [((e.extractLsb' 0 4).toNat : Int) - c.bias3x3, ((e.extractLsb' 4 4).toNat : Int) - c.bias3x3,
        ((e.extractLsb' 8 4).toNat : Int) - c.bias3x3]
  | .auT27Idx v => (c.tab3x5[v.toNat]?).map fun e =>
      [((e.extractLsb' 0 4).toNat : Int) - c.bias3x5, ((e.extractLsb' 4 4).toNat : Int) - c.bias3x5,
        ((e.extractLsb' 8 4).toNat : Int) - c.bias3x5]
  | .auT37Idx v => (c.tab2x11[v.toNat]?).map fun e =>
      [((e.extractLsb' 0 4).toNat : Int) - c.bias2x11, ((e.extractLsb' 4 4).toNat : Int) - c.bias2x11]
  | .lzRaw _ => none
  | .lzCoded _ => none
  | .lzZeroPfx => none
  | .lzData _ => none
  | .lzCtl _ => none
  | .lzLit _ => none
  | .lzRef _ _ => none
  | .auHdr _ _ _ _ _ _ => none
  | .auHdrWrapper => none
  | .auBlk _ _ => none
  | .auSel0Zero => none
  | .auSel1Bad => none
  | .auSel2Bad => none
  | .auSel3Linear => none
  | .auSel4Linear => none
  | .auSel5Linear => none
  | .auSel6Linear => none
  | .auSel7Linear => none
  | .auSel8Linear => none
  | .auSel9Linear => none
  | .auSel10Linear => none
  | .auSel11Linear => none
  | .auSel12Linear => none
  | .auSel13Linear => none
  | .auSel14Linear => none
  | .auSel15Linear => none
  | .auSel16Linear => none
  | .auSel17K13 => none
  | .auSel18K12 => none
  | .auSel19T15 => none
  | .auSel20K24 => none
  | .auSel21K23 => none
  | .auSel22T27 => none
  | .auSel23K35 => none
  | .auSel24K34 => none
  | .auSel25K45 => none
  | .auSel26K44 => none
  | .auSel27T37 => none
  | .auSel28Bad => none
  | .auSel29Bad => none
  | .auSel30Bad => none
  | .auSel31Bad => none
  | .lzStart => none
  | .lzReset => none
  | .auInit => none
  | .auNext => none
  | .auRestart => none
  | .auClearWrap => none
  | .auReset => none

end Sys2Proof.Machine
end

