-- ==== Sys2Proof/Certificates/Slice0/Obligations.lean ====
section
/-! DEFINITION. The statements for the provers. Each docstring names the rules of spec/ the statement rests on. -/

open Sys2Proof Sys2Proof.Machine

/-! ## Encoding -/

/-- Words written out from the encodings of 30_encoding.md R81 to R90, R104 and the streams of 95_test_vectors.md
decode to the instructions they stand for. -/
def Obligations.WrittenWordsDecode : Prop :=
  decodeLz Config.default .blockPrefix [0xFF, 0xFC] = .ok (.lzRaw 0xFFFC) 2 ∧
  decodeLz Config.default .blockPrefix [0x00, 0x05] = .ok (.lzCoded 5) 2 ∧
  decodeLz Config.default .blockPrefix [0x00, 0x00] = .ok .lzZeroPfx 2 ∧
  decodeLz Config.default (.item false) [0xEE, 0xF3] = .ok (.lzRef 0xFEE 3) 2 ∧
  decodeAu Config.default .block [false, true, false, false, true, true, false, false, false, false, false, false,
    false, false, false, false, false, false, false, false] = .ok (.auBlk 2 3) 20 ∧
  decodeAu Config.default .selector [true, false, false, false, true] = .ok .auSel17K13 5 ∧
  decodeAu Config.default (.code .k13 17) [true, true, true] = .ok (.auK13V 1) 3 ∧
  decodeAu Config.default (.code .k35 23) [true, true, true, false, false] = .ok (.auK35V2 0) 5 ∧
  decodeAu Config.default (.code .t27 22) [true, true, true, false, false, false, false] = .ok (.auT27Idx 7) 7 ∧
  decodeCommand .acu 0x03 = .ok .auRestart 1

/-- Decoding the encoding of a well-formed LZSS token, whatever follows it, gives the token and its length
(30_encoding.md R80 to R85). -/
def Obligations.LzDecodeEncode : Prop :=
  ∀ (c : Config) (i : Instr) (x : LzCtx) (b rest : List Byte),
    i.wellFormed = true → contextOf i = .lz x → encode c i = .bytes b →
    decodeLz c x (b ++ rest) = .ok i b.length

/-- Decoding the encoding of a well-formed audio token, whatever follows it, gives the token and its length, in either
bit order (30_encoding.md R86 to R90). -/
def Obligations.AuDecodeEncode : Prop :=
  ∀ (c : Config) (i : Instr) (x : AuCtx) (b rest : List Bool),
    i.wellFormed = true → contextOf i = .au x → encode c i = .bits b →
    decodeAu c x (b ++ rest) = .ok i b.length

/-- What the two stream decoders answer is well formed, and its encoding is exactly the bytes or bits it was read from. -/
def Obligations.DecodeSound : Prop :=
  (∀ (c : Config) (x : LzCtx) (bytes : List Byte) (i : Instr) (n : Nat),
    decodeLz c x bytes = .ok i n → i.wellFormed = true ∧ n ≤ bytes.length ∧ encode c i = .bytes (bytes.take n)) ∧
  (∀ (c : Config) (x : AuCtx) (bits : List Bool) (i : Instr) (n : Nat),
    decodeAu c x bits = .ok i n → i.wellFormed = true ∧ n ≤ bits.length ∧ encode c i = .bits (bits.take n))

/-- The command codes of 30_encoding.md R104, and no others. -/
def Obligations.CommandCodesOfTable : Prop :=
  ∀ (unit : UnitId) (code : Byte) (i : Instr),
    (decodeCommand unit code = .ok i 1 ↔
      (unit = .lzu ∧ code = 0x01 ∧ i = .lzStart) ∨ (unit = .lzu ∧ code = 0x02 ∧ i = .lzReset) ∨
      (unit = .acu ∧ code = 0x01 ∧ i = .auInit) ∨ (unit = .acu ∧ code = 0x02 ∧ i = .auNext) ∨
      (unit = .acu ∧ code = 0x03 ∧ i = .auRestart) ∨ (unit = .acu ∧ code = 0x04 ∧ i = .auClearWrap) ∨
      (unit = .acu ∧ code = 0x05 ∧ i = .auReset))

/-- The default selector map, selector by selector (43_audio_block_decode.md R176), and the default shift tables: each entry
packs the digits of its own index, the least significant lowest, so that sample `k` of index `b` is digit `k` of `b` less the
table's bias (R190). Rows 1, 2 and 17 to 31 of the map and the three tables with their biases are defaults from general knowledge, not the
source's: PRESUMED, notes/assumptions/3.md. -/
def Obligations.DefaultSelectorsAndTables : Prop :=
  (List.range 32).map (fun n => decoderOf Config.default (BitVec.ofNat 5 n)) =
    [.zero, .bad, .bad] ++ List.replicate 14 .linear ++
    [.k13, .k12, .t15, .k24, .k23, .t27, .k35, .k34, .k45, .k44, .t37, .bad, .bad, .bad, .bad] ∧
  (∀ x1 x2 x3 : Fin 3, Config.default.tab3x3[x1.val + 3 * x2.val + 9 * x3.val]? =
    some (BitVec.ofNat 12 (x1.val + x2.val * 16 + x3.val * 256))) ∧
  (∀ x1 x2 x3 : Fin 5, Config.default.tab3x5[x1.val + 5 * x2.val + 25 * x3.val]? =
    some (BitVec.ofNat 12 (x1.val + x2.val * 16 + x3.val * 256))) ∧
  (∀ x1 x2 : Fin 11, Config.default.tab2x11[x1.val + 11 * x2.val]? = some (BitVec.ofNat 12 (x1.val + x2.val * 16))) ∧
  (∀ b : Fin 27, wordSamples Config.default (.auT15Idx (BitVec.ofNat 5 b.val)) =
    some [((b.val % 3 : Nat) : Int) - 1, ((b.val / 3 % 3 : Nat) : Int) - 1, ((b.val / 9 % 3 : Nat) : Int) - 1]) ∧
  (∀ b : Fin 125, wordSamples Config.default (.auT27Idx (BitVec.ofNat 7 b.val)) =
    some [((b.val % 5 : Nat) : Int) - 2, ((b.val / 5 % 5 : Nat) : Int) - 2, ((b.val / 25 % 5 : Nat) : Int) - 2]) ∧
  (∀ b : Fin 121, wordSamples Config.default (.auT37Idx (BitVec.ofNat 7 b.val)) =
    some [((b.val % 11 : Nat) : Int) - 5, ((b.val / 11 % 11 : Nat) : Int) - 5])

/-! ## The step -/

/-- A step of a BUSY LZU runs the token that stands at `lz.ip`, with the cursor past it, the block count up by the bytes
of a token of a coded block, and the item index up by one for an item (41_lzss.md R121, R122, R126, R127). That one byte
of raw data is a step of its own, counted by `rawLeft`, is the model's DESIGN CHOICE, notes/assumptions/7.md and 8.md
(00_scope.md R8 and R124 make the whole raw block one step). -/
def Obligations.StepRunsLzToken : Prop :=
  ∀ (s : State) (i : Instr), resetPending s.ops = false → s.lz.status = .busy →
    let ip := s.lz.ip
    let b0 := lzInByte s.lz.inp ip
    let b1 := lzInByte s.lz.inp (ip + 1)
    let used := s.lz.blkUsed.toNat
    (s.lz.phase = .top → s.lz.rawLeft = 0 → s.lz.op ≠ s.lz.outLen → ip + 2 ≤ s.lz.inLen →
      decodeLz s.cfg .blockPrefix [b0, b1] = .ok i 2 →
      step s = exec i (s.withLz { s.lz with ip := s.lz.ip + 2 })) ∧
    (s.lz.phase = .top → s.lz.rawLeft ≠ 0 → ip < s.lz.inLen → decodeLz s.cfg .rawData [b0] = .ok i 1 →
      step s = exec i (s.withLz { s.lz with ip := s.lz.ip + 1 })) ∧
    (s.lz.phase = .group → used < s.lz.blkLen.toNat → ip < s.lz.inLen →
      decodeLz s.cfg .control [b0] = .ok i 1 →
      step s = exec i (s.withLz { s.lz with ip := s.lz.ip + 1, blkUsed := s.lz.blkUsed + 1 })) ∧
    (s.lz.phase = .item → used < s.lz.blkLen.toNat → ip < s.lz.inLen → s.lz.ctlK ≠ 8 →
      controlBit s.cfg.flagOrder s.lz.ctl s.lz.ctlK = true → decodeLz s.cfg (.item true) [b0] = .ok i 1 →
      step s = exec i (s.withLz
        { s.lz with ip := s.lz.ip + 1, blkUsed := s.lz.blkUsed + 1, ctlK := s.lz.ctlK + 1 })) ∧
    (s.lz.phase = .item → used + 2 ≤ s.lz.blkLen.toNat → ip + 2 ≤ s.lz.inLen → s.lz.ctlK ≠ 8 →
      controlBit s.cfg.flagOrder s.lz.ctl s.lz.ctlK = false → decodeLz s.cfg (.item false) [b0, b1] = .ok i 2 →
      step s = exec i (s.withLz
        { s.lz with ip := s.lz.ip + 2, blkUsed := s.lz.blkUsed + 2, ctlK := s.lz.ctlK + 1 }))

/-- A step of a BUSY ACU runs the token that the remaining bits decode to in the place of the grammar it stands at, with
the cursor past the token's bits (42_audio_header.md R151, R153; 43_audio_block_decode.md R171, R172). That a selector and
each code word are steps of their own, told by `au.phase`, is the model's choice, notes/assumptions/7.md and 20.md
(00_scope.md R8 and R172 make a whole subband one step). -/
def Obligations.StepRunsAuToken : Prop :=
  ∀ (s : State) (x : AuCtx) (i : Instr) (n : Nat), resetPending s.ops = false → s.lz.status ≠ .busy →
    s.au.status = .busy →
    (s.au.phase = .header ∧ x = .header ∨ s.au.phase = .block ∧ x = .block ∨
      s.au.phase = .selector ∧ x = .selector ∨
      s.au.phase = .code ∧ x = .code (decoderOf s.cfg s.au.sel) s.au.sel) →
    decodeAu s.cfg x (bitsAhead s.cfg.bitOrder s.au) = .ok i n →
    step s = exec i (s.withAu { s.au with bitpos := s.au.bitpos + n })

/-- With no unit BUSY, a step takes the host's oldest act off the queue (the model's, notes/assumptions/9.md): a legal
command code runs its instruction, an illegal one raises the unit's usage fault (30_encoding.md R104; 60_exceptions.md
R247); a write of a register writes that register and nothing else (10_state.md R11, R20), a register or an address of AW bits
taking the number modulo `2 ^ AW` (DESIGN CHOICE for one that does not fit, notes/assumptions/1.md); a placement writes the one cell
of its space and nothing else (20_memory.md R50, R51, R54, R55), but that one for ACU's `IN` that changes the byte under
the bit cursor, where a part of it is consumed, sets the model's own note `changedAt` (notes/assumptions/19.md). -/
def Obligations.StepRunsHostCommand : Prop :=
  ∀ (s : State) (code : Byte) (rest : List HostAct) (i : Instr), s.lz.status ≠ .busy → s.au.status ≠ .busy →
    (s.ops = .lzCommand code :: rest →
      (decodeCommand .lzu code = .ok i 1 → step s = exec i { s with ops := rest }) ∧
      ((∀ j, decodeCommand .lzu code ≠ .ok j 1) →
        step s = .next { s with ops := rest, lz := { s.lz with fault := 5, status := .fault } })) ∧
    (s.ops = .auCommand code :: rest →
      (decodeCommand .acu code = .ok i 1 → step s = exec i { s with ops := rest }) ∧
      ((∀ j, decodeCommand .acu code ≠ .ok j 1) →
        step s = .next { s with ops := rest, au := { s.au with fault := 25, status := .fault } })) ∧
    (∀ v, s.ops = .writeLzInLen v :: rest → step s = .next { s with ops := rest, lz := { s.lz with inLen := v % 2 ^ s.cfg.aw } }) ∧
    (∀ v, s.ops = .writeLzOutLen v :: rest → step s = .next { s with ops := rest, lz := { s.lz with outLen := v % 2 ^ s.cfg.aw } }) ∧
    (∀ v, s.ops = .writeAuInLen v :: rest → step s = .next { s with ops := rest, au := { s.au with inLen := v % 2 ^ s.cfg.aw } }) ∧
    (∀ v, s.ops = .writeAuChForce v :: rest → step s = .next { s with ops := rest, au := { s.au with chForce := v } }) ∧
    (∀ a b, s.ops = .placeLzIn a b :: rest → ∃ t, step s = .next t ∧
      (∀ x, Memory.find t.lz.inp x = if x = a % 2 ^ s.cfg.aw then some b else Memory.find s.lz.inp x) ∧
      t = { s with ops := rest, lz := { s.lz with inp := t.lz.inp } }) ∧
    (∀ a b, s.ops = .placeOut a b :: rest → ∃ t, step s = .next t ∧
      (∀ x, Memory.find t.lz.out x = if x = a % 2 ^ s.cfg.aw then some b else Memory.find s.lz.out x) ∧
      t = { s with ops := rest, lz := { s.lz with out := t.lz.out } }) ∧
    (∀ a b, s.ops = .placeAuIn a b :: rest → ∃ t, step s = .next t ∧
      (∀ x, Memory.find t.au.inp x = if x = a % 2 ^ s.cfg.aw then some b else Memory.find s.au.inp x) ∧
      t = { s with ops := rest, au := { s.au with
        inp := t.au.inp
        changedAt :=
          let x := a % 2 ^ s.cfg.aw
          if s.au.bitpos / 8 = x ∧ s.au.bitpos % 8 ≠ 0 ∧ Memory.find s.au.inp x ≠ some b then some x
          else s.au.changedAt } }) ∧
    (∀ a v, s.ops = .placePcm a v :: rest → ∃ t, step s = .next t ∧
      (∀ x, Memory.find t.au.pcm x = if x = a.toNat then some v else Memory.find s.au.pcm x) ∧
      t = { s with ops := rest, au := { s.au with pcm := t.au.pcm } })

/-- The platform's reset, whatever the statuses, gives every register the value 70_reset_and_hazards.md R271 defines,
both units IDLE, and leaves `IN`, `OUT`, `PCM` and the parameters as they are (R270, R272). -/
def Obligations.PlatformReset : Prop :=
  ∀ (s : State) (rest : List HostAct), s.ops = .reset :: rest →
    ∃ t, step s = .next t ∧ t.ops = rest ∧ t.cfg = s.cfg ∧
      t.lz.status = .idle ∧ t.lz.fault = 0 ∧ t.lz.faultIp = 0 ∧ t.lz.faultOp = 0 ∧ t.lz.op = 0 ∧ t.lz.flags = 0 ∧
      t.lz.ip = 0 ∧ t.lz.phase = .top ∧ t.lz.inp = s.lz.inp ∧ t.lz.out = s.lz.out ∧
      t.au.status = .idle ∧ t.au.fault = 0 ∧ t.au.faultPos = 0 ∧ t.au.emitted = 0 ∧ t.au.lastN = 0 ∧
      t.au.chForce = 0 ∧ t.au.bitpos = 0 ∧ t.au.inp = s.au.inp ∧ t.au.pcm = s.au.pcm ∧
      readReg t .lzCmd = 0 ∧ readReg t .auCmd = 0 ∧ readReg t .lzOutCount = 0 ∧ readReg t .auEmitted = 0

/-- The values 70_reset_and_hazards.md R271 defines after reset, as the host reads them, and both units IDLE (R272). -/
def Obligations.ResetRegisterValues : Prop :=
  readReg State.reset .lzCmd = 0 ∧ readReg State.reset .auCmd = 0 ∧ readReg State.reset .lzStatus = 0 ∧
  readReg State.reset .lzFault = 0 ∧ readReg State.reset .lzFaultIp = 0 ∧ readReg State.reset .lzFaultOp = 0 ∧
  readReg State.reset .lzOutCount = 0 ∧ readReg State.reset .lzFlags = 0 ∧ State.reset.lz.ip = 0 ∧
  State.reset.lz.phase = .top ∧ readReg State.reset .auStatus = 0 ∧ readReg State.reset .auFault = 0 ∧
  readReg State.reset .auFaultPos = 0 ∧ readReg State.reset .auEmitted = 0 ∧ readReg State.reset .auLastN = 0 ∧
  readReg State.reset .auChForce = 0 ∧ State.reset.au.bitpos = 0

/-- Fault entry (60_exceptions.md R250): the code, the cursors of the unit (not for the usage faults) and the status;
every other register and memory of the unit keeps its value. -/
def Obligations.FaultEntryWrites : Prop :=
  (∀ (f : LzCause) (u : Lzu), f ≠ .usage →
    lzRaise f u = { u with fault := f.code, faultIp := u.ip, faultOp := u.op, status := .fault }) ∧
  (∀ u : Lzu, lzRaise .usage u = { u with fault := 5, status := .fault }) ∧
  (∀ (f : AuCause) (u : Acu), f ≠ .usage →
    auRaise f u = { u with fault := f.code, faultPos := u.bitpos, status := .fault }) ∧
  (∀ u : Acu, auRaise .usage u = { u with fault := 25, status := .fault })

/-! ## LZU -/

/-- LZ.RAW (41_lzss.md R123, R124): the length is the magnitude of the prefix; TRIM is set exactly when fewer bytes
remain; as many bytes as remain are left to copy; nothing else changes. -/
def Obligations.RawPrefixOpensBlock : Prop :=
  ∀ (w : BitVec 16) (s : State), w.msb = true →
    let n := 65536 - w.toNat
    let left := s.lz.inLen - s.lz.ip
    exec (.lzRaw w) s = .next (s.withLz { s.lz with
      blkLen := BitVec.ofNat 16 n
      flags := if left < n then 1 else s.lz.flags
      rawLeft := min n left
      phase := .top })

/-- LZ.CODED (R123, R125): the length, every cell of `RING` 0x20, the write index RING_START, no byte of the block used,
phase GROUP; nothing else changes. -/
def Obligations.CodedPrefixResetsDictionary : Prop :=
  ∀ (w : BitVec 16) (s : State), ∃ t, exec (.lzCoded w) s = .next t ∧
    (∀ a : BitVec 12, ringCell t.lz.ring a = 0x20) ∧
    t = s.withLz { s.lz with
      blkLen := w, rp := s.cfg.ringStart, blkUsed := 0, phase := .group, ring := t.lz.ring }

/-- LZ.ZEROPFX (R123): the fault LZ_ZERO_PREFIX, or back to TOP, as LZ_ZERO_PREFIX says. -/
def Obligations.ZeroPrefixFaultsOrSkips : Prop :=
  ∀ s : State,
    (s.cfg.zeroPrefix = .fault → exec .lzZeroPfx s = .next (s.withLz
      { s.lz with fault := 4, faultIp := s.lz.ip, faultOp := s.lz.op, status := .fault })) ∧
    (s.cfg.zeroPrefix = .skip → exec .lzZeroPfx s = .next (s.withLz { s.lz with phase := .top }))

/-- LZ.DATA (R124, R130): the byte goes to `OUT` at `lz.op`; no other cell of `OUT` changes, `RING` is not touched; one byte
less is left (the model's count, notes/assumptions/8.md). -/
def Obligations.RawByteGoesToOut : Prop :=
  ∀ (d : Byte) (s : State), s.lz.op < s.lz.outLen →
    ∃ t, exec (.lzData d) s = .next t ∧ Memory.find t.lz.out s.lz.op = some d ∧
      (∀ a, a ≠ s.lz.op → Memory.find t.lz.out a = Memory.find s.lz.out a) ∧
      t = s.withLz { s.lz with out := t.lz.out, op := s.lz.op + 1, rawLeft := s.lz.rawLeft - 1 }

/-- LZ.CTL (R126): the control byte is latched and the group begins at item 0; nothing else changes. -/
def Obligations.ControlByteOpensGroup : Prop :=
  ∀ (c : Byte) (s : State),
    exec (.lzCtl c) s = .next (s.withLz { s.lz with ctl := c, ctlK := 0, phase := .item })

/-- LZ.LIT (R128): the byte goes to `OUT` at `lz.op` and into `RING` at `lz.rp`; both indices move on by one, `lz.rp` modulo
4096; no other cell and no other register changes. -/
def Obligations.LiteralGoesToOutAndRing : Prop :=
  ∀ (d : Byte) (s : State), s.lz.op < s.lz.outLen →
    ∃ t, exec (.lzLit d) s = .next t ∧ Memory.find t.lz.out s.lz.op = some d ∧
      (∀ a, a ≠ s.lz.op → Memory.find t.lz.out a = Memory.find s.lz.out a) ∧
      ringCell t.lz.ring s.lz.rp = d ∧
      (∀ a : BitVec 12, a ≠ s.lz.rp → ringCell t.lz.ring a = ringCell s.lz.ring a) ∧
      t.lz.rp.toNat = (s.lz.rp.toNat + 1) % 4096 ∧
      t = s.withLz { s.lz with out := t.lz.out, op := s.lz.op + 1, ring := t.lz.ring, rp := t.lz.rp }

/-- LZ.REF where the output has room (R129; 20_memory.md R64): byte `j` of the copy is the byte the same copy put out `k`
bytes from its start where the address read is the one that byte was pushed to, and else the cell of `RING` at
`off + j` as it stood. The bytes go to `OUT` from `lz.op` up and to `RING` from `lz.rp` up, both written exactly there. -/
def Obligations.ReferenceCopiesByteByByte : Prop :=
  ∀ (off : BitVec 12) (lenM3 : BitVec 4) (s : State),
    let len := lenM3.toNat + 3
    s.lz.op + len ≤ s.lz.outLen →
    ∃ t, exec (.lzRef off lenM3) s = .next t ∧
      (∀ j, j < len →
        let k := (off + BitVec.ofNat 12 j - s.lz.rp).toNat
        Memory.find t.lz.out (s.lz.op + j) =
          if k < j then Memory.find t.lz.out (s.lz.op + k)
          else some (ringCell s.lz.ring (off + BitVec.ofNat 12 j))) ∧
      (∀ a, a < s.lz.op ∨ s.lz.op + len ≤ a → Memory.find t.lz.out a = Memory.find s.lz.out a) ∧
      (∀ j, j < len →
        some (ringCell t.lz.ring (s.lz.rp + BitVec.ofNat 12 j)) = Memory.find t.lz.out (s.lz.op + j)) ∧
      (∀ a : BitVec 12, (∀ j, j < len → a ≠ s.lz.rp + BitVec.ofNat 12 j) →
        ringCell t.lz.ring a = ringCell s.lz.ring a) ∧
      t = s.withLz { s.lz with
        out := t.lz.out, op := s.lz.op + len, ring := t.lz.ring, rp := s.lz.rp + BitVec.ofNat 12 len }

/-- A byte produced when the output is complete raises LZ_OUTPUT_OVERFLOW, in LZ.DATA, LZ.LIT and LZ.REF alike, and writes
nothing (41_lzss.md R130). -/
def Obligations.OutputOverflowFaults : Prop :=
  ∀ (d : Byte) (off : BitVec 12) (lenM3 : BitVec 4) (s : State), s.lz.outLen ≤ s.lz.op →
    let t := s.withLz { s.lz with fault := 3, faultIp := s.lz.ip, faultOp := s.lz.op, status := .fault }
    exec (.lzData d) s = .next t ∧ exec (.lzLit d) s = .next t ∧ exec (.lzRef off lenM3) s = .next t

/-- A reference that overflows inside its copy has written the `room` bytes that fit, each as in a whole copy, to `OUT` and
to `RING`, and faults at the first that does not, with `lz.ip` past the token (R129, R130; 60_exceptions.md R241, R250);
no other cell and no other register changes. -/
def Obligations.ReferenceOverflowsInsideCopy : Prop :=
  ∀ (off : BitVec 12) (lenM3 : BitVec 4) (s : State), s.lz.op ≤ s.lz.outLen →
    let room := s.lz.outLen - s.lz.op
    room < lenM3.toNat + 3 →
    ∃ t, exec (.lzRef off lenM3) s = .next t ∧
      (∀ j, j < room →
        let k := (off + BitVec.ofNat 12 j - s.lz.rp).toNat
        Memory.find t.lz.out (s.lz.op + j) =
          if k < j then Memory.find t.lz.out (s.lz.op + k)
          else some (ringCell s.lz.ring (off + BitVec.ofNat 12 j))) ∧
      (∀ a, a < s.lz.op ∨ s.lz.outLen ≤ a → Memory.find t.lz.out a = Memory.find s.lz.out a) ∧
      (∀ j, j < room →
        some (ringCell t.lz.ring (s.lz.rp + BitVec.ofNat 12 j)) = Memory.find t.lz.out (s.lz.op + j)) ∧
      (∀ a : BitVec 12, (∀ j, j < room → a ≠ s.lz.rp + BitVec.ofNat 12 j) →
        ringCell t.lz.ring a = ringCell s.lz.ring a) ∧
      t = s.withLz { s.lz with
        out := t.lz.out, op := s.lz.outLen, ring := t.lz.ring, rp := s.lz.rp + BitVec.ofNat 12 room
        fault := 3, faultIp := s.lz.ip, faultOp := s.lz.outLen, status := .fault }

/-- The GROUP step (41_lzss.md R126): the end of the block, a control byte, or LZ_INPUT_EXHAUSTED. -/
def Obligations.GroupStep : Prop :=
  ∀ s : State, resetPending s.ops = false → s.lz.status = .busy → s.lz.phase = .group →
    (s.lz.blkUsed = s.lz.blkLen → step s = .next (s.withLz { s.lz with phase := .top })) ∧
    (s.lz.blkUsed.toNat < s.lz.blkLen.toNat → s.lz.ip < s.lz.inLen →
      step s = .next (s.withLz { s.lz with
        ctl := lzInByte s.lz.inp s.lz.ip, ctlK := 0, phase := .item
        ip := s.lz.ip + 1, blkUsed := s.lz.blkUsed + 1 })) ∧
    (s.lz.blkUsed.toNat < s.lz.blkLen.toNat → s.lz.inLen ≤ s.lz.ip →
      step s = .next (s.withLz
        { s.lz with fault := 1, faultIp := s.lz.ip, faultOp := s.lz.op, status := .fault }))

/-- The steps without a token. TOP with no raw byte left (41_lzss.md R122, R132): DONE when the output is complete, whatever
the input; LZ_INPUT_EXHAUSTED with the cursor left where it was when fewer than two bytes remain. ITEM (R127, R131): the
end of the block, or the end of the group; and where the block's count allows the fetch but `IN` has ended inside the item,
LZ_INPUT_EXHAUSTED with the cursors where the failed fetch left them: a literal or a back-reference with no byte left, a
back-reference with one (R121, R128, R129; 60_exceptions.md R249; vector V17). -/
def Obligations.TopAndItemStepsWithoutToken : Prop :=
  ∀ s : State, resetPending s.ops = false → s.lz.status = .busy →
    (s.lz.phase = .top → s.lz.rawLeft = 0 →
      (s.lz.op = s.lz.outLen → step s = .next (s.withLz { s.lz with status := .done })) ∧
      (s.lz.op ≠ s.lz.outLen → s.lz.inLen < s.lz.ip + 2 →
        step s = .next (s.withLz
          { s.lz with fault := 1, faultIp := s.lz.ip, faultOp := s.lz.op, status := .fault }))) ∧
    (s.lz.phase = .item →
      (s.lz.blkUsed = s.lz.blkLen → step s = .next (s.withLz { s.lz with phase := .top })) ∧
      (s.lz.blkUsed ≠ s.lz.blkLen → s.lz.ctlK = 8 → step s = .next (s.withLz { s.lz with phase := .group })) ∧
      (s.lz.blkUsed.toNat < s.lz.blkLen.toNat → s.lz.ctlK ≠ 8 → s.lz.inLen ≤ s.lz.ip →
        step s = .next (s.withLz { s.lz with
          ctlK := s.lz.ctlK + 1, fault := 1, faultIp := s.lz.ip, faultOp := s.lz.op, status := .fault })) ∧
      (s.lz.blkUsed.toNat + 2 ≤ s.lz.blkLen.toNat → s.lz.ctlK ≠ 8 →
        controlBit s.cfg.flagOrder s.lz.ctl s.lz.ctlK = false → s.lz.ip + 1 = s.lz.inLen →
        step s = .next (s.withLz { s.lz with
          ip := s.lz.ip + 1, blkUsed := s.lz.blkUsed + 1, ctlK := s.lz.ctlK + 1
          fault := 1, faultIp := s.lz.ip + 1, faultOp := s.lz.op, status := .fault })))

/-- A back-reference whose second byte lies beyond the block's count raises LZ_BLOCK_OVERRUN after its first byte, even
where `IN` holds the second, and before the end of `IN` is looked at (41_lzss.md R121, R129; 60_exceptions.md R249). -/
def Obligations.CutReferenceOverrunsBlock : Prop :=
  ∀ s : State, resetPending s.ops = false → s.lz.status = .busy → s.lz.phase = .item → s.lz.ctlK ≠ 8 →
    controlBit s.cfg.flagOrder s.lz.ctl s.lz.ctlK = false → s.lz.blkUsed.toNat + 1 = s.lz.blkLen.toNat →
    s.lz.ip < s.lz.inLen →
    step s = .next (s.withLz { s.lz with
      ip := s.lz.ip + 1, blkUsed := s.lz.blkUsed + 1, ctlK := s.lz.ctlK + 1
      fault := 2, faultIp := s.lz.ip + 1, faultOp := s.lz.op, status := .fault })

/-- LZ_START (41_lzss.md R120): from IDLE, DONE or FAULT a run begins with cleared cursors, flags and fault registers. -/
def Obligations.LzStartBeginsRun : Prop :=
  ∀ s : State, s.lz.status ≠ .busy →
    exec .lzStart s = .next (s.withLz { s.lz with
      ip := 0, op := 0, phase := .top, flags := 0, fault := 0, faultIp := 0, faultOp := 0, rawLeft := 0
      status := .busy })

/-- LZ_RESET (41_lzss.md R135; 70_reset_and_hazards.md R271): IDLE, no fault, zero cursors; `LZ_IN_LEN`, `LZ_OUT_LEN`, `IN`
and `OUT` keep their values, and ACU is not touched. -/
def Obligations.LzResetClears : Prop :=
  ∀ s : State, s.lz.status ≠ .busy →
    ∃ t, exec .lzReset s = .next t ∧ t.lz.status = .idle ∧ t.lz.fault = 0 ∧ t.lz.faultIp = 0 ∧ t.lz.faultOp = 0 ∧
      t.lz.ip = 0 ∧ t.lz.op = 0 ∧ t.lz.flags = 0 ∧ t.lz.phase = .top ∧ t.lz.inLen = s.lz.inLen ∧
      t.lz.outLen = s.lz.outLen ∧ t.lz.inp = s.lz.inp ∧ t.lz.out = s.lz.out ∧ t.au = s.au ∧ t.cfg = s.cfg ∧
      t.ops = s.ops

/-- An LZU run ends DONE only with exactly `LZ_OUT_LEN` bytes written and no step of it writes past them (41_lzss.md R132;
20_memory.md R51). -/
def Obligations.DoneOnlyWhenOutputComplete : Prop :=
  ∀ s t : State, resetPending s.ops = false → s.lz.status = .busy → step s = .next t →
    (outResult t → t.lz.op = t.lz.outLen) ∧ t.lz.outLen = s.lz.outLen ∧
    (∀ a, s.lz.outLen ≤ a → Memory.find t.lz.out a = Memory.find s.lz.out a)

/-- Every LZU run ends, DONE or FAULT, after at most one step more than its measure (41_lzss.md R120;
70_reset_and_hazards.md R286). -/
def Obligations.LzRunEnds : Prop :=
  ∀ s : State, resetPending s.ops = false → s.lz.status = .busy →
    ∃ n t, n ≤ lzMeasure s.lz + 1 ∧ Host.Core.run Sys2Proof.core n s = .next t ∧
      (t.lz.status = .done ∨ t.lz.status = .fault)

/-! ## The bit reader -/

/-- A read of 1 to 32 bits: with enough bits left, bit `i` of the value is stream bit `p + i` with the least significant bit
first and stream bit `p + n - 1 - i` with the most significant first, the value is below `2^n` and the cursor moves on by
`n` (40_bit_reader.md R111, R112); with fewer left, EndOfInput and nothing changes (R113). The stream bits are those of `IN`
as it stands (R110), where the host changed `IN` since AU_INIT too, which is the model's choice; of the byte under the cursor
that it changed after a part of it was consumed nothing is said (notes/assumptions/19.md). -/
def Obligations.BitReadValue : Prop :=
  ∀ (o : BitOrder) (n : Nat) (u : Acu), 1 ≤ n → n ≤ 32 →
    (u.bitpos + n ≤ 8 * u.inLen →
      ∃ v, bitRead o n u = .value v { u with bitpos := u.bitpos + n } ∧ v < 2 ^ n ∧
        (∀ i, i < n →
          let p := match o with
            | .lsbFirst => u.bitpos + i
            | .msbFirst => u.bitpos + (n - 1 - i)
          u.changedAt ≠ some (p / 8) → v.testBit i = streamBit o u.inp p)) ∧
    (8 * u.inLen < u.bitpos + n → bitRead o n u = .endOfInput u)

/-- Two reads in a row give the bits of one read of both widths (40_bit_reader.md R115). -/
def Obligations.BitReadSplits : Prop :=
  ∀ (o : BitOrder) (n m : Nat) (u : Acu), 1 ≤ n → 1 ≤ m → n + m ≤ 32 →
    u.bitpos + (n + m) ≤ 8 * u.inLen →
    ∃ v w u' u'', bitRead o n u = .value v u' ∧ bitRead o m u' = .value w u'' ∧
      bitRead o (n + m) u = .value (match o with | .lsbFirst => v + w * 2 ^ n | .msbFirst => v * 2 ^ m + w) u''

/-! ## ACU: frame tokens and selectors -/

/-- AU.HDR with every check passed (42_audio_header.md R153, R156, R160): the header registers, the effective channel count,
the start of the body, every cell of `WRAP` zero and no other listed, READY; nothing else changes. -/
def Obligations.HeaderAccepted : Prop :=
  ∀ (samples : BitVec 32) (channels rate : BitVec 16) (level : BitVec 4) (rows : BitVec 12) (s : State) (k : BitVec 2),
    k = 1 ∨ k = 2 → (s.au.chForce = k ∨ (s.au.chForce ≠ 1 ∧ s.au.chForce ≠ 2 ∧ channels = k.setWidth 16)) →
    4096 ≤ rate.toNat → rows ≠ 0 →
    ∃ t, exec (.auHdr 1 samples channels rate level rows) s = .next t ∧
      (∀ a, Memory.find t.au.wrap a = if a < 2 * 2 ^ level.toNat - 2 then some 0 else none) ∧
      t = s.withAu { s.au with
        samples := samples, chStored := channels, rate := rate, level := level, rows := rows, channels := k
        dataStart := s.au.bitpos, wrap := t.au.wrap, status := .ready }

/-- AU.HDR with a check failed (R154, R157, R158, R159, R161): the first failing check in the order version, channels, rate,
rows gives the fault; the header registers keep what was read; `AU_CHANNELS` is written only when its check passes. That it
is written when fault 21 or 22 follows is the model's choice, DEDUCED, notes/assumptions/22.md. -/
def Obligations.HeaderChecksInOrder : Prop :=
  ∀ (version : BitVec 8) (samples : BitVec 32) (channels rate : BitVec 16) (level : BitVec 4) (rows : BitVec 12)
    (s : State),
    let eff := if s.au.chForce = 1 ∨ s.au.chForce = 2 then s.au.chForce.setWidth 16 else channels
    let u := { s.au with samples := samples, chStored := channels, rate := rate, level := level, rows := rows }
    let raised (v : Acu) (code : BitVec 8) := s.withAu { v with fault := code, faultPos := s.au.bitpos, status := .fault }
    (version ≠ 1 → exec (.auHdr version samples channels rate level rows) s = .next (raised u 19)) ∧
    (version = 1 → eff ≠ 1 → eff ≠ 2 →
      exec (.auHdr version samples channels rate level rows) s = .next (raised u 20)) ∧
    (version = 1 → eff = 1 ∨ eff = 2 → rate.toNat < 4096 →
      exec (.auHdr version samples channels rate level rows) s =
        .next (raised { u with channels := eff.setWidth 2 } 21)) ∧
    (version = 1 → eff = 1 ∨ eff = 2 → 4096 ≤ rate.toNat → rows = 0 →
      exec (.auHdr version samples channels rate level rows) s =
        .next (raised { u with channels := eff.setWidth 2 } 22))

/-- AU.HDR.WRAPPER (42_audio_header.md R152): AU_WRAPPER_UNIMPLEMENTED at the cursor, nothing else; and a header parse whose
first 24 bits are the wrapper magic ends so at bit 24, with nothing further read. -/
def Obligations.WrapperHeaderFaults : Prop :=
  (∀ s : State, exec .auHdrWrapper s =
    .next (s.withAu { s.au with fault := 18, faultPos := s.au.bitpos, status := .fault })) ∧
  ∀ s : State, resetPending s.ops = false → s.lz.status ≠ .busy → s.au.status = .busy → s.au.phase = .header →
    s.au.bitpos = 0 → 24 ≤ 8 * s.au.inLen →
    fieldValue s.cfg.bitOrder ((bitsAhead s.cfg.bitOrder s.au).take 24) = 0x564157 →
    step s = .next (s.withAu { s.au with fault := 18, bitpos := 24, faultPos := 24, status := .fault })

/-- The header parse on bad input (42_audio_header.md R151, R153, R161): with fewer than 24 bits, AU_HEADER_TRUNCATED where it
stands; with a magic that is neither, AU_BAD_MAGIC past it; with the magic and fewer than 112 bits, AU_HEADER_TRUNCATED at
the field that cannot be read. -/
def Obligations.HeaderParseFaults : Prop :=
  ∀ s : State, resetPending s.ops = false → s.lz.status ≠ .busy → s.au.status = .busy → s.au.phase = .header →
    s.au.bitpos = 0 →
    let left := 8 * s.au.inLen
    let magic := fieldValue s.cfg.bitOrder ((bitsAhead s.cfg.bitOrder s.au).take 24)
    let raised (code : BitVec 8) (pos : Nat) := s.withAu { s.au with
      fault := code, bitpos := pos, faultPos := pos, status := .fault }
    (left < 24 → step s = .next (raised 16 0)) ∧
    (24 ≤ left → magic ≠ 0x032897 → magic ≠ 0x564157 → step s = .next (raised 17 24)) ∧
    (24 ≤ left → left < 112 → magic = 0x032897 →
      step s = .next (raised 16
        (if left < 32 then 24 else if left < 64 then 32 else if left < 80 then 64 else if left < 96 then 80 else
          if left < 100 then 96 else 100)))

/-- AU.BLK (43_audio_block_decode.md R171; 10_state.md R25): the exponent and the scale are latched, the first column is next,
`BLOCK` holds no value; nothing else of the spec's state changes. -/
def Obligations.BlockHeaderLatched : Prop :=
  ∀ (pwr : BitVec 4) (scale : BitVec 16) (s : State),
    ∃ t, exec (.auBlk pwr scale) s = .next t ∧ (∀ a, Memory.find t.au.block a = none) ∧
      t = s.withAu { s.au with
        pwr := pwr, scale := scale, col := 0, phase := .selector, block := t.au.block, freeCtr := t.au.freeCtr }

/-- A selector whose decoder reads code words latches its number and begins the decoder at row 0 (43_audio_block_decode.md
R172, R175), for all 32 selectors and whatever SELMAP says. -/
def Obligations.SelectorBeginsDecoder : Prop :=
  ∀ (i : Instr) (n : Nat) (s : State), selectorValue i = some n →
    hasCodeWords (decoderOf s.cfg (BitVec.ofNat 5 n)) → s.au.col.toNat < cols s.au → s.au.rows ≠ 0 →
    exec i s = .next (s.withAu { s.au with sel := BitVec.ofNat 5 n, row := 0, phase := .code })

/-- A selector whose decoder is ZERO fills its column with zeros and ends the subband, reading nothing
(43_audio_block_decode.md R177, R172). Selector 0 is such under every SELMAP. -/
def Obligations.ZeroSelectorFillsColumn : Prop :=
  (∀ c : Config, decoderOf c 0 = .zero) ∧
  ∀ (i : Instr) (n : Nat) (s : State), selectorValue i = some n →
    decoderOf s.cfg (BitVec.ofNat 5 n) = .zero → s.au.col.toNat < cols s.au →
    ∃ t, exec i s = .next t ∧
      (∀ r, r < rowCount s.au → Memory.find t.au.block (r * cols s.au + s.au.col.toNat) = some 0) ∧
      (∀ a, (∀ r, r < rowCount s.au → a ≠ r * cols s.au + s.au.col.toNat) →
        Memory.find t.au.block a = Memory.find s.au.block a) ∧
      t = s.withAu { s.au with
        sel := BitVec.ofNat 5 n, row := rowCount s.au, block := t.au.block, col := s.au.col + 1
        phase := if s.au.col.toNat + 1 = cols s.au then .merge else .selector }

/-- A selector whose decoder is BAD raises AU_UNIMPLEMENTED_SELECTOR at the cursor; `blk.sel` holds the selector, no slot is
written (43_audio_block_decode.md R192; 60_exceptions.md R240, R250). `AU_LAST_N` is among what is kept: AuInv has it 0. -/
def Obligations.BadSelectorFaults : Prop :=
  ∀ (i : Instr) (n : Nat) (s : State), selectorValue i = some n →
    decoderOf s.cfg (BitVec.ofNat 5 n) = .bad →
    exec i s = .next (s.withAu { s.au with
      sel := BitVec.ofNat 5 n, row := 0, fault := 23, faultPos := s.au.bitpos, status := .fault })

/-! ## ACU: code words -/

/-- Every code word writes its samples, scaled, to the slots of its column from the row under way up, as many as the subband
has left; when that fills the column the subband ends; no other cell and no other register changes
(43_audio_block_decode.md R173, R178 to R191). -/
def Obligations.CodeWordFillsSlots : Prop :=
  ∀ (i : Instr) (raws : List Int) (s : State), wordSamples s.cfg i = some raws →
    s.au.col.toNat < cols s.au → s.au.row < rowCount s.au →
    let n := min raws.length (rowCount s.au - s.au.row)
    let slot := fun k => (s.au.row + k) * cols s.au + s.au.col.toNat
    let full := s.au.row + n = rowCount s.au
    ∃ t, exec i s = .next t ∧
      (∀ k (h : k < raws.length), k < n →
        Memory.find t.au.block (slot k) = some (BitVec.ofInt 32 (raws[k] * (s.au.scale.toNat : Int)))) ∧
      (∀ a, (∀ k, k < n → a ≠ slot k) → Memory.find t.au.block a = Memory.find s.au.block a) ∧
      t = s.withAu { s.au with
        block := t.au.block
        row := s.au.row + n
        col := if full then s.au.col + 1 else s.au.col
        phase := if full then (if s.au.col.toNat + 1 = cols s.au then .merge else .selector) else s.au.phase }

/-- A shift-table index beyond its table raises AU_TABLE_INDEX and writes no slot (43_audio_block_decode.md R188, R189, R191;
60_exceptions.md R250). `AU_LAST_N` is among what is kept: AuInv has it 0. -/
def Obligations.TableIndexBeyondFaults : Prop :=
  ∀ (v5 : BitVec 5) (v7 : BitVec 7) (s : State),
    let t := s.withAu { s.au with fault := 24, faultPos := s.au.bitpos, status := .fault }
    (26 < v5.toNat → exec (.auT15Idx v5) s = .next t) ∧
    (124 < v7.toNat → exec (.auT27Idx v7) s = .next t) ∧
    (120 < v7.toNat → exec (.auT37Idx v7) s = .next t)

/-- Where the input ends inside a token of the body: END_TRUNCATED, no fault, nothing delivered; the cursor stands where the
read that failed left it; `BLOCK` and the `blk.*` registers hold no value, so nothing is said of them
(43_audio_block_decode.md R193). -/
def Obligations.EndOfInputTruncates : Prop :=
  ∀ (s : State) (x : AuCtx) (n : Nat), resetPending s.ops = false → s.lz.status ≠ .busy → s.au.status = .busy →
    (s.au.phase = .block ∧ x = .block ∨ s.au.phase = .selector ∧ x = .selector ∨
      s.au.phase = .code ∧ x = .code (decoderOf s.cfg s.au.sel) s.au.sel) →
    decodeAu s.cfg x (bitsAhead s.cfg.bitOrder s.au) = .short n →
    ∃ t, step s = .next t ∧ t = s.withAu { s.au with
      lastN := 0, status := .endTruncated, bitpos := s.au.bitpos + n
      block := t.au.block, freeCtr := t.au.freeCtr, pwr := t.au.pwr, scale := t.au.scale, col := t.au.col
      sel := t.au.sel }

/-! ## ACU: wrap-merge and output -/

/-- `Juggle(wb, bb, sub_len, sub_count)` in closed form (44_audio_merge_output.md R211): each cell of group `i` is the
butterfly of the source values of its pair and of the pair before (the group's two cells of `WRAP` for the first), the
group's two cells of `WRAP` become the last pair's source values, and no other cell changes. -/
def Obligations.JuggleButterflies : Prop :=
  ∀ (ctr wb bb subLen n : Nat) (block wrap : Memory 32),
    let m := juggle ctr wb bb subLen (2 * n) (block, wrap)
    (∀ i, i < subLen →
      let a := fun j => blockCell ctr block (bb + i + (2 * j) * subLen)
      let b := fun j => blockCell ctr block (bb + i + (2 * j + 1) * subLen)
      let r0 := fun j => if j = 0 then wrapCell ctr wrap (wb + 2 * i) else a (j - 1)
      let r1 := fun j => if j = 0 then wrapCell ctr wrap (wb + 2 * i + 1) else b (j - 1)
      (∀ j, j < n →
        Memory.find m.1 (bb + i + (2 * j) * subLen) =
          some (BitVec.ofInt 32 (2 * (r1 j).toInt + ((r0 j).toInt + (a j).toInt))) ∧
        Memory.find m.1 (bb + i + (2 * j + 1) * subLen) =
          some (BitVec.ofInt 32 (2 * (a j).toInt - ((r1 j).toInt + (b j).toInt)))) ∧
      Memory.find m.2 (wb + 2 * i) = some (r0 n) ∧ Memory.find m.2 (wb + 2 * i + 1) = some (r1 n)) ∧
    (∀ x, x < bb ∨ bb + 2 * n * subLen ≤ x → Memory.find m.1 x = Memory.find block x) ∧
    (∀ x, x < wb ∨ wb + 2 * subLen ≤ x → Memory.find m.2 x = Memory.find wrap x)

/-- At level 0 the wrap-merge is skipped (44_audio_merge_output.md R210). At level `k + 1` it is the loop nest of R212 with its
addresses in closed form. Chunk `i` has `cnt` rows from row `i * step` up, at `bb`. Its pass `j` is `Juggle` with group
length `2^(k - j)`, count `2^(j + 1) * cnt` and the cells of `WRAP` from `2 cols - 2 * 2^(k + 1 - j)` up: 0 for the first,
then each where the one before ends. After pass 0, and only with MERGE_PLUS_ONE, one is added to the cells `bb + x * 2^k`
(R213). It touches only `BLOCK` below `blocklen` and `WRAP` below `wraplen` (R214). -/
def Obligations.MergeStaysInsideSpaces : Prop :=
  ∀ (c : Config) (u : Acu),
    (u.level = 0 → wrapMerge c u = u) ∧
    (∀ k, u.level.toNat = k + 1 →
      let ctr := u.freeCtr
      let step := chunkRows u
      let pass := fun (bb cnt j : Nat) (m : Memory 32 × Memory 32) =>
        juggle ctr (2 * 2 ^ (k + 1) - 2 * 2 ^ (k + 1 - j)) bb (2 ^ (k - j)) (2 ^ (j + 1) * cnt) m
      let plusOnes := fun (bb cnt : Nat) (m : Memory 32 × Memory 32) =>
        if c.mergePlusOne then
          ((List.range (2 * cnt)).foldl (fun block x => Memory.put block (bb + x * 2 ^ k)
            (BitVec.ofInt 32 ((blockCell ctr block (bb + x * 2 ^ k)).toInt + 1))) m.1, m.2)
        else m
      let chunk := fun (m : Memory 32 × Memory 32) (i : Nat) =>
        let bb := i * (step * cols u)
        let cnt := min step (rowCount u - i * step)
        (List.range k).foldl (fun m j => pass bb cnt (j + 1) m) (plusOnes bb cnt (pass bb cnt 0 m))
      let m := (List.range ((rowCount u + step - 1) / step)).foldl chunk (u.block, u.wrap)
      wrapMerge c u = { u with block := m.1, wrap := m.2 }) ∧
    wrapMerge c u = { u with block := (wrapMerge c u).block, wrap := (wrapMerge c u).wrap } ∧
    (∀ a, blocklen u ≤ a → Memory.find (wrapMerge c u).block a = Memory.find u.block a) ∧
    (∀ a, wraplen u ≤ a → Memory.find (wrapMerge c u).wrap a = Memory.find u.wrap a)

/-- The last subband of a block is followed by the wrap-merge and then the output, which delivers the block, trimmed to what
the header still owes: each sample is the cell shifted right by the level, rounding down, and narrowed to its low 16 bits
(NARROW = wrap) or clipped to -32768 .. 32767 (NARROW = saturate) (43_audio_block_decode.md R170;
44_audio_merge_output.md R210, R220, R221; 00_scope.md R5); the status is then one under which claims about `PCM` are made
(60_exceptions.md R252) and the cells delivered are valid (70_reset_and_hazards.md R284). -/
def Obligations.OutputDeliversBlock : Prop :=
  ∀ s : State, resetPending s.ops = false → s.lz.status ≠ .busy → s.au.status = .busy →
    (s.au.phase = .merge → step s = .next (s.withAu { wrapMerge s.cfg s.au with phase := .output })) ∧
    (s.au.phase = .output →
      let n := min (blocklen s.au) (s.au.samples.toNat - s.au.emitted.toNat)
      ∃ t, step s = .next t ∧ pcmResult t ∧ (∀ j, j < n → pcmValid t (s.au.emitted.toNat + j)) ∧
        (∀ j, j < n → Memory.find t.au.pcm (s.au.emitted.toNat + j) =
          some (let x := (blockCell s.au.freeCtr s.au.block j).toInt / 2 ^ s.au.level.toNat
            match s.cfg.narrow with
            | .wrap => BitVec.ofInt 16 x
            | .saturate => BitVec.ofInt 16 (max (-32768) (min 32767 x)))) ∧
        (∀ a, a < s.au.emitted.toNat ∨ s.au.emitted.toNat + n ≤ a →
          Memory.find t.au.pcm a = Memory.find s.au.pcm a) ∧
        t.au.lastN.toNat = n ∧
        t = s.withAu { s.au with
          pcm := t.au.pcm, emitted := s.au.emitted + BitVec.ofNat 32 n, lastN := t.au.lastN, status := .ready })

/-- The derived sizes and the chunk length of every level (10_state.md R21); the division by `cols` is exact, or what it is of
makes the chunk one row. -/
def Obligations.DerivedSizes : Prop :=
  ∀ u : Acu,
    cols u = 2 ^ u.level.toNat ∧ 1 ≤ cols u ∧ cols u ≤ 32768 ∧ rowCount u = u.rows.toNat ∧
    blocklen u = cols u * rowCount u ∧ blocklen u ≤ 134184960 ∧ blocklen u < 2 ^ 28 ∧
    wraplen u = 2 * cols u - 2 ∧ wraplen u ≤ 65534 ∧
    chunkRows u = max 1 (2048 / cols u - 2) ∧ (2048 % cols u = 0 ∨ 2048 < 3 * cols u) ∧
    chunkRows u = ([2046, 1022, 510, 254, 126, 62, 30, 14, 6, 2].getD u.level.toNat 1)

/-! ## ACU: commands -/

/-- AU_INIT (42_audio_header.md R150): from any status but BUSY and with no illegal forced count, the header parse begins with
cleared cursor, counters and fault registers; `WRAP` and `BLOCK` hold no value until it succeeds; the header registers keep
their values. -/
def Obligations.AuInitBeginsParse : Prop :=
  ∀ s : State, s.au.status ≠ .busy → s.au.chForce ≠ 3 →
    ∃ t, exec .auInit s = .next t ∧ (∀ a, Memory.find t.au.block a = none) ∧ (∀ a, Memory.find t.au.wrap a = none) ∧
      t = s.withAu { s.au with
        fault := 0, faultPos := 0, lastN := 0, status := .busy, bitpos := 0, emitted := 0, col := 0, phase := .header
        block := t.au.block, wrap := t.au.wrap, freeCtr := t.au.freeCtr, changedAt := none }

/-- AU_NEXT (43_audio_block_decode.md R170; 44_audio_merge_output.md R222, R223): a block begins; or, with every sample
delivered, END_COMPLETE with nothing read; or, after the end, nothing but `AU_LAST_N`. In each case `AU_LAST_N` is 0: no
sample is written yet (10_state.md R20; where a block begins, DEDUCED, notes/assumptions/31.md). That it is executed where the
host changed `IN` since AU_INIT, which the spec leaves outside itself (93_implementation_defined.md U3), is the model's choice,
notes/assumptions/19.md. -/
def Obligations.AuNextBeginsOrEnds : Prop :=
  ∀ s : State,
    (s.au.status = .ready → s.au.emitted ≠ s.au.samples →
      exec .auNext s = .next (s.withAu { s.au with status := .busy, lastN := 0, phase := .block })) ∧
    (s.au.status = .ready → s.au.emitted = s.au.samples →
      exec .auNext s = .next (s.withAu { s.au with lastN := 0, status := .endComplete })) ∧
    (s.au.status = .endComplete ∨ s.au.status = .endTruncated →
      exec .auNext s = .next (s.withAu { s.au with lastN := 0 }))

/-- AU_RESTART (44_audio_merge_output.md R224): the cursor at the start of the body, the counters at zero, READY; `WRAP`, the
header registers and everything else of the spec's state keep their values. That it is executed where the host changed
`IN` since AU_INIT, which the spec leaves outside itself (93_implementation_defined.md U3), is the model's choice,
notes/assumptions/19.md. -/
def Obligations.AuRestartRewinds : Prop :=
  ∀ s : State, s.au.status.hasStream = true →
    exec .auRestart s = .next (s.withAu
      { s.au with
        bitpos := s.au.dataStart, emitted := 0, col := 0, lastN := 0, status := .ready, changedAt := none })

/-- AU_CLEAR_WRAP (44_audio_merge_output.md R225): every cell of `WRAP` is zero; nothing else changes; the command is legal in
READY, END_COMPLETE and END_TRUNCATED. -/
def Obligations.AuClearWrapZeroes : Prop :=
  ∀ s : State, s.au.status.hasStream = true →
    ∃ t, exec .auClearWrap s = .next t ∧
      (∀ a, Memory.find t.au.wrap a = if a < wraplen s.au then some 0 else none) ∧
      t = s.withAu { s.au with wrap := t.au.wrap }

/-- AU_RESET (44_audio_merge_output.md R228; 70_reset_and_hazards.md R271): IDLE, no fault, zero cursor and counters, `WRAP` and
`BLOCK` without a value; `AU_IN_LEN`, `AU_CH_FORCE`, `IN` and `PCM` keep theirs, and LZU is not touched. -/
def Obligations.AuResetClears : Prop :=
  ∀ s : State, s.au.status ≠ .busy →
    ∃ t, exec .auReset s = .next t ∧ t.au.status = .idle ∧ t.au.fault = 0 ∧ t.au.faultPos = 0 ∧ t.au.bitpos = 0 ∧
      t.au.emitted = 0 ∧ t.au.lastN = 0 ∧ (∀ a, Memory.find t.au.block a = none) ∧
      (∀ a, Memory.find t.au.wrap a = none) ∧ t.au.inLen = s.au.inLen ∧ t.au.chForce = s.au.chForce ∧
      t.au.inp = s.au.inp ∧ t.au.pcm = s.au.pcm ∧ t.lz = s.lz ∧ t.cfg = s.cfg ∧ t.ops = s.ops

/-- A command in a status that does not allow it, and AU_INIT with a forced count of 3, do none of their work and raise the
usage fault (60_exceptions.md R247); a command while BUSY is refused (the model's choice for a case the spec leaves outside
itself, 93_implementation_defined.md U2, notes/assumptions/18.md). -/
def Obligations.CommandLegality : Prop :=
  ∀ s : State,
    let usage := s.withAu { s.au with fault := 25, status := .fault }
    ((s.au.status = .idle ∨ s.au.status = .fault) →
      exec .auNext s = .next usage ∧ exec .auRestart s = .next usage ∧ exec .auClearWrap s = .next usage) ∧
    (s.au.status ≠ .busy → s.au.chForce = 3 → exec .auInit s = .next usage) ∧
    (s.lz.status = .busy → exec .lzStart s = .refused .commandWhileBusy ∧ exec .lzReset s = .refused .commandWhileBusy) ∧
    (s.au.status = .busy → ∀ i, i ∈ [Instr.auInit, .auNext, .auRestart, .auClearWrap, .auReset] →
      exec i s = .refused .commandWhileBusy)

/-- Every ACU run ends: from a state that meets the invariant, a BUSY ACU has left BUSY after at most one step more than its
measure (70_reset_and_hazards.md R286); where it ended in a fault, `AU_LAST_N` is 0, because it wrote no sample (10_state.md
R20); and a run that did not end READY, faulted or truncated, delivered nothing to `PCM` (60_exceptions.md R252;
43_audio_block_decode.md R193). -/
def Obligations.AuRunEnds : Prop :=
  ∀ s : State, resetPending s.ops = false → s.lz.status ≠ .busy → s.au.status = .busy → AuInv s.cfg s.au →
    ∃ n t, n ≤ auMeasure s.au + 1 ∧ Host.Core.run Sys2Proof.core n s = .next t ∧ t.au.status ≠ .busy ∧
      (t.au.status = .fault → t.au.lastN = 0) ∧ (t.au.status ≠ .ready → t.au.pcm = s.au.pcm)

/-! ## The whole machine -/

/-- The two units share no state: a step of LZU depends on nothing of ACU and changes nothing of it, and a step of ACU depends
on nothing of LZU (but that LZU is not BUSY) and changes nothing of it (10_state.md R10). -/
def Obligations.UnitsBlindToEachOther : Prop :=
  (∀ s s' t : State, resetPending s.ops = false → resetPending s'.ops = false → s.lz.status = .busy →
    s.cfg = s'.cfg → s.lz = s'.lz → step s = .next t →
    ∃ t', step s' = .next t' ∧ t'.lz = t.lz ∧ t.au = s.au ∧ t'.au = s'.au) ∧
  (∀ s s' t : State, resetPending s.ops = false → resetPending s'.ops = false →
    s.lz.status ≠ .busy → s'.lz.status ≠ .busy → s.au.status = .busy →
    s.cfg = s'.cfg → s.au = s'.au → step s = .next t →
    ∃ t', step s' = .next t' ∧ t'.au = t.au ∧ t.lz = s.lz ∧ t'.lz = s'.lz)

/-- No step of a BUSY unit writes a host-written register, an `IN`, the parameters or the host's pending acts
(10_state.md R32; 20_memory.md R62). -/
def Obligations.RunKeepsHostInputs : Prop :=
  ∀ s t : State, resetPending s.ops = false → s.lz.status = .busy ∨ s.au.status = .busy → step s = .next t →
    t.cfg = s.cfg ∧ t.ops = s.ops ∧ t.lz.inLen = s.lz.inLen ∧ t.lz.outLen = s.lz.outLen ∧ t.lz.inp = s.lz.inp ∧
    t.au.inLen = s.au.inLen ∧ t.au.chForce = s.au.chForce ∧ t.au.inp = s.au.inp

/-- A unit that is not BUSY, FAULT or not, keeps all of its state in every step that is not asked of it: while the other unit
runs, with no act of the host pending, and where the act taken is for the other unit; with nothing asked of either nothing
changes at all (10_state.md R10; 60_exceptions.md R251, R259; 70_reset_and_hazards.md R272). -/
def Obligations.IdleAndFaultedUnitsKeepState : Prop :=
  (∀ s : State, s.ops = [] → s.lz.status ≠ .busy → s.au.status ≠ .busy → step s = .next s) ∧
  (∀ s t : State, resetPending s.ops = false → step s = .next t →
    (s.lz.status ≠ .busy →
      (s.au.status = .busy ∨ s.ops = [] ∨ ∃ a rest, s.ops = a :: rest ∧ actUnit a = some .acu) → t.lz = s.lz) ∧
    (s.au.status ≠ .busy →
      (s.lz.status = .busy ∨ s.ops = [] ∨ ∃ a rest, s.ops = a :: rest ∧ actUnit a = some .lzu) → t.au = s.au))

/-- Every step keeps LZU's invariant; that a register of AW bits stays below `2 ^ AW` is part of it, for every AW
(00_scope.md R3; 10_state.md R11). -/
def Obligations.StepKeepsLzInvariant : Prop :=
  ∀ s t : State, LzInv s.cfg s.lz → step s = .next t → LzInv t.cfg t.lz

/-- Every step keeps ACU's invariant; that a register of AW or AW + 3 bits stays in its range is part of it, for every AW
(00_scope.md R3; 10_state.md R20, R22). -/
def Obligations.StepKeepsAuInvariant : Prop :=
  ∀ s t : State, AuInv s.cfg s.au → step s = .next t → AuInv t.cfg t.au

/-- Every step keeps every memory in canonical form and, in states that meet ACU's invariant, inside its space. -/
def Obligations.StepKeepsMemories : Prop :=
  (∀ s t : State, MemCanonical s → step s = .next t → MemCanonical t) ∧
  (∀ s t : State, AuInv s.cfg s.au → MemInBounds s → step s = .next t → MemInBounds t)

/-- The invariants hold right after reset. -/
def Obligations.ResetMeetsInvariants : Prop :=
  LzInv State.reset.cfg State.reset.lz ∧ AuInv State.reset.cfg State.reset.au ∧ MemCanonical State.reset ∧ MemInBounds State.reset

/-- The WAVE header, field by field: 44 bytes, byte `k` of a number is its bits `8 k` to `8 k + 7`, the numbers are those of the
header registers; and the file: the header, then the cells of `PCM` in address order, `h.samples` of them, each as two bytes,
the low byte first. The layout of the header and the byte order of the samples are presumed: 44_audio_merge_output.md R227
takes them from general knowledge, PRESUMED, notes/assumptions/27.md. -/
def Obligations.WaveHeaderFields : Prop :=
  ∀ u : Acu,
    let le := fun (n v : Nat) => (List.range n).map fun k => BitVec.ofNat 8 (v / 256 ^ k)
    (waveHeader u).length = 44 ∧
    waveHeader u =
      [0x52, 0x49, 0x46, 0x46] ++ le 4 (36 + 2 * u.samples.toNat) ++ [0x57, 0x41, 0x56, 0x45] ++
      [0x66, 0x6D, 0x74, 0x20] ++ le 4 16 ++ le 2 1 ++ le 2 u.channels.toNat ++ le 4 u.rate.toNat ++
      le 4 (u.rate.toNat * (u.channels.toNat * 2)) ++ le 2 (u.channels.toNat * 2) ++ le 2 16 ++
      [0x64, 0x61, 0x74, 0x61] ++ le 4 (2 * u.samples.toNat) ∧
    waveFile u = waveHeader u ++ waveSamples u u.samples.toNat ∧
    ∀ n, (waveSamples u n).length = 2 * n ∧
      ∀ j v, j < n → Memory.find u.pcm j = some v →
        (waveSamples u n)[2 * j]? = some (v.extractLsb' 0 8) ∧ (waveSamples u n)[2 * j + 1]? = some (v.extractLsb' 8 8)
end

