-- ==== Sys2Proof/Laws/Bits.lean ====
section
/-! SUPPORT. Fields of the bit stream and of the LZSS words: a field's value and its bits give each other back, and what
one read of a token can do. -/

namespace Sys2Proof

/-! ## Splitting -/

/-- All that `splitBits` can answer. -/
theorem splitBits_eq_some (n : Nat) (l f r : List Bool) :
    splitBits n l = some (f, r) ↔ l = f ++ r ∧ f.length = n := by
  induction n generalizing l f with
  | zero =>
    simp only [splitBits, Option.some.injEq, Prod.mk.injEq, List.length_eq_zero_iff]
    constructor
    · rintro ⟨rfl, rfl⟩; simp
    · rintro ⟨rfl, rfl⟩; simp
  | succ n ih =>
    cases l with
    | nil =>
      simp only [splitBits, reduceCtorEq, false_iff, not_and]
      intro h
      obtain ⟨rfl, rfl⟩ := List.append_eq_nil_iff.mp h.symm
      simp
    | cons b l =>
      simp only [splitBits, Option.map_eq_some_iff, Prod.exists, Prod.mk.injEq]
      constructor
      · rintro ⟨f', r', h, rfl, rfl⟩
        obtain ⟨rfl, rfl⟩ := (ih l f').mp h
        simp
      · rintro ⟨h, hl⟩
        cases f with
        | nil => simp at hl
        | cons c f =>
          simp only [List.cons_append, List.cons.injEq] at h
          obtain ⟨rfl, rfl⟩ := h
          exact ⟨f, r, (ih _ f).mpr ⟨rfl, by simpa using hl⟩, rfl, rfl⟩

theorem splitBits_append (f r : List Bool) : splitBits f.length (f ++ r) = some (f, r) :=
  (splitBits_eq_some _ _ _ _).mpr ⟨rfl, rfl⟩

theorem splitBits_eq_none (n : Nat) (l : List Bool) : splitBits n l = none ↔ l.length < n := by
  induction n generalizing l with
  | zero => simp [splitBits]
  | succ n ih => cases l with
    | nil => simp [splitBits]
    | cons b l => simp [splitBits, ih]

/-! ## Values and bits -/

@[simp] theorem length_lsbBits (n v : Nat) : (lsbBits n v).length = n := by
  induction n generalizing v with
  | zero => rfl
  | succ n ih => simp [lsbBits, ih]

@[simp] theorem length_fieldBits (o : BitOrder) (n v : Nat) : (fieldBits o n v).length = n := by
  cases o <;> simp [fieldBits]

theorem lsbValue_lsbBits (n v : Nat) : lsbValue (lsbBits n v) = v % 2 ^ n := by
  induction n generalizing v with
  | zero => simp [lsbBits, lsbValue, Nat.mod_one]
  | succ n ih =>
    have h : (v % 2 == 1).toNat = v % 2 := by rcases Nat.mod_two_eq_zero_or_one v with h | h <;> simp [h]
    rw [lsbBits, lsbValue, ih, h, Nat.pow_succ', Nat.mod_mul]

theorem lsbBits_lsbValue (l : List Bool) : lsbBits l.length (lsbValue l) = l := by
  induction l with
  | nil => rfl
  | cons b l ih =>
    have h1 : (b.toNat + 2 * lsbValue l) % 2 = b.toNat := by cases b <;> simp [Nat.add_mod]
    have h2 : (b.toNat + 2 * lsbValue l) / 2 = lsbValue l := by cases b <;> (simp; try omega)
    have h3 : (b.toNat == 1) = b := by cases b <;> rfl
    simp only [List.length_cons, lsbValue, lsbBits, h1, h2, h3, ih]

theorem lsbValue_lt (l : List Bool) : lsbValue l < 2 ^ l.length := by
  induction l with
  | nil => simp [lsbValue]
  | cons b l ih => cases b <;> simp [lsbValue, Nat.pow_succ'] <;> omega

/-- Bit `i` of a value is bit `i` of its list. -/
theorem testBit_lsbValue (l : List Bool) (i : Nat) : (lsbValue l).testBit i = (l[i]?).getD false := by
  induction l generalizing i with
  | nil => simp [lsbValue]
  | cons b l ih =>
    cases i with
    | zero => cases b <;> simp [lsbValue, Nat.testBit_zero, Nat.add_mod]
    | succ i =>
      have h2 : (b.toNat + 2 * lsbValue l) / 2 = lsbValue l := by cases b <;> (simp; try omega)
      simp [lsbValue, Nat.testBit_succ, h2, ih]

theorem lsbValue_append (f r : List Bool) : lsbValue (f ++ r) = lsbValue f + lsbValue r * 2 ^ f.length := by
  induction f with
  | nil => simp [lsbValue]
  | cons b f ih => simp [lsbValue, ih, Nat.pow_succ']; ring

/-- The value of a field's bits. -/
theorem fieldValue_fieldBits (o : BitOrder) (n v : Nat) (h : v < 2 ^ n) : fieldValue o (fieldBits o n v) = v := by
  cases o <;> simp [fieldValue, fieldBits, lsbValue_lsbBits, Nat.mod_eq_of_lt h]

/-- The bits of a field's value. -/
theorem fieldBits_fieldValue (o : BitOrder) (f : List Bool) : fieldBits o f.length (fieldValue o f) = f := by
  cases o with
  | lsbFirst => exact lsbBits_lsbValue f
  | msbFirst =>
    have h := lsbBits_lsbValue f.reverse
    rw [List.length_reverse] at h
    simp [fieldValue, fieldBits, h]

theorem fieldValue_lt (o : BitOrder) (f : List Bool) : fieldValue o f < 2 ^ f.length := by
  cases o with
  | lsbFirst => exact lsbValue_lt f
  | msbFirst => simpa [fieldValue] using lsbValue_lt f.reverse

/-! ## One read of a token -/

/-- A read of a field that stands next. -/
theorem readField_fieldBits (o : BitOrder) (n v : Nat) (h : v < 2 ^ n) (r : List Bool) (u : Nat)
    (next : Nat → List Bool → Nat → Decoded) :
    readField o n (fieldBits o n v ++ r) u next = next v r (u + n) := by
  have hs := splitBits_append (fieldBits o n v) r
  rw [length_fieldBits] at hs
  simp [readField, hs, fieldValue_fieldBits o n v h]

/-- A read of one bit that stands next. -/
theorem readField_bit (o : BitOrder) (b : Bool) (r : List Bool) (u : Nat) (next : Nat → List Bool → Nat → Decoded) :
    readField o 1 (b :: r) u next = next b.toNat r (u + 1) := by
  cases o <;> simp [readField, splitBits, fieldValue, lsbValue]

/-- All that one read can do: the input ends inside it, or the next `n` bits go to the rest of the decoder. -/
theorem readField_cases (o : BitOrder) (n : Nat) (bits : List Bool) (u : Nat)
    (next : Nat → List Bool → Nat → Decoded) :
    (bits.length < n ∧ readField o n bits u next = .short u) ∨
    (∃ f r, bits = f ++ r ∧ f.length = n ∧ fieldBits o n (fieldValue o f) = f ∧ fieldValue o f < 2 ^ n ∧
      readField o n bits u next = next (fieldValue o f) r (u + n)) := by
  cases hs : splitBits n bits with
  | none => exact .inl ⟨(splitBits_eq_none _ _).mp hs, by simp [readField, hs]⟩
  | some p =>
    obtain ⟨f, r⟩ := p
    obtain ⟨h1, h2⟩ := (splitBits_eq_some _ _ _ _).mp hs
    refine .inr ⟨f, r, h1, h2, ?_, ?_, by simp [readField, hs]⟩
    · rw [← h2]; exact fieldBits_fieldValue o f
    · rw [← h2]; exact fieldValue_lt o f

/-! ## LZSS words -/

/-- A bit of a 16-bit word of two bytes. -/
theorem getLsbD_word (b0 b1 : Byte) (i : Nat) :
    (b0 ++ b1 : BitVec 16).getLsbD i = if i < 8 then b1.getLsbD i else b0.getLsbD (i - 8) := by
  have h := BitVec.getLsbD_append (x := b0) (y := b1) (i := i)
  by_cases hi : i < 8
  · rw [if_pos hi]; simpa [hi] using h
  · rw [if_neg hi]; simpa [hi] using h

/-- The prefix word of a prefix's bytes. -/
theorem prefixBytes_eq (o : ByteOrder) (w : BitVec 16) :
    ∃ b0 b1, prefixBytes o w = [b0, b1] ∧ prefixWord o b0 b1 = w := by
  cases o <;> refine ⟨_, _, rfl, BitVec.eq_of_getLsbD_eq fun i hi => ?_⟩ <;>
    simp only [prefixWord, getLsbD_word] <;> interval_cases i <;> simp

/-- The bytes of two bytes' prefix word. -/
theorem prefixBytes_prefixWord (o : ByteOrder) (b0 b1 : Byte) : prefixBytes o (prefixWord o b0 b1) = [b0, b1] := by
  cases o <;> simp only [prefixBytes, prefixWord, List.cons.injEq, and_true] <;>
    constructor <;> refine BitVec.eq_of_getLsbD_eq fun i hi => ?_ <;>
    simp only [BitVec.getLsbD_extractLsb', getLsbD_word] <;> interval_cases i <;> simp

/-- The fields of a back-reference's bytes. -/
theorem refBytes_eq (off : BitVec 12) (lenM3 : BitVec 4) :
    ∃ b1 b2, refBytes off lenM3 = [b1, b2] ∧ refOffset b1 b2 = off ∧ refLenM3 b2 = lenM3 := by
  refine ⟨_, _, rfl, BitVec.eq_of_getLsbD_eq fun i hi => ?_, BitVec.eq_of_getLsbD_eq fun i hi => ?_⟩ <;>
    simp only [refOffset, refLenM3] <;> interval_cases i <;> simp

/-- The bytes of a back-reference's fields. -/
theorem refBytes_fields (b1 b2 : Byte) : refBytes (refOffset b1 b2) (refLenM3 b2) = [b1, b2] := by
  simp only [refBytes, refOffset, refLenM3, List.cons.injEq, and_true]
  constructor <;> refine BitVec.eq_of_getLsbD_eq fun i hi => ?_ <;> interval_cases i <;> simp

end Sys2Proof
end

