-- ==== Sys2Proof/Laws/Memory.lean ====
section
/-! SUPPORT. The memories: a read after a write, the canonical form kept by every operation, and the reset's memories. -/

namespace Sys2Proof.Machine

/-! ## Reading after writing -/

@[simp] theorem Memory.find_nil {w : Nat} (a : Nat) : Memory.find ([] : Memory w) a = none := rfl

/-- A read after a write. -/
theorem Memory.find_put {w : Nat} (m : Memory w) (a b : Nat) (v : BitVec w) :
    Memory.find (Memory.put m a v) b = if b = a then some v else Memory.find m b := by
  induction m with
  | nil => simp [Memory.put, Memory.find]
  | cons c m ih =>
    obtain ⟨k, u⟩ := c
    simp only [Memory.put]
    by_cases h1 : a = k
    · subst h1; simp only [if_true, Memory.find]; split_ifs <;> rfl
    · by_cases h2 : a < k
      · simp only [h1, h2, if_true, if_false, Memory.find]
      · simp only [h1, h2, if_false, Memory.find, ih]
        split_ifs <;> first | rfl | omega

@[simp] theorem Memory.find_put_same {w : Nat} (m : Memory w) (a : Nat) (v : BitVec w) :
    Memory.find (Memory.put m a v) a = some v := by simp [Memory.find_put]

theorem Memory.find_put_other {w : Nat} (m : Memory w) (a b : Nat) (v : BitVec w) (h : b ≠ a) :
    Memory.find (Memory.put m a v) b = Memory.find m b := by simp [Memory.find_put, h]

/-- A read after taking a cell off the list. -/
theorem Memory.find_drop {w : Nat} (m : Memory w) (a b : Nat) :
    Memory.find (Memory.drop m a) b = if b = a then none else Memory.find m b := by
  induction m with
  | nil => simp [Memory.drop]
  | cons c m ih =>
    obtain ⟨k, u⟩ := c
    simp only [Memory.drop] at ih
    simp only [Memory.drop, List.filter_cons]
    by_cases h1 : k = a
    · simp only [h1, bne_self_eq_false, Bool.false_eq_true, if_false, ih, Memory.find]
      split_ifs <;> rfl
    · simp only [bne_iff_ne, ne_eq, h1, not_false_eq_true, if_true, Memory.find, ih]
      split_ifs with h3 h4 <;> first | rfl | omega

/-- A read after a write of a space whose unlisted cells read as `fill`. -/
theorem Memory.find_putFilled {w : Nat} (fill : BitVec w) (m : Memory w) (a b : Nat) (v : BitVec w) :
    (Memory.find (Memory.putFilled fill m a v) b).getD fill =
      if b = a then v else (Memory.find m b).getD fill := by
  unfold Memory.putFilled
  split_ifs with h1 h2 h2
  · simp [Memory.find_drop, h1, h2]
  · simp [Memory.find_drop, h2]
  · simp [h2]
  · simp [Memory.find_put, h2]

/-- The cells `a` to `a + n - 1` of `Memory.zeros` are zero, no other cell is listed. -/
theorem Memory.find_zeros {w : Nat} (n a b : Nat) :
    Memory.find (Memory.zeros a n : Memory w) b = if a ≤ b ∧ b < a + n then some 0 else none := by
  induction n generalizing a with
  | zero => simp [Memory.zeros]
  | succ n ih =>
    simp only [Memory.zeros, Memory.find, ih]
    split_ifs <;> first | rfl | omega

/-- A cell that the list holds is found. -/
theorem Memory.find_of_mem {w : Nat} (fill : Option (BitVec w)) (m : Memory w) (h : Memory.wf fill m)
    (c : Nat × BitVec w) (hc : c ∈ m) : Memory.find m c.1 = some c.2 := by
  induction m with
  | nil => cases hc
  | cons d m ih =>
    obtain ⟨k, u⟩ := d
    obtain ⟨hp, hf⟩ := h
    rw [List.pairwise_cons] at hp
    simp only [Memory.find]
    rcases List.mem_cons.mp hc with rfl | hm
    · simp
    · have := hp.1 c hm
      rw [if_neg (by simp at this; omega)]
      exact ih ⟨hp.2, fun e he => hf e (List.mem_cons_of_mem _ he)⟩ hm

/-- Two memories in canonical form that read alike are equal. -/
theorem Memory.ext_of_find {w : Nat} (fill : Option (BitVec w)) (m n : Memory w) (hm : Memory.wf fill m)
    (hn : Memory.wf fill n) (h : ∀ a, Memory.find m a = Memory.find n a) : m = n := by
  induction m generalizing n with
  | nil =>
    cases n with
    | nil => rfl
    | cons d n => have := Memory.find_of_mem fill _ hn d (by simp); simp [← h] at this
  | cons c m ih =>
    cases n with
    | nil => have := Memory.find_of_mem fill _ hm c (by simp); simp [h] at this
    | cons d n =>
      have hc := Memory.find_of_mem fill _ hm c (by simp)
      have hd := Memory.find_of_mem fill _ hn d (by simp)
      obtain ⟨hmp, hmf⟩ := hm
      obtain ⟨hnp, hnf⟩ := hn
      rw [List.pairwise_cons] at hmp hnp
      have mem_of_find : ∀ (l : Memory w) (a : Nat) (v : BitVec w), Memory.find l a = some v → (a, v) ∈ l := by
        intro l
        induction l with
        | nil => intro a v hv; cases hv
        | cons e l ihl =>
          intro a v hv
          simp only [Memory.find] at hv
          split_ifs at hv with he
          · cases hv; subst he; simp
          · exact List.mem_cons_of_mem _ (ihl a v hv)
      have h1 : d.1 ≤ c.1 := by
        rw [h] at hc
        rcases List.mem_cons.mp (mem_of_find _ _ _ hc) with he | he
        · rw [← he]
        · exact Nat.le_of_lt (hnp.1 _ he)
      have h2 : c.1 ≤ d.1 := by
        rw [← h] at hd
        rcases List.mem_cons.mp (mem_of_find _ _ _ hd) with he | he
        · rw [← he]
        · exact Nat.le_of_lt (hmp.1 _ he)
      have h3 : c.1 = d.1 := by omega
      have h4 : c.2 = d.2 := by
        rw [h, h3, hd] at hc
        exact (Option.some.inj hc).symm
      have hcd : c = d := Prod.ext h3 h4
      subst hcd
      congr 1
      refine ih n ⟨hmp.2, fun e he => hmf e (List.mem_cons_of_mem _ he)⟩
        ⟨hnp.2, fun e he => hnf e (List.mem_cons_of_mem _ he)⟩ fun a => ?_
      by_cases ha : a = c.1
      · have none_of : ∀ l : Memory w, (∀ e ∈ l, c.1 < e.1) → Memory.find l a = none := by
          intro l hl
          cases hf : Memory.find l a with
          | none => rfl
          | some v => have := hl _ (mem_of_find _ _ _ hf); simp [ha] at this
        rw [none_of m hmp.1, none_of n hnp.1]
      · have := h a
        simpa [Memory.find, ha] using this

/-! ## The canonical form -/

@[simp] theorem Memory.wf_nil {w : Nat} (fill : Option (BitVec w)) : Memory.wf fill ([] : Memory w) := by
  simp [Memory.wf]

/-- The cells of a memory after a write: those it had, and the one written. -/
theorem Memory.mem_put {w : Nat} (m : Memory w) (a : Nat) (v : BitVec w) (c : Nat × BitVec w)
    (h : c ∈ Memory.put m a v) : c = (a, v) ∨ c ∈ m := by
  induction m with
  | nil => simpa [Memory.put] using h
  | cons d m ih =>
    obtain ⟨k, u⟩ := d
    simp only [Memory.put] at h
    split_ifs at h
    · rcases List.mem_cons.mp h with h | h
      · exact .inl h
      · exact .inr (List.mem_cons_of_mem _ h)
    · rcases List.mem_cons.mp h with h | h
      · exact .inl h
      · exact .inr h
    · rcases List.mem_cons.mp h with h | h
      · exact .inr (by simp [h])
      · rcases ih h with h | h
        · exact .inl h
        · exact .inr (List.mem_cons_of_mem _ h)

theorem Memory.pairwise_put {w : Nat} (m : Memory w) (a : Nat) (v : BitVec w)
    (h : m.Pairwise fun c d => c.1 < d.1) : (Memory.put m a v).Pairwise fun c d => c.1 < d.1 := by
  induction m with
  | nil => simp [Memory.put]
  | cons d m ih =>
    obtain ⟨k, u⟩ := d
    rw [List.pairwise_cons] at h
    simp only [Memory.put]
    split_ifs with h1 h2
    · subst h1; exact List.pairwise_cons.mpr h
    · refine List.pairwise_cons.mpr ⟨fun c hc => ?_, List.pairwise_cons.mpr h⟩
      rcases List.mem_cons.mp hc with rfl | hc
      · exact h2
      · exact Nat.lt_trans h2 (h.1 c hc)
    · refine List.pairwise_cons.mpr ⟨fun c hc => ?_, ih h.2⟩
      rcases Memory.mem_put m a v c hc with rfl | hc
      · simp; omega
      · exact h.1 c hc

/-- A write keeps the canonical form. -/
theorem Memory.wf_put {w : Nat} (fill : Option (BitVec w)) (m : Memory w) (a : Nat) (v : BitVec w)
    (hv : some v ≠ fill) (h : Memory.wf fill m) : Memory.wf fill (Memory.put m a v) := by
  refine ⟨Memory.pairwise_put m a v h.1, fun c hc => ?_⟩
  rcases Memory.mem_put m a v c hc with rfl | hc
  · exact hv
  · exact h.2 c hc

/-- A write to a space whose unlisted cells hold no value keeps the canonical form. -/
theorem Memory.wf_put_none {w : Nat} (m : Memory w) (a : Nat) (v : BitVec w)
    (h : Memory.wf none m) : Memory.wf none (Memory.put m a v) := Memory.wf_put none m a v (by simp) h

theorem Memory.wf_drop {w : Nat} (fill : Option (BitVec w)) (m : Memory w) (a : Nat)
    (h : Memory.wf fill m) : Memory.wf fill (Memory.drop m a) :=
  ⟨h.1.filter _, fun c hc => h.2 c (List.mem_filter.mp hc).1⟩

/-- A write to a space whose unlisted cells read as `fill` keeps the canonical form. -/
theorem Memory.wf_putFilled {w : Nat} (fill : BitVec w) (m : Memory w) (a : Nat) (v : BitVec w)
    (h : Memory.wf (some fill) m) : Memory.wf (some fill) (Memory.putFilled fill m a v) := by
  unfold Memory.putFilled
  split_ifs with hv
  · exact Memory.wf_drop _ m a h
  · exact Memory.wf_put _ m a v (by simpa using hv) h

theorem Memory.mem_zeros {w : Nat} (n a : Nat) (c : Nat × BitVec w) (h : c ∈ (Memory.zeros a n : Memory w)) :
    a ≤ c.1 ∧ c.1 < a + n := by
  induction n generalizing a with
  | zero => cases h
  | succ n ih =>
    simp only [Memory.zeros] at h
    rcases List.mem_cons.mp h with rfl | h
    · simp
    · have := ih (a + 1) h; omega

theorem Memory.wf_zeros {w : Nat} (n a : Nat) : Memory.wf none (Memory.zeros a n : Memory w) := by
  refine ⟨?_, by simp⟩
  induction n generalizing a with
  | zero => simp [Memory.zeros]
  | succ n ih =>
    simp only [Memory.zeros]
    exact List.pairwise_cons.mpr ⟨fun c hc => by have := Memory.mem_zeros n (a + 1) c hc; simp; omega, ih (a + 1)⟩

/-- The memories right after reset are in canonical form. -/
theorem Memory.wf_reset :
    Memory.wf none State.reset.lz.inp ∧ Memory.wf none State.reset.lz.out ∧
    Memory.wf (some ringFill) State.reset.lz.ring ∧ Memory.wf none State.reset.au.inp ∧
    Memory.wf none State.reset.au.pcm ∧ Memory.wf none State.reset.au.block ∧ Memory.wf none State.reset.au.wrap :=
  ⟨Memory.wf_nil _, Memory.wf_nil _, Memory.wf_nil _, Memory.wf_nil _, Memory.wf_nil _, Memory.wf_nil _,
    Memory.wf_nil _⟩

/-! ## Cells stay inside a space -/

/-- A write inside a space of `n` cells keeps its cells inside. -/
theorem Memory.bounded_put {w : Nat} (n : Nat) (m : Memory w) (a : Nat) (v : BitVec w) (ha : a < n)
    (h : ∀ c ∈ m, c.1 < n) : ∀ c ∈ Memory.put m a v, c.1 < n := by
  intro c hc
  rcases Memory.mem_put m a v c hc with rfl | hc
  · exact ha
  · exact h c hc

theorem Memory.bounded_putFilled {w : Nat} (n : Nat) (fill : BitVec w) (m : Memory w) (a : Nat) (v : BitVec w)
    (ha : a < n) (h : ∀ c ∈ m, c.1 < n) : ∀ c ∈ Memory.putFilled fill m a v, c.1 < n := by
  unfold Memory.putFilled
  split_ifs
  · exact fun c hc => h c (List.mem_filter.mp hc).1
  · exact Memory.bounded_put n m a v ha h

/-! ## RING -/

/-- A read of `RING` after a write to it. -/
theorem ringCell_ringWrite (m : Memory 8) (a b : BitVec 12) (v : Byte) :
    ringCell (ringWrite m a v) b = if b = a then v else ringCell m b := by
  simp only [ringCell, ringWrite, Memory.find_putFilled, BitVec.toNat_eq]

@[simp] theorem ringCell_nil (a : BitVec 12) : ringCell [] a = 0x20 := rfl

end Sys2Proof.Machine
end

