-- ==== Sys2Proof/Laws/State.lean ====
section
/-! SUPPORT. One lemma per field per update of State and of the two units: no later proof unfolds a record update. -/

namespace Sys2Proof.Machine

@[simp] theorem State.withLz_cfg (s : State) (u : Lzu) : (s.withLz u).cfg = s.cfg := rfl
@[simp] theorem State.withLz_lz (s : State) (u : Lzu) : (s.withLz u).lz = u := rfl
@[simp] theorem State.withLz_au (s : State) (u : Lzu) : (s.withLz u).au = s.au := rfl
@[simp] theorem State.withLz_ops (s : State) (u : Lzu) : (s.withLz u).ops = s.ops := rfl
@[simp] theorem State.withLz_self (s : State) : s.withLz s.lz = s := rfl
@[simp] theorem State.withLz_withLz (s : State) (u u' : Lzu) : (s.withLz u).withLz u' = s.withLz u' := rfl

@[simp] theorem State.withAu_cfg (s : State) (u : Acu) : (s.withAu u).cfg = s.cfg := rfl
@[simp] theorem State.withAu_lz (s : State) (u : Acu) : (s.withAu u).lz = s.lz := rfl
@[simp] theorem State.withAu_au (s : State) (u : Acu) : (s.withAu u).au = u := rfl
@[simp] theorem State.withAu_ops (s : State) (u : Acu) : (s.withAu u).ops = s.ops := rfl
@[simp] theorem State.withAu_self (s : State) : s.withAu s.au = s := rfl
@[simp] theorem State.withAu_withAu (s : State) (u u' : Acu) : (s.withAu u).withAu u' = s.withAu u' := rfl

@[simp] theorem State.withOps_cfg (s : State) (l : List HostAct) : (s.withOps l).cfg = s.cfg := rfl
@[simp] theorem State.withOps_lz (s : State) (l : List HostAct) : (s.withOps l).lz = s.lz := rfl
@[simp] theorem State.withOps_au (s : State) (l : List HostAct) : (s.withOps l).au = s.au := rfl
@[simp] theorem State.withOps_ops (s : State) (l : List HostAct) : (s.withOps l).ops = l := rfl
@[simp] theorem State.withOps_self (s : State) : s.withOps s.ops = s := rfl
@[simp] theorem State.withOps_withOps (s : State) (l l' : List HostAct) : (s.withOps l).withOps l' = s.withOps l' := rfl

@[simp] theorem lzRaise_inLen (f : LzCause) (u : Lzu) : (lzRaise f u).inLen = u.inLen := rfl
@[simp] theorem lzRaise_outLen (f : LzCause) (u : Lzu) : (lzRaise f u).outLen = u.outLen := rfl
@[simp] theorem lzRaise_status (f : LzCause) (u : Lzu) : (lzRaise f u).status = .fault := rfl
@[simp] theorem lzRaise_fault (f : LzCause) (u : Lzu) : (lzRaise f u).fault = f.code := rfl
@[simp] theorem lzRaise_faultIp (f : LzCause) (u : Lzu) : (lzRaise f u).faultIp = if f = .usage then u.faultIp else u.ip := rfl
@[simp] theorem lzRaise_faultOp (f : LzCause) (u : Lzu) : (lzRaise f u).faultOp = if f = .usage then u.faultOp else u.op := rfl
@[simp] theorem lzRaise_flags (f : LzCause) (u : Lzu) : (lzRaise f u).flags = u.flags := rfl
@[simp] theorem lzRaise_ip (f : LzCause) (u : Lzu) : (lzRaise f u).ip = u.ip := rfl
@[simp] theorem lzRaise_op (f : LzCause) (u : Lzu) : (lzRaise f u).op = u.op := rfl
@[simp] theorem lzRaise_phase (f : LzCause) (u : Lzu) : (lzRaise f u).phase = u.phase := rfl
@[simp] theorem lzRaise_blkLen (f : LzCause) (u : Lzu) : (lzRaise f u).blkLen = u.blkLen := rfl
@[simp] theorem lzRaise_blkUsed (f : LzCause) (u : Lzu) : (lzRaise f u).blkUsed = u.blkUsed := rfl
@[simp] theorem lzRaise_ctl (f : LzCause) (u : Lzu) : (lzRaise f u).ctl = u.ctl := rfl
@[simp] theorem lzRaise_ctlK (f : LzCause) (u : Lzu) : (lzRaise f u).ctlK = u.ctlK := rfl
@[simp] theorem lzRaise_rp (f : LzCause) (u : Lzu) : (lzRaise f u).rp = u.rp := rfl
@[simp] theorem lzRaise_rawLeft (f : LzCause) (u : Lzu) : (lzRaise f u).rawLeft = u.rawLeft := rfl
@[simp] theorem lzRaise_inp (f : LzCause) (u : Lzu) : (lzRaise f u).inp = u.inp := rfl
@[simp] theorem lzRaise_out (f : LzCause) (u : Lzu) : (lzRaise f u).out = u.out := rfl
@[simp] theorem lzRaise_ring (f : LzCause) (u : Lzu) : (lzRaise f u).ring = u.ring := rfl

@[simp] theorem auRaise_inLen (f : AuCause) (u : Acu) : (auRaise f u).inLen = u.inLen := rfl
@[simp] theorem auRaise_chForce (f : AuCause) (u : Acu) : (auRaise f u).chForce = u.chForce := rfl
@[simp] theorem auRaise_status (f : AuCause) (u : Acu) : (auRaise f u).status = .fault := rfl
@[simp] theorem auRaise_fault (f : AuCause) (u : Acu) : (auRaise f u).fault = f.code := rfl
@[simp] theorem auRaise_faultPos (f : AuCause) (u : Acu) : (auRaise f u).faultPos = if f = .usage then u.faultPos else u.bitpos := rfl
@[simp] theorem auRaise_samples (f : AuCause) (u : Acu) : (auRaise f u).samples = u.samples := rfl
@[simp] theorem auRaise_chStored (f : AuCause) (u : Acu) : (auRaise f u).chStored = u.chStored := rfl
@[simp] theorem auRaise_channels (f : AuCause) (u : Acu) : (auRaise f u).channels = u.channels := rfl
@[simp] theorem auRaise_rate (f : AuCause) (u : Acu) : (auRaise f u).rate = u.rate := rfl
@[simp] theorem auRaise_level (f : AuCause) (u : Acu) : (auRaise f u).level = u.level := rfl
@[simp] theorem auRaise_rows (f : AuCause) (u : Acu) : (auRaise f u).rows = u.rows := rfl
@[simp] theorem auRaise_lastN (f : AuCause) (u : Acu) : (auRaise f u).lastN = u.lastN := rfl
@[simp] theorem auRaise_bitpos (f : AuCause) (u : Acu) : (auRaise f u).bitpos = u.bitpos := rfl
@[simp] theorem auRaise_dataStart (f : AuCause) (u : Acu) : (auRaise f u).dataStart = u.dataStart := rfl
@[simp] theorem auRaise_emitted (f : AuCause) (u : Acu) : (auRaise f u).emitted = u.emitted := rfl
@[simp] theorem auRaise_pwr (f : AuCause) (u : Acu) : (auRaise f u).pwr = u.pwr := rfl
@[simp] theorem auRaise_scale (f : AuCause) (u : Acu) : (auRaise f u).scale = u.scale := rfl
@[simp] theorem auRaise_col (f : AuCause) (u : Acu) : (auRaise f u).col = u.col := rfl
@[simp] theorem auRaise_sel (f : AuCause) (u : Acu) : (auRaise f u).sel = u.sel := rfl
@[simp] theorem auRaise_phase (f : AuCause) (u : Acu) : (auRaise f u).phase = u.phase := rfl
@[simp] theorem auRaise_row (f : AuCause) (u : Acu) : (auRaise f u).row = u.row := rfl
@[simp] theorem auRaise_freeCtr (f : AuCause) (u : Acu) : (auRaise f u).freeCtr = u.freeCtr := rfl
@[simp] theorem auRaise_changedAt (f : AuCause) (u : Acu) : (auRaise f u).changedAt = u.changedAt := rfl
@[simp] theorem auRaise_inp (f : AuCause) (u : Acu) : (auRaise f u).inp = u.inp := rfl
@[simp] theorem auRaise_pcm (f : AuCause) (u : Acu) : (auRaise f u).pcm = u.pcm := rfl
@[simp] theorem auRaise_block (f : AuCause) (u : Acu) : (auRaise f u).block = u.block := rfl
@[simp] theorem auRaise_wrap (f : AuCause) (u : Acu) : (auRaise f u).wrap = u.wrap := rfl

@[simp] theorem lzPush_inLen (b : Byte) (u : Lzu) : (lzPush b u).inLen = u.inLen := rfl
@[simp] theorem lzPush_outLen (b : Byte) (u : Lzu) : (lzPush b u).outLen = u.outLen := rfl
@[simp] theorem lzPush_status (b : Byte) (u : Lzu) : (lzPush b u).status = u.status := rfl
@[simp] theorem lzPush_fault (b : Byte) (u : Lzu) : (lzPush b u).fault = u.fault := rfl
@[simp] theorem lzPush_faultIp (b : Byte) (u : Lzu) : (lzPush b u).faultIp = u.faultIp := rfl
@[simp] theorem lzPush_faultOp (b : Byte) (u : Lzu) : (lzPush b u).faultOp = u.faultOp := rfl
@[simp] theorem lzPush_flags (b : Byte) (u : Lzu) : (lzPush b u).flags = u.flags := rfl
@[simp] theorem lzPush_ip (b : Byte) (u : Lzu) : (lzPush b u).ip = u.ip := rfl
@[simp] theorem lzPush_op (b : Byte) (u : Lzu) : (lzPush b u).op = u.op := rfl
@[simp] theorem lzPush_phase (b : Byte) (u : Lzu) : (lzPush b u).phase = u.phase := rfl
@[simp] theorem lzPush_blkLen (b : Byte) (u : Lzu) : (lzPush b u).blkLen = u.blkLen := rfl
@[simp] theorem lzPush_blkUsed (b : Byte) (u : Lzu) : (lzPush b u).blkUsed = u.blkUsed := rfl
@[simp] theorem lzPush_ctl (b : Byte) (u : Lzu) : (lzPush b u).ctl = u.ctl := rfl
@[simp] theorem lzPush_ctlK (b : Byte) (u : Lzu) : (lzPush b u).ctlK = u.ctlK := rfl
@[simp] theorem lzPush_rp (b : Byte) (u : Lzu) : (lzPush b u).rp = u.rp + 1 := rfl
@[simp] theorem lzPush_rawLeft (b : Byte) (u : Lzu) : (lzPush b u).rawLeft = u.rawLeft := rfl
@[simp] theorem lzPush_inp (b : Byte) (u : Lzu) : (lzPush b u).inp = u.inp := rfl
@[simp] theorem lzPush_out (b : Byte) (u : Lzu) : (lzPush b u).out = u.out := rfl
@[simp] theorem lzPush_ring (b : Byte) (u : Lzu) : (lzPush b u).ring = ringWrite u.ring u.rp b := rfl

@[simp] theorem lzOpenCoded_inLen (c : Config) (u : Lzu) : (lzOpenCoded c u).inLen = u.inLen := rfl
@[simp] theorem lzOpenCoded_outLen (c : Config) (u : Lzu) : (lzOpenCoded c u).outLen = u.outLen := rfl
@[simp] theorem lzOpenCoded_status (c : Config) (u : Lzu) : (lzOpenCoded c u).status = u.status := rfl
@[simp] theorem lzOpenCoded_fault (c : Config) (u : Lzu) : (lzOpenCoded c u).fault = u.fault := rfl
@[simp] theorem lzOpenCoded_faultIp (c : Config) (u : Lzu) : (lzOpenCoded c u).faultIp = u.faultIp := rfl
@[simp] theorem lzOpenCoded_faultOp (c : Config) (u : Lzu) : (lzOpenCoded c u).faultOp = u.faultOp := rfl
@[simp] theorem lzOpenCoded_flags (c : Config) (u : Lzu) : (lzOpenCoded c u).flags = u.flags := rfl
@[simp] theorem lzOpenCoded_ip (c : Config) (u : Lzu) : (lzOpenCoded c u).ip = u.ip := rfl
@[simp] theorem lzOpenCoded_op (c : Config) (u : Lzu) : (lzOpenCoded c u).op = u.op := rfl
@[simp] theorem lzOpenCoded_phase (c : Config) (u : Lzu) : (lzOpenCoded c u).phase = .group := rfl
@[simp] theorem lzOpenCoded_blkLen (c : Config) (u : Lzu) : (lzOpenCoded c u).blkLen = u.blkLen := rfl
@[simp] theorem lzOpenCoded_blkUsed (c : Config) (u : Lzu) : (lzOpenCoded c u).blkUsed = 0 := rfl
@[simp] theorem lzOpenCoded_ctl (c : Config) (u : Lzu) : (lzOpenCoded c u).ctl = u.ctl := rfl
@[simp] theorem lzOpenCoded_ctlK (c : Config) (u : Lzu) : (lzOpenCoded c u).ctlK = u.ctlK := rfl
@[simp] theorem lzOpenCoded_rp (c : Config) (u : Lzu) : (lzOpenCoded c u).rp = c.ringStart := rfl
@[simp] theorem lzOpenCoded_rawLeft (c : Config) (u : Lzu) : (lzOpenCoded c u).rawLeft = u.rawLeft := rfl
@[simp] theorem lzOpenCoded_inp (c : Config) (u : Lzu) : (lzOpenCoded c u).inp = u.inp := rfl
@[simp] theorem lzOpenCoded_out (c : Config) (u : Lzu) : (lzOpenCoded c u).out = u.out := rfl
@[simp] theorem lzOpenCoded_ring (c : Config) (u : Lzu) : (lzOpenCoded c u).ring = [] := rfl

@[simp] theorem advance_inLen (n : Nat) (u : Acu) : (advance n u).inLen = u.inLen := rfl
@[simp] theorem advance_chForce (n : Nat) (u : Acu) : (advance n u).chForce = u.chForce := rfl
@[simp] theorem advance_status (n : Nat) (u : Acu) : (advance n u).status = u.status := rfl
@[simp] theorem advance_fault (n : Nat) (u : Acu) : (advance n u).fault = u.fault := rfl
@[simp] theorem advance_faultPos (n : Nat) (u : Acu) : (advance n u).faultPos = u.faultPos := rfl
@[simp] theorem advance_samples (n : Nat) (u : Acu) : (advance n u).samples = u.samples := rfl
@[simp] theorem advance_chStored (n : Nat) (u : Acu) : (advance n u).chStored = u.chStored := rfl
@[simp] theorem advance_channels (n : Nat) (u : Acu) : (advance n u).channels = u.channels := rfl
@[simp] theorem advance_rate (n : Nat) (u : Acu) : (advance n u).rate = u.rate := rfl
@[simp] theorem advance_level (n : Nat) (u : Acu) : (advance n u).level = u.level := rfl
@[simp] theorem advance_rows (n : Nat) (u : Acu) : (advance n u).rows = u.rows := rfl
@[simp] theorem advance_lastN (n : Nat) (u : Acu) : (advance n u).lastN = u.lastN := rfl
@[simp] theorem advance_bitpos (n : Nat) (u : Acu) : (advance n u).bitpos = u.bitpos + n := rfl
@[simp] theorem advance_dataStart (n : Nat) (u : Acu) : (advance n u).dataStart = u.dataStart := rfl
@[simp] theorem advance_emitted (n : Nat) (u : Acu) : (advance n u).emitted = u.emitted := rfl
@[simp] theorem advance_pwr (n : Nat) (u : Acu) : (advance n u).pwr = u.pwr := rfl
@[simp] theorem advance_scale (n : Nat) (u : Acu) : (advance n u).scale = u.scale := rfl
@[simp] theorem advance_col (n : Nat) (u : Acu) : (advance n u).col = u.col := rfl
@[simp] theorem advance_sel (n : Nat) (u : Acu) : (advance n u).sel = u.sel := rfl
@[simp] theorem advance_phase (n : Nat) (u : Acu) : (advance n u).phase = u.phase := rfl
@[simp] theorem advance_row (n : Nat) (u : Acu) : (advance n u).row = u.row := rfl
@[simp] theorem advance_freeCtr (n : Nat) (u : Acu) : (advance n u).freeCtr = u.freeCtr := rfl
@[simp] theorem advance_changedAt (n : Nat) (u : Acu) : (advance n u).changedAt = u.changedAt := rfl
@[simp] theorem advance_inp (n : Nat) (u : Acu) : (advance n u).inp = u.inp := rfl
@[simp] theorem advance_pcm (n : Nat) (u : Acu) : (advance n u).pcm = u.pcm := rfl
@[simp] theorem advance_block (n : Nat) (u : Acu) : (advance n u).block = u.block := rfl
@[simp] theorem advance_wrap (n : Nat) (u : Acu) : (advance n u).wrap = u.wrap := rfl

@[simp] theorem dropBlock_inLen (u : Acu) : (dropBlock u).inLen = u.inLen := rfl
@[simp] theorem dropBlock_chForce (u : Acu) : (dropBlock u).chForce = u.chForce := rfl
@[simp] theorem dropBlock_status (u : Acu) : (dropBlock u).status = u.status := rfl
@[simp] theorem dropBlock_fault (u : Acu) : (dropBlock u).fault = u.fault := rfl
@[simp] theorem dropBlock_faultPos (u : Acu) : (dropBlock u).faultPos = u.faultPos := rfl
@[simp] theorem dropBlock_samples (u : Acu) : (dropBlock u).samples = u.samples := rfl
@[simp] theorem dropBlock_chStored (u : Acu) : (dropBlock u).chStored = u.chStored := rfl
@[simp] theorem dropBlock_channels (u : Acu) : (dropBlock u).channels = u.channels := rfl
@[simp] theorem dropBlock_rate (u : Acu) : (dropBlock u).rate = u.rate := rfl
@[simp] theorem dropBlock_level (u : Acu) : (dropBlock u).level = u.level := rfl
@[simp] theorem dropBlock_rows (u : Acu) : (dropBlock u).rows = u.rows := rfl
@[simp] theorem dropBlock_lastN (u : Acu) : (dropBlock u).lastN = u.lastN := rfl
@[simp] theorem dropBlock_bitpos (u : Acu) : (dropBlock u).bitpos = u.bitpos := rfl
@[simp] theorem dropBlock_dataStart (u : Acu) : (dropBlock u).dataStart = u.dataStart := rfl
@[simp] theorem dropBlock_emitted (u : Acu) : (dropBlock u).emitted = u.emitted := rfl
@[simp] theorem dropBlock_pwr (u : Acu) : (dropBlock u).pwr = u.pwr := rfl
@[simp] theorem dropBlock_scale (u : Acu) : (dropBlock u).scale = u.scale := rfl
@[simp] theorem dropBlock_col (u : Acu) : (dropBlock u).col = u.col := rfl
@[simp] theorem dropBlock_sel (u : Acu) : (dropBlock u).sel = u.sel := rfl
@[simp] theorem dropBlock_phase (u : Acu) : (dropBlock u).phase = u.phase := rfl
@[simp] theorem dropBlock_row (u : Acu) : (dropBlock u).row = u.row := rfl
@[simp] theorem dropBlock_freeCtr (u : Acu) : (dropBlock u).freeCtr = u.freeCtr + 1 := rfl
@[simp] theorem dropBlock_changedAt (u : Acu) : (dropBlock u).changedAt = u.changedAt := rfl
@[simp] theorem dropBlock_inp (u : Acu) : (dropBlock u).inp = u.inp := rfl
@[simp] theorem dropBlock_pcm (u : Acu) : (dropBlock u).pcm = u.pcm := rfl
@[simp] theorem dropBlock_block (u : Acu) : (dropBlock u).block = [] := rfl
@[simp] theorem dropBlock_wrap (u : Acu) : (dropBlock u).wrap = u.wrap := rfl

@[simp] theorem setSlot_inLen (raw : Int) (u : Acu) : (setSlot raw u).inLen = u.inLen := rfl
@[simp] theorem setSlot_chForce (raw : Int) (u : Acu) : (setSlot raw u).chForce = u.chForce := rfl
@[simp] theorem setSlot_status (raw : Int) (u : Acu) : (setSlot raw u).status = u.status := rfl
@[simp] theorem setSlot_fault (raw : Int) (u : Acu) : (setSlot raw u).fault = u.fault := rfl
@[simp] theorem setSlot_faultPos (raw : Int) (u : Acu) : (setSlot raw u).faultPos = u.faultPos := rfl
@[simp] theorem setSlot_samples (raw : Int) (u : Acu) : (setSlot raw u).samples = u.samples := rfl
@[simp] theorem setSlot_chStored (raw : Int) (u : Acu) : (setSlot raw u).chStored = u.chStored := rfl
@[simp] theorem setSlot_channels (raw : Int) (u : Acu) : (setSlot raw u).channels = u.channels := rfl
@[simp] theorem setSlot_rate (raw : Int) (u : Acu) : (setSlot raw u).rate = u.rate := rfl
@[simp] theorem setSlot_level (raw : Int) (u : Acu) : (setSlot raw u).level = u.level := rfl
@[simp] theorem setSlot_rows (raw : Int) (u : Acu) : (setSlot raw u).rows = u.rows := rfl
@[simp] theorem setSlot_lastN (raw : Int) (u : Acu) : (setSlot raw u).lastN = u.lastN := rfl
@[simp] theorem setSlot_bitpos (raw : Int) (u : Acu) : (setSlot raw u).bitpos = u.bitpos := rfl
@[simp] theorem setSlot_dataStart (raw : Int) (u : Acu) : (setSlot raw u).dataStart = u.dataStart := rfl
@[simp] theorem setSlot_emitted (raw : Int) (u : Acu) : (setSlot raw u).emitted = u.emitted := rfl
@[simp] theorem setSlot_pwr (raw : Int) (u : Acu) : (setSlot raw u).pwr = u.pwr := rfl
@[simp] theorem setSlot_scale (raw : Int) (u : Acu) : (setSlot raw u).scale = u.scale := rfl
@[simp] theorem setSlot_col (raw : Int) (u : Acu) : (setSlot raw u).col = u.col := rfl
@[simp] theorem setSlot_sel (raw : Int) (u : Acu) : (setSlot raw u).sel = u.sel := rfl
@[simp] theorem setSlot_phase (raw : Int) (u : Acu) : (setSlot raw u).phase = u.phase := rfl
@[simp] theorem setSlot_row (raw : Int) (u : Acu) : (setSlot raw u).row = u.row + 1 := rfl
@[simp] theorem setSlot_freeCtr (raw : Int) (u : Acu) : (setSlot raw u).freeCtr = u.freeCtr := rfl
@[simp] theorem setSlot_changedAt (raw : Int) (u : Acu) : (setSlot raw u).changedAt = u.changedAt := rfl
@[simp] theorem setSlot_inp (raw : Int) (u : Acu) : (setSlot raw u).inp = u.inp := rfl
@[simp] theorem setSlot_pcm (raw : Int) (u : Acu) : (setSlot raw u).pcm = u.pcm := rfl
@[simp] theorem setSlot_block (raw : Int) (u : Acu) : (setSlot raw u).block = Memory.put u.block (u.row * cols u + u.col.toNat) (scaledRaw raw u.scale) := rfl
@[simp] theorem setSlot_wrap (raw : Int) (u : Acu) : (setSlot raw u).wrap = u.wrap := rfl

@[simp] theorem endSubband_inLen (u : Acu) : (endSubband u).inLen = u.inLen := rfl
@[simp] theorem endSubband_chForce (u : Acu) : (endSubband u).chForce = u.chForce := rfl
@[simp] theorem endSubband_status (u : Acu) : (endSubband u).status = u.status := rfl
@[simp] theorem endSubband_fault (u : Acu) : (endSubband u).fault = u.fault := rfl
@[simp] theorem endSubband_faultPos (u : Acu) : (endSubband u).faultPos = u.faultPos := rfl
@[simp] theorem endSubband_samples (u : Acu) : (endSubband u).samples = u.samples := rfl
@[simp] theorem endSubband_chStored (u : Acu) : (endSubband u).chStored = u.chStored := rfl
@[simp] theorem endSubband_channels (u : Acu) : (endSubband u).channels = u.channels := rfl
@[simp] theorem endSubband_rate (u : Acu) : (endSubband u).rate = u.rate := rfl
@[simp] theorem endSubband_level (u : Acu) : (endSubband u).level = u.level := rfl
@[simp] theorem endSubband_rows (u : Acu) : (endSubband u).rows = u.rows := rfl
@[simp] theorem endSubband_lastN (u : Acu) : (endSubband u).lastN = u.lastN := rfl
@[simp] theorem endSubband_bitpos (u : Acu) : (endSubband u).bitpos = u.bitpos := rfl
@[simp] theorem endSubband_dataStart (u : Acu) : (endSubband u).dataStart = u.dataStart := rfl
@[simp] theorem endSubband_emitted (u : Acu) : (endSubband u).emitted = u.emitted := rfl
@[simp] theorem endSubband_pwr (u : Acu) : (endSubband u).pwr = u.pwr := rfl
@[simp] theorem endSubband_scale (u : Acu) : (endSubband u).scale = u.scale := rfl
@[simp] theorem endSubband_col (u : Acu) : (endSubband u).col = u.col + 1 := rfl
@[simp] theorem endSubband_sel (u : Acu) : (endSubband u).sel = u.sel := rfl
@[simp] theorem endSubband_phase (u : Acu) : (endSubband u).phase = if u.col.toNat + 1 = cols u then .merge else .selector := rfl
@[simp] theorem endSubband_row (u : Acu) : (endSubband u).row = u.row := rfl
@[simp] theorem endSubband_freeCtr (u : Acu) : (endSubband u).freeCtr = u.freeCtr := rfl
@[simp] theorem endSubband_changedAt (u : Acu) : (endSubband u).changedAt = u.changedAt := rfl
@[simp] theorem endSubband_inp (u : Acu) : (endSubband u).inp = u.inp := rfl
@[simp] theorem endSubband_pcm (u : Acu) : (endSubband u).pcm = u.pcm := rfl
@[simp] theorem endSubband_block (u : Acu) : (endSubband u).block = u.block := rfl
@[simp] theorem endSubband_wrap (u : Acu) : (endSubband u).wrap = u.wrap := rfl

/-- What a host act puts into a register of AW bits fits it, and a number that fits is kept (10_state.md R11). -/
theorem fit_lt (c : Config) (v : Nat) : c.fit v < 2 ^ c.aw := Nat.mod_lt _ (Nat.two_pow_pos _)

theorem fit_of_lt (c : Config) (v : Nat) (h : v < 2 ^ c.aw) : c.fit v = v := Nat.mod_eq_of_lt h

end Sys2Proof.Machine
end

