-- ==== Sys2Proof/Laws/Acu.lean ====
section
/-! SUPPORT. What each shared operation of ACU can do, said once: the derived sizes (10_state.md R21), the bit reader
(40_bit_reader.md), SetSlot and the samples of a code word (43_audio_block_decode.md R173, R179), the end of a subband
(R172) and the selector (R175). -/

namespace Sys2Proof.Machine

/-! ## Sizes -/

theorem cols_pos (u : Acu) : 1 ≤ cols u := Nat.one_le_two_pow

theorem cols_le (u : Acu) : cols u ≤ 32768 := by
  have h : u.level.toNat ≤ 15 := by have := u.level.isLt; omega
  calc cols u ≤ 2 ^ 15 := Nat.pow_le_pow_right (by decide) h
    _ = 32768 := by decide

theorem rowCount_lt (u : Acu) : rowCount u < 4096 := u.rows.isLt

/-- The sizes are those of the header registers. -/
theorem cols_congr (u v : Acu) (h : u.level = v.level) : cols u = cols v := by unfold cols; rw [h]

theorem rowCount_congr (u v : Acu) (h : u.rows = v.rows) : rowCount u = rowCount v := by unfold rowCount; rw [h]

/-! ## The bit reader -/

@[simp] theorem length_streamBits (o : BitOrder) (m : Memory 8) (p n : Nat) : (streamBits o m p n).length = n := by
  induction n generalizing p with
  | zero => rfl
  | succ n ih => simp [streamBits, ih]

@[simp] theorem length_bitsAhead (o : BitOrder) (u : Acu) : (bitsAhead o u).length = bitsLeft u := by simp [bitsAhead]

/-- Bit `i` of a stretch of the stream. -/
theorem getElem?_streamBits (o : BitOrder) (m : Memory 8) (p n i : Nat) (h : i < n) :
    (streamBits o m p n)[i]? = some (streamBit o m (p + i)) := by
  induction n generalizing p i with
  | zero => omega
  | succ n ih =>
    cases i with
    | zero => rfl
    | succ i => simp only [streamBits, List.getElem?_cons_succ, ih (p + 1) i (by omega)]; congr 2; omega

/-- A stretch of the stream in two. -/
theorem streamBits_add (o : BitOrder) (m : Memory 8) (p n k : Nat) :
    streamBits o m p (n + k) = streamBits o m p n ++ streamBits o m (p + n) k := by
  induction n generalizing p with
  | zero => simp [streamBits]
  | succ n ih =>
    rw [show n + 1 + k = (n + k) + 1 by omega]
    simp only [streamBits, ih, List.cons_append]
    congr 3; omega

/-- `IN` as the bit reader sees it is `IN` as it stands, where no byte under the cursor was changed. -/
theorem auView_of_none (u : Acu) (h : u.changedAt = none) : auView u = u.inp := by unfold auView; rw [h]

/-- `IN` as the bit reader sees it is `IN` as it stands, but for the byte noted. -/
theorem auInByte_auView (u : Acu) (a : Nat) (h : u.changedAt ≠ some a) :
    auInByte (auView u) a = auInByte u.inp a := by
  unfold auView
  split
  · rfl
  · rename_i x hx
    rw [hx] at h
    have h : a ≠ x := fun e => h (by simp [e])
    rw [auInByte, auInByte, Memory.find_put_other _ _ _ _ h]

/-- What a placement of a byte does: that byte of `IN`, and a note only where it changes the byte under the cursor. -/
theorem auPlace_spec (a : Nat) (b : Byte) (u : Acu) :
    (∀ x, Memory.find (auPlace a b u).inp x = if x = a then some b else Memory.find u.inp x) ∧
    ((auPlace a b u).changedAt = u.changedAt ∨
      u.bitpos / 8 = a ∧ u.bitpos % 8 ≠ 0 ∧ (auPlace a b u).changedAt = some a) ∧
    auPlace a b u = { u with inp := (auPlace a b u).inp, changedAt := (auPlace a b u).changedAt } := by
  refine ⟨fun x => Memory.find_put _ _ _ _, ?_, rfl⟩
  unfold auPlace
  dsimp only
  split_ifs with h
  · exact .inr ⟨h.1, h.2.1, rfl⟩
  · exact .inl rfl

/-- The bits of a token that is all there keep the cursor inside its register of AW + 3 bits (10_state.md R22). -/
theorem advance_bitpos_lt (w n : Nat) (u : Acu) (h : n ≤ bitsLeft u) (hi : u.inLen < 2 ^ w) (hb : u.bitpos < 2 ^ (w + 3)) :
    (advance n u).bitpos < 2 ^ (w + 3) := by
  have : 2 ^ (w + 3) = 8 * 2 ^ w := by ring
  simp only [advance_bitpos, bitsLeft] at *
  omega

/-- A token of `n` bits takes `n` bits of those left. -/
theorem bitsLeft_advance (n : Nat) (u : Acu) : bitsLeft (advance n u) = bitsLeft u - n := by
  simp only [bitsLeft, advance_bitpos, advance_inLen]; omega

/-! ## Samples into slots -/

/-- All that a code word's samples do to the registers: the row goes on by as many as the subband has left. -/
theorem putRaws_eq (raws : List Int) (u : Acu) :
    putRaws raws u = { u with
      block := (putRaws raws u).block
      row := u.row + min raws.length (rowCount u - u.row) } := by
  induction raws generalizing u with
  | nil => simp [putRaws]
  | cons r raws ih =>
    unfold putRaws
    split_ifs with h
    · rw [ih]
      have h1 : rowCount (setSlot r u) = rowCount u := rfl
      simp only [h1, setSlot_row, List.length_cons]
      have h2 : u.row + 1 + min raws.length (rowCount u - (u.row + 1)) =
        u.row + min (raws.length + 1) (rowCount u - u.row) := by omega
      rw [h2]; rfl
    · have : rowCount u - u.row = 0 := by omega
      simp [this]

theorem slot_ne (w r r' c : Nat) (hw : 1 ≤ w) (h : r ≠ r') : r * w + c ≠ r' * w + c := by
  intro hc
  exact h (Nat.eq_of_mul_eq_mul_right hw (by omega))

/-- The cells a code word's samples leave alone. -/
theorem putRaws_other (raws : List Int) (u : Acu) (a : Nat)
    (h : ∀ k, k < min raws.length (rowCount u - u.row) → a ≠ (u.row + k) * cols u + u.col.toNat) :
    Memory.find (putRaws raws u).block a = Memory.find u.block a := by
  induction raws generalizing u with
  | nil => rfl
  | cons r raws ih =>
    unfold putRaws
    split_ifs with hr
    · have h1 : rowCount (setSlot r u) = rowCount u := rfl
      have h2 : cols (setSlot r u) = cols u := rfl
      rw [ih (setSlot r u) fun k hk => ?_, setSlot_block, Memory.find_put_other]
      · have := h 0 (by simp only [List.length_cons]; omega); simpa using this
      · have := h (k + 1) (by simp only [h1, setSlot_row, List.length_cons] at *; omega)
        rw [h2, setSlot_row, setSlot_col, show u.row + 1 + k = u.row + (k + 1) by omega]
        exact this
    · rfl

/-- The slots that a code word's samples fill. -/
theorem putRaws_slot (raws : List Int) (u : Acu) (k : Nat) (hk : k < raws.length) (hr : u.row + k < rowCount u) :
    Memory.find (putRaws raws u).block ((u.row + k) * cols u + u.col.toNat) = some (scaledRaw raws[k] u.scale) := by
  induction raws generalizing u k with
  | nil => simp at hk
  | cons r raws ih =>
    unfold putRaws
    rw [if_pos (by omega)]
    have h1 : rowCount (setSlot r u) = rowCount u := rfl
    have h2 : cols (setSlot r u) = cols u := rfl
    cases k with
    | zero =>
      rw [putRaws_other _ _ _ fun k _ => ?_]
      · simp
      · rw [h2, setSlot_row, setSlot_col]
        exact slot_ne _ _ _ _ (cols_pos u) (by omega)
    | succ k =>
      have := ih (setSlot r u) k (by simpa using hk) (by rw [setSlot_row, h1]; omega)
      rw [h2, setSlot_row, setSlot_col, setSlot_scale, show u.row + 1 + k = u.row + (k + 1) by omega] at this
      simpa using this

/-- Slots are cells of `BLOCK`. -/
theorem slot_lt (r w n c : Nat) (hr : r < n) (hc : c < w) : r * w + c < w * n := by
  calc r * w + c < r * w + w := by omega
    _ = (r + 1) * w := by ring
    _ ≤ n * w := Nat.mul_le_mul_right w hr
    _ = w * n := Nat.mul_comm n w

/-- A code word's samples keep the canonical form of `BLOCK` and stay inside it. -/
theorem putRaws_keeps (raws : List Int) (u : Acu) :
    (Memory.wf none u.block → Memory.wf none (putRaws raws u).block) ∧
    (u.col.toNat < cols u → (∀ c ∈ u.block, c.1 < blocklen u) → ∀ c ∈ (putRaws raws u).block, c.1 < blocklen u) := by
  induction raws generalizing u with
  | nil => exact ⟨id, fun _ => id⟩
  | cons r raws ih =>
    unfold putRaws
    split_ifs with h
    · obtain ⟨h1, h2⟩ := ih (setSlot r u)
      refine ⟨fun hw => h1 (Memory.wf_put_none _ _ _ hw), fun hc hb => h2 hc ?_⟩
      exact Memory.bounded_put _ _ _ _ (slot_lt _ _ _ _ h hc) hb
    · exact ⟨id, fun _ => id⟩

/-! ## The end of a subband -/

/-- After a column: the next one, or the wrap-merge after the last (R172). -/
theorem endSubband_cases (u : Acu) (h : u.col.toNat < cols u) :
    ((endSubband u).phase = .selector ∧ (endSubband u).col.toNat < cols (endSubband u)) ∨
    ((endSubband u).phase = .merge ∧ (endSubband u).col.toNat = cols (endSubband u)) := by
  have h1 : (u.col + 1).toNat = u.col.toNat + 1 := by have := cols_le u; bv_omega
  have h2 : cols (endSubband u) = cols u := rfl
  rw [h2, endSubband_col, endSubband_phase, h1]
  split_ifs with hc
  · exact .inr ⟨rfl, hc⟩
  · exact .inl ⟨rfl, by omega⟩

/-- After a code word: the subband goes on, or it ends (R179). -/
theorem closeSubband_cases (u : Acu) :
    (u.row < rowCount u ∧ closeSubband u = u) ∨ (rowCount u ≤ u.row ∧ closeSubband u = endSubband u) := by
  unfold closeSubband
  split_ifs with h
  · exact .inr ⟨h, rfl⟩
  · exact .inl ⟨by omega, rfl⟩

/-! ## Code words and selectors -/

/-- A code word at a slot of `BLOCK`. -/
theorem emitRaws_slot (raws : List Int) (s : State) (hc : s.au.col.toNat < cols s.au)
    (hr : s.au.row < rowCount s.au) : emitRaws raws s = .next (s.withAu (closeSubband (putRaws raws s.au))) := by
  unfold emitRaws
  rw [if_pos (by simp [slotExists, colExists, hc, hr])]

/-- All that a code word can do. -/
theorem emitRaws_cases (raws : List Int) (s : State) :
    (s.au.col.toNat < cols s.au ∧ s.au.row < rowCount s.au ∧
      emitRaws raws s = .next (s.withAu (closeSubband (putRaws raws s.au)))) ∨
    emitRaws raws s = .fault .slotOutsideBlock := by
  unfold emitRaws
  split_ifs with h
  · simp only [slotExists, colExists, Bool.and_eq_true, decide_eq_true_eq] at h
    exact .inl ⟨h.1, h.2, rfl⟩
  · exact .inr rfl

/-- A selector whose decoder is BAD. -/
theorem beginSubband_bad (sel : BitVec 5) (s : State) (hd : decoderOf s.cfg sel = .bad) :
    beginSubband sel s = .next (s.withAu (auRaise .unimplementedSelector { s.au with sel := sel, row := 0 })) := by
  unfold beginSubband; simp only [hd]

/-- A selector whose decoder is ZERO. -/
theorem beginSubband_zero (sel : BitVec 5) (s : State) (hd : decoderOf s.cfg sel = .zero)
    (hc : s.au.col.toNat < cols s.au) :
    beginSubband sel s = .next (s.withAu (endSubband
      (putRaws (List.replicate (rowCount s.au) 0) { s.au with sel := sel, row := 0 }))) := by
  unfold beginSubband
  simp only [hd]
  exact if_pos (by simp only [colExists]; exact decide_eq_true hc)

/-- A selector whose decoder reads code words. -/
theorem beginSubband_code (sel : BitVec 5) (s : State) (hz : decoderOf s.cfg sel ≠ .zero)
    (hb : decoderOf s.cfg sel ≠ .bad) (hc : s.au.col.toNat < cols s.au) (hr : rowCount s.au ≠ 0) :
    beginSubband sel s = .next (s.withAu { s.au with sel := sel, row := 0, phase := .code }) := by
  unfold beginSubband
  have h1 : colExists { s.au with sel := sel, row := 0 } = true := by
    simp only [colExists]; exact decide_eq_true hc
  have h2 : closeSubband { s.au with sel := sel, row := 0, phase := .code } =
      { s.au with sel := sel, row := 0, phase := .code } := by
    unfold closeSubband; exact if_neg (by change ¬ rowCount s.au ≤ 0; omega)
  cases hd : decoderOf s.cfg sel <;> simp_all

end Sys2Proof.Machine
end

