-- ==== Sys2Proof/Laws/Merge.lean ====
section
/-! SUPPORT. What the operations of the wrap-merge and of the output can do (44_audio_merge_output.md R211 to R213, R220):
the cells one group of butterflies writes and the source values it leaves, and that every operation keeps the canonical
form and stays inside its space. -/

namespace Sys2Proof.Machine

/-- A read of `BLOCK` after a write to it. -/
theorem blockCell_put (ctr : Nat) (m : Memory 32) (a b : Nat) (v : Cell32) :
    blockCell ctr (Memory.put m a v) b = if b = a then v else blockCell ctr m b := by
  simp only [blockCell, Memory.find_put]; split_ifs <;> rfl

/-- A read of `WRAP` after a write to it. -/
theorem wrapCell_put (ctr : Nat) (m : Memory 32) (a b : Nat) (v : Cell32) :
    wrapCell ctr (Memory.put m a v) b = if b = a then v else wrapCell ctr m b := by
  simp only [wrapCell, Memory.find_put]; split_ifs <;> rfl

/-! ## One group -/

/-- The cells that a group of butterflies leaves alone. -/
theorem butterflies_other (ctr stride n p : Nat) (r0 r1 : Cell32) (block : Memory 32) (x : Nat)
    (h : ∀ j, j < 2 * n → x ≠ p + j * stride) :
    Memory.find (butterflies ctr stride n p r0 r1 block).1 x = Memory.find block x := by
  induction n generalizing p r0 r1 block with
  | zero => rfl
  | succ n ih =>
    simp only [butterflies]
    rw [ih _ _ _ _ fun j hj => ?_, Memory.find_put_other, Memory.find_put_other]
    · have := h 0 (by omega); simpa using this
    · have := h 1 (by omega); simpa using this
    · have := h (j + 2) (by omega)
      rw [Nat.add_mul] at this; omega

/-- The source values a group of butterflies leaves: those of its last pair, or those it began with. -/
theorem butterflies_last (ctr stride n p : Nat) (r0 r1 : Cell32) (block : Memory 32) (hs : 1 ≤ stride) :
    (butterflies ctr stride n p r0 r1 block).2 =
      if n = 0 then (r0, r1)
      else (blockCell ctr block (p + (2 * (n - 1)) * stride), blockCell ctr block (p + (2 * (n - 1) + 1) * stride)) := by
  induction n generalizing p r0 r1 block with
  | zero => rfl
  | succ n ih =>
    simp only [butterflies]
    rw [ih]
    cases n with
    | zero => simp [blockCell_put]; intro h; omega
    | succ n =>
      have e1 : p + 2 * stride + 2 * n * stride = p + 2 * (n + 1) * stride := by ring
      have e2 : p + 2 * stride + (2 * n + 1) * stride = p + (2 * (n + 1) + 1) * stride := by ring
      have g : ∀ k, p + 2 * stride + k * stride ≠ p ∧ p + 2 * stride + k * stride ≠ p + stride := by
        intro k; have := Nat.zero_le (k * stride); omega
      simp only [Nat.add_one_ne_zero, if_false, Nat.add_sub_cancel, blockCell_put]
      rw [if_neg (g _).2, if_neg (g _).1, if_neg (g _).2, if_neg (g _).1, e1, e2]

/-- The cells that a group of butterflies writes: pair `j` from its own source values and those of the pair before, the
ones the group began with for the first (R211). -/
theorem butterflies_pair (ctr stride n p : Nat) (r0 r1 : Cell32) (block : Memory 32) (hs : 1 ≤ stride) (j : Nat)
    (hj : j < n) :
    let a := fun k => blockCell ctr block (p + (2 * k) * stride)
    let b := fun k => blockCell ctr block (p + (2 * k + 1) * stride)
    let q0 := if j = 0 then r0 else a (j - 1)
    let q1 := if j = 0 then r1 else b (j - 1)
    let m := (butterflies ctr stride n p r0 r1 block).1
    Memory.find m (p + (2 * j) * stride) = some (wrap32 (2 * q1.toInt + (q0.toInt + (a j).toInt))) ∧
    Memory.find m (p + (2 * j + 1) * stride) = some (wrap32 (2 * (a j).toInt - (q1.toInt + (b j).toInt))) := by
  induction n generalizing p r0 r1 block j with
  | zero => omega
  | succ n ih =>
    have g : ∀ k, p + 2 * stride + k * stride ≠ p ∧ p + 2 * stride + k * stride ≠ p + stride := by
      intro k; have := Nat.zero_le (k * stride); omega
    have ne1 : stride ≠ 0 := by omega
    intro a b q0 q1 m
    cases j with
    | zero =>
      simp only [m, butterflies]
      rw [butterflies_other _ _ _ _ _ _ _ _ fun k _ => by have := (g k).1; simp; omega,
        butterflies_other _ _ _ _ _ _ _ _ fun k _ => by have := (g k).2; simp; omega]
      simp [Memory.find_put, blockCell_put, a, b, q0, q1, ne1]
    | succ j =>
      have e0 : ∀ k, p + 2 * stride + 2 * k * stride = p + 2 * (k + 1) * stride := fun k => by ring
      have e1 : ∀ k, p + 2 * stride + (2 * k + 1) * stride = p + (2 * (k + 1) + 1) * stride := fun k => by ring
      have h := ih (p + 2 * stride) (blockCell ctr block p)
        (blockCell ctr (Memory.put block p (wrap32 (2 * r1.toInt + (r0.toInt + (blockCell ctr block p).toInt)))) (p + stride))
        (Memory.put (Memory.put block p (wrap32 (2 * r1.toInt + (r0.toInt + (blockCell ctr block p).toInt)))) (p + stride)
          (wrap32 (2 * (blockCell ctr block p).toInt - (r1.toInt +
            (blockCell ctr (Memory.put block p (wrap32 (2 * r1.toInt + (r0.toInt + (blockCell ctr block p).toInt))))
              (p + stride)).toInt))))
        j (by omega)
      have gc : ∀ k, ∀ v w : Cell32, blockCell ctr (Memory.put (Memory.put block p v) (p + stride) w)
          (p + 2 * stride + k * stride) = blockCell ctr block (p + 2 * stride + k * stride) := by
        intro k v w; rw [blockCell_put, blockCell_put, if_neg (g k).2, if_neg (g k).1]
      simp only [gc] at h
      simp only [e0, e1] at h
      cases j with
      | zero => simpa [m, butterflies, a, b, q0, q1, blockCell_put, ne1] using h
      | succ j => simpa [m, butterflies, a, b, q0, q1, blockCell_put, ne1] using h

/-- A group of butterflies keeps the canonical form, and stays inside a space that its cells are in. -/
theorem butterflies_keeps (ctr stride n p : Nat) (r0 r1 : Cell32) (block : Memory 32) (size : Nat) :
    (Memory.wf none block → Memory.wf none (butterflies ctr stride n p r0 r1 block).1) ∧
    (p + (2 * n - 1) * stride < size → (∀ c ∈ block, c.1 < size) →
      ∀ c ∈ (butterflies ctr stride n p r0 r1 block).1, c.1 < size) := by
  induction n generalizing p r0 r1 block with
  | zero => exact ⟨id, fun _ => id⟩
  | succ n ih =>
    obtain ⟨h1, h2⟩ := ih (p + 2 * stride) (blockCell ctr block p) _ _
    refine ⟨fun hw => h1 (Memory.wf_put_none _ _ _ (Memory.wf_put_none _ _ _ hw)), fun hp hb => ?_⟩
    rw [show 2 * (n + 1) - 1 = 2 * n + 1 by omega, Nat.add_mul] at hp
    have hq : p + stride < size := by have := Nat.zero_le (2 * n * stride); omega
    have hb2 := Memory.bounded_put size _ (p + stride) (wrap32 (2 * (blockCell ctr block p).toInt - (r1.toInt +
      (blockCell ctr (Memory.put block p (wrap32 (2 * r1.toInt + (r0.toInt + (blockCell ctr block p).toInt))))
        (p + stride)).toInt))) hq (Memory.bounded_put size _ p
        (wrap32 (2 * r1.toInt + (r0.toInt + (blockCell ctr block p).toInt))) (by omega) hb)
    cases n with
    | zero => exact hb2
    | succ n =>
      refine h2 ?_ hb2
      have e : 2 * (n + 1) * stride + 1 * stride = (2 * (n + 1) - 1) * stride + 2 * stride := by
        rw [show 2 * (n + 1) - 1 = 2 * n + 1 by omega]; ring
      omega

/-! ## The plus-one step -/

/-- The plus-one step keeps the canonical form, and stays inside a space that its cells are in. -/
theorem plusOne_keeps (ctr stride n a : Nat) (block : Memory 32) (size : Nat) :
    (Memory.wf none block → Memory.wf none (plusOne ctr stride n a block)) ∧
    (a + (n - 1) * stride < size → (∀ c ∈ block, c.1 < size) → ∀ c ∈ plusOne ctr stride n a block, c.1 < size) := by
  induction n generalizing a block with
  | zero => exact ⟨id, fun _ => id⟩
  | succ n ih =>
    obtain ⟨h1, h2⟩ := ih (a + stride) (Memory.put block a (wrap32 ((blockCell ctr block a).toInt + 1)))
    refine ⟨fun hw => h1 (Memory.wf_put_none _ _ _ hw), fun hp hb => ?_⟩
    rw [Nat.add_sub_cancel] at hp
    have hb1 := Memory.bounded_put size _ a (wrap32 ((blockCell ctr block a).toInt + 1)) (by omega) hb
    cases n with
    | zero => exact hb1
    | succ n => exact h2 (by rw [Nat.add_sub_cancel]; rw [Nat.add_mul] at hp; omega) hb1

/-- The plus-one step adds one to each of its cells and leaves every other alone. -/
theorem plusOne_cell (ctr stride n a : Nat) (block : Memory 32) (hs : 1 ≤ stride) :
    (∀ k, k < n → Memory.find (plusOne ctr stride n a block) (a + k * stride) =
      some (wrap32 ((blockCell ctr block (a + k * stride)).toInt + 1))) ∧
    (∀ x, (∀ k, k < n → x ≠ a + k * stride) → Memory.find (plusOne ctr stride n a block) x = Memory.find block x) := by
  induction n generalizing a block with
  | zero => exact ⟨fun k hk => absurd hk (by omega), fun _ _ => rfl⟩
  | succ n ih =>
    obtain ⟨h1, h2⟩ := ih (a + stride) (Memory.put block a (wrap32 ((blockCell ctr block a).toInt + 1)))
    have g : ∀ k, a + stride + k * stride ≠ a := by intro k; have := Nat.zero_le (k * stride); omega
    constructor
    · intro k hk
      simp only [plusOne]
      cases k with
      | zero =>
        rw [h2 _ fun k _ => by have := g k; simp; omega]
        simp
      | succ k =>
        have h := h1 k (by omega)
        rw [blockCell_put, if_neg (g k)] at h
        rw [show a + (k + 1) * stride = a + stride + k * stride by ring]
        exact h
    · intro x hx
      simp only [plusOne]
      rw [h2 x fun k hk => ?_, Memory.find_put_other]
      · have := hx 0 (by omega); simpa using this
      · have := hx (k + 1) (by omega); rw [Nat.add_mul] at this; omega

/-- The plus-one step as a loop over its cells in rising order (R212, R213). -/
theorem plusOne_eq_foldl (ctr stride n a : Nat) (block : Memory 32) :
    plusOne ctr stride n a block = (List.range n).foldl
      (fun b i => Memory.put b (a + i * stride) (wrap32 ((blockCell ctr b (a + i * stride)).toInt + 1))) block := by
  induction n generalizing a block with
  | zero => rfl
  | succ n ih =>
    rw [plusOne, ih, List.range_succ_eq_map, List.foldl_cons, List.foldl_map]
    simp only [Nat.zero_mul, Nat.add_zero, Nat.succ_eq_add_one, Nat.add_mul, Nat.one_mul, Nat.add_assoc,
      Nat.add_comm stride]

/-! ## The passes and the chunks -/

/-- The later passes as a loop: pass `j` of `k` has half the group length and twice the count of the one before, and its
cells of `WRAP` begin where those of the one before end (R212, R214). -/
theorem laterPasses_eq_foldl (ctr bb k wb n : Nat) (m : Memory 32 × Memory 32) :
    laterPasses ctr bb k wb n m = (List.range k).foldl
      (fun m j => juggle ctr (wb + 2 * 2 ^ k - 2 * 2 ^ (k - j)) bb (2 ^ (k - 1 - j)) (2 ^ (j + 1) * n) m) m := by
  induction k generalizing wb n m with
  | zero => rfl
  | succ k ih =>
    rw [laterPasses, ih, List.range_succ_eq_map, List.foldl_cons, List.foldl_map]
    have e (j : Nat) : wb + 2 * 2 ^ k + 2 * 2 ^ k - 2 * 2 ^ (k - j) = wb + 2 * 2 ^ (k + 1) - 2 * 2 ^ (k + 1 - j.succ) := by
      rw [Nat.succ_eq_add_one, Nat.add_sub_add_right, Nat.pow_succ]; omega
    have e' (j : Nat) : 2 ^ (k - 1 - j) = 2 ^ (k + 1 - 1 - j.succ) := by congr 1; omega
    have e'' (j : Nat) : 2 ^ (j + 1) * (2 * n) = 2 ^ (j.succ + 1) * n := by
      rw [Nat.succ_eq_add_one, Nat.pow_succ 2 (j + 1), Nat.mul_assoc]
    simp only [e, e', e'', Nat.sub_zero, Nat.add_sub_cancel, Nat.zero_add, Nat.pow_one]

/-- The chunks as a loop: chunk `i` has the rows from `i * chunk` up, at most `chunk` of them (R212). -/
theorem mergeChunks_eq_foldl (ctr : Nat) (onePlus : Bool) (k chunk width : Nat) (hc : 1 ≤ chunk) (fuel todo bb : Nat)
    (hf : todo ≤ fuel) (m : Memory 32 × Memory 32) (h0 : fuel = 0 ∨ 1 ≤ todo) :
    mergeChunks ctr onePlus k chunk width fuel todo bb m = (List.range ((todo + chunk - 1) / chunk)).foldl
      (fun m i => mergeChunk ctr onePlus k (bb + i * (chunk * width)) (min chunk (todo - i * chunk)) m) m := by
  induction fuel generalizing todo bb m with
  | zero =>
    obtain rfl : todo = 0 := by omega
    rw [show (0 + chunk - 1) / chunk = 0 from Nat.div_eq_of_lt (by omega)]; rfl
  | succ fuel ih =>
    have hn : 1 ≤ todo := by omega
    rw [mergeChunks]
    split_ifs with h
    · rw [show (todo + chunk - 1) / chunk = 1 from Nat.div_eq_of_lt_le (by omega) (by omega)]
      simp [List.range_succ]
    · rw [ih _ _ (by omega) _ (by omega)]
      have e : (todo + chunk - 1) / chunk = (todo - chunk + chunk - 1) / chunk + 1 := by
        rw [← Nat.add_div_right _ hc]; congr 1; omega
      rw [e, List.range_succ_eq_map, List.foldl_cons, List.foldl_map]
      have e1 (i : Nat) : bb + chunk * width + i * (chunk * width) = bb + i.succ * (chunk * width) := by
        rw [Nat.succ_mul]; omega
      have e2 (i : Nat) : todo - chunk - i * chunk = todo - i.succ * chunk := by rw [Nat.succ_mul]; omega
      simp only [e1, e2, Nat.zero_mul, Nat.add_zero, Nat.sub_zero]

/-! ## The output -/

/-- The samples that are delivered, and no others. -/
theorem deliver_find (c : Config) (u : Acu) (base n j : Nat) (pcm : Memory 16) (a : Nat) :
    Memory.find (deliver c u base n j pcm) a =
      if base + j ≤ a ∧ a < base + j + n then some (sampleOf c u (a - base)) else Memory.find pcm a := by
  induction n generalizing j pcm with
  | zero => rw [if_neg (by omega)]; rfl
  | succ n ih =>
    rw [deliver, ih, Memory.find_put]
    by_cases h : a = base + j
    · subst h
      rw [if_neg (by omega), if_pos rfl, if_pos (by omega), Nat.add_sub_cancel_left]
    · rw [if_neg h]
      exact if_congr (by omega) rfl rfl

/-- The output keeps the canonical form of `PCM`. -/
theorem deliver_wf (c : Config) (u : Acu) (base n j : Nat) (pcm : Memory 16) (h : Memory.wf none pcm) :
    Memory.wf none (deliver c u base n j pcm) := by
  induction n generalizing j pcm with
  | zero => exact h
  | succ n ih => exact ih (j + 1) _ (Memory.wf_put_none _ _ _ h)

/-! ## The WAVE file -/

/-- The bytes of the samples: two for each cell, the low byte first (R227). -/
theorem waveSamples_bytes (u : Acu) (n : Nat) :
    (waveSamples u n).length = 2 * n ∧
    ∀ j, j < n → (waveSamples u n)[2 * j]? = some (BitVec.ofNat 8 (pcmCell u.pcm j).toNat) ∧
      (waveSamples u n)[2 * j + 1]? = some (BitVec.ofNat 8 ((pcmCell u.pcm j).toNat / 256)) := by
  induction n with
  | zero => exact ⟨rfl, fun j hj => absurd hj (by omega)⟩
  | succ n ih =>
    obtain ⟨hl, hb⟩ := ih
    have e : waveSamples u (n + 1) = waveSamples u n ++ le16 (pcmCell u.pcm n).toNat := by
      simp only [waveSamples, List.range_succ, List.flatMap_append, List.flatMap_cons, List.flatMap_nil, List.append_nil]
    have h2 : (le16 (pcmCell u.pcm n).toNat).length = 2 := rfl
    refine ⟨by rw [e, List.length_append, hl, h2]; omega, fun j hj => ?_⟩
    rcases Nat.lt_or_ge j n with h | h
    · rw [e, List.getElem?_append_left (by omega), List.getElem?_append_left (by omega)]
      exact hb j h
    · obtain rfl : j = n := by omega
      rw [e, List.getElem?_append_right (by omega), List.getElem?_append_right (by omega), hl, Nat.sub_self,
        Nat.add_sub_cancel_left]
      exact ⟨rfl, rfl⟩

end Sys2Proof.Machine
end

