-- ==== Sys2Proof/Laws/Lzu.lean ====
section
/-! SUPPORT. What each shared operation of LZU can do, said once: the fetches (41_lzss.md R121), the emit and the push
(R130), and the copy of a back-reference (R129). -/

namespace Sys2Proof.Machine

/-! ## Fetches -/

/-- A fetch that finds a byte. -/
theorem lzFetch_ok (coded : Bool) (u : Lzu) (hb : coded = true → u.blkUsed.toNat < u.blkLen.toNat)
    (hi : u.ip < u.inLen) :
    lzFetch coded u = .ok (lzInByte u.inp u.ip,
      { u with ip := u.ip + 1, blkUsed := if coded then u.blkUsed + 1 else u.blkUsed }) := by
  unfold lzFetch
  rw [if_neg (by rintro ⟨h, h'⟩; have := hb h; omega), if_neg (by omega)]

/-- A fetch beyond the block's count. -/
theorem lzFetch_overrun (u : Lzu) (h : u.blkLen.toNat ≤ u.blkUsed.toNat) :
    lzFetch true u = .error (lzRaise .blockOverrun u) := by simp [lzFetch, h]

/-- A fetch beyond the end of `IN`. -/
theorem lzFetch_exhausted (coded : Bool) (u : Lzu) (hb : coded = true → u.blkUsed.toNat < u.blkLen.toNat)
    (hi : u.inLen ≤ u.ip) : lzFetch coded u = .error (lzRaise .inputExhausted u) := by
  unfold lzFetch
  rw [if_neg (by rintro ⟨h, h'⟩; have := hb h; omega), if_pos hi]

/-- All that a fetch can do: a fault that leaves the rest of LZU as it was, or a byte, with the cursor and, in a coded
block, the count one on. -/
theorem lzFetch_cases (coded : Bool) (u : Lzu) :
    (∃ f : LzCause, f ≠ .usage ∧ lzFetch coded u = .error (lzRaise f u)) ∨
    (u.ip < u.inLen ∧ (coded = true → u.blkUsed.toNat < u.blkLen.toNat) ∧
      lzFetch coded u = .ok (lzInByte u.inp u.ip,
        { u with ip := u.ip + 1, blkUsed := if coded then u.blkUsed + 1 else u.blkUsed })) := by
  by_cases hb : coded = true ∧ u.blkLen.toNat ≤ u.blkUsed.toNat
  · obtain ⟨rfl, hb⟩ := hb
    exact .inl ⟨_, by simp, lzFetch_overrun u hb⟩
  · have hb' : coded = true → u.blkUsed.toNat < u.blkLen.toNat := fun h => by
      by_contra hc
      exact hb ⟨h, by omega⟩
    by_cases hi : u.inLen ≤ u.ip
    · exact .inl ⟨_, by simp, lzFetch_exhausted coded u hb' hi⟩
    · exact .inr ⟨by omega, hb', lzFetch_ok coded u hb' (by omega)⟩

/-- A token of one byte. -/
theorem lzFetchMany_one (coded : Bool) (u : Lzu) :
    lzFetchMany coded 1 u = (lzFetch coded u).map fun p => ([p.1], p.2) := by
  unfold lzFetchMany
  cases lzFetch coded u <;> rfl

/-- A token of two bytes that is all there. -/
theorem lzFetchMany_two (coded : Bool) (u : Lzu) (hb : coded = true → u.blkUsed.toNat + 2 ≤ u.blkLen.toNat)
    (hi : u.ip + 2 ≤ u.inLen) :
    lzFetchMany coded 2 u = .ok ([lzInByte u.inp u.ip, lzInByte u.inp (u.ip + 1)],
      { u with ip := u.ip + 2, blkUsed := if coded then u.blkUsed + 2 else u.blkUsed }) := by
  have h2 : coded = true → (u.blkUsed + 1).toNat = u.blkUsed.toNat + 1 := fun h => by
    have := hb h; have := u.blkLen.isLt; bv_omega
  have e2 : u.blkUsed + 1 + 1 = u.blkUsed + 2 := by rw [BitVec.add_assoc]; rfl
  simp only [lzFetchMany]
  rw [lzFetch_ok coded u (fun h => by have := hb h; omega) (by omega)]
  dsimp only
  rw [lzFetch_ok coded _ (fun h => by have := hb h; have := h2 h; simp only [h, if_true]; omega) (by simp only []; omega)]
  cases coded <;> simp only [e2, if_true, Bool.false_eq_true, if_false]

/-! ## Emitting and pushing -/

/-- An emit with room in `OUT`. -/
theorem lzEmit_room (b : Byte) (u : Lzu) (h : u.op < u.outLen) :
    lzEmit b u = .ok { u with out := Memory.put u.out u.op b, op := u.op + 1 } := by
  rw [lzEmit, if_neg (by omega)]

/-- An emit with the output complete. -/
theorem lzEmit_full (b : Byte) (u : Lzu) (h : u.outLen ≤ u.op) :
    lzEmit b u = .error (lzRaise .outputOverflow u) := by rw [lzEmit, if_pos h]

/-- One byte of a copy, with room. -/
theorem lzCopy_succ (n : Nat) (a : BitVec 12) (u : Lzu) (h : u.op < u.outLen) :
    lzCopy (n + 1) a u = lzCopy n (a + 1) { u with
      out := Memory.put u.out u.op (ringCell u.ring a), op := u.op + 1
      ring := ringWrite u.ring u.rp (ringCell u.ring a), rp := u.rp + 1 } := by
  rw [lzCopy, lzEmit_room _ _ h]; rfl

/-- One byte of a copy, with the output complete. -/
theorem lzCopy_full (n : Nat) (a : BitVec 12) (u : Lzu) (h : u.outLen ≤ u.op) :
    lzCopy (n + 1) a u = .error (lzRaise .outputOverflow u) := by
  rw [lzCopy, lzEmit_full _ _ h]

/-- A copy one byte longer copies that byte last. -/
theorem lzCopy_snoc (n : Nat) (a : BitVec 12) (u : Lzu) :
    lzCopy (n + 1) a u = match lzCopy n a u with
      | .error u' => .error u'
      | .ok u' => lzCopy 1 (a + BitVec.ofNat 12 n) u' := by
  induction n generalizing a u with
  | zero => simp [lzCopy]
  | succ n ih =>
    have e : a + 1 + BitVec.ofNat 12 n = a + BitVec.ofNat 12 (n + 1) := by
      rw [BitVec.add_assoc, BitVec.ofNat_add, BitVec.add_comm (BitVec.ofNat 12 n)]; rfl
    by_cases h : u.op < u.outLen
    · rw [lzCopy_succ (n + 1) a u h, lzCopy_succ n a u h, ih, e]
    · rw [lzCopy_full _ a u (by omega), lzCopy_full _ a u (by omega)]

/-- A copy of `n + m` bytes is a copy of `n` and then one of `m`. -/
theorem lzCopy_add (n m : Nat) (a : BitVec 12) (u : Lzu) :
    lzCopy (n + m) a u = match lzCopy n a u with
      | .error u' => .error u'
      | .ok u' => lzCopy m (a + BitVec.ofNat 12 n) u' := by
  induction m with
  | zero => rw [Nat.add_zero]; cases lzCopy n a u <;> rfl
  | succ m ih =>
    rw [← Nat.add_assoc, lzCopy_snoc, ih]
    cases lzCopy n a u with
    | error u' => rfl
    | ok u' => dsimp only; rw [lzCopy_snoc, BitVec.add_assoc, ← BitVec.ofNat_add]

/-- A copy of `n` bytes that fit: `OUT` from `op` up and `RING` from `rp` up, both indices `n` on, nothing else. -/
theorem lzCopy_fits (n : Nat) (a : BitVec 12) (u : Lzu) (hfit : u.op + n ≤ u.outLen) :
    ∃ out ring, lzCopy n a u = .ok
        { u with out := out, op := u.op + n, ring := ring, rp := u.rp + BitVec.ofNat 12 n } ∧
      ∀ x, x < u.op ∨ u.op + n ≤ x → Memory.find out x = Memory.find u.out x := by
  induction n generalizing a u with
  | zero => exact ⟨u.out, u.ring, by simp [lzCopy], fun _ _ => rfl⟩
  | succ n ih =>
    rw [lzCopy_succ n a u (by omega)]
    obtain ⟨out, ring, h, hout⟩ := ih (a + 1) { u with
      out := Memory.put u.out u.op (ringCell u.ring a), op := u.op + 1
      ring := ringWrite u.ring u.rp (ringCell u.ring a), rp := u.rp + 1 } (by simp only []; omega)
    refine ⟨out, ring, ?_, fun x hx => ?_⟩
    · rw [h]
      have e1 : u.op + 1 + n = u.op + (n + 1) := by omega
      have e2 : u.rp + 1 + BitVec.ofNat 12 n = u.rp + BitVec.ofNat 12 (n + 1) := by
        rw [BitVec.add_assoc, BitVec.ofNat_add, BitVec.add_comm (BitVec.ofNat 12 n)]; rfl
      simp only [e1, e2]
    · rw [hout x (by simp only []; omega), Memory.find_put_other _ _ _ _ (by omega)]

/-- All that a copy can do: it fits, or it raises LZ_OUTPUT_OVERFLOW with the output complete. -/
theorem lzCopy_cases (n : Nat) (a : BitVec 12) (u : Lzu) (h : u.op ≤ u.outLen) :
    (∃ t, lzCopy n a u = .ok t ∧ t.status = u.status ∧ t.fault = u.fault ∧ t.op ≤ u.outLen) ∨
    (∃ t, lzCopy n a u = .error t ∧ t.status = .fault ∧ t.fault = 3 ∧ t.op = u.outLen) := by
  induction n generalizing a u with
  | zero => exact .inl ⟨u, rfl, rfl, rfl, h⟩
  | succ n ih =>
    by_cases hr : u.op < u.outLen
    · rw [lzCopy_succ n a u hr]
      exact ih (a + 1) _ (by simp only []; omega)
    · rw [lzCopy_full n a u (by omega)]
      exact .inr ⟨_, rfl, rfl, rfl, Nat.le_antisymm h (Nat.le_of_not_lt hr)⟩

/-- Whatever a copy does, it keeps the canonical form of `OUT` and `RING`, and every register but `op`, `rp`, the fault
registers and the status. -/
theorem lzCopy_keeps (n : Nat) (a : BitVec 12) (u : Lzu) :
    let t := settle (lzCopy n a u)
    (Memory.wf none u.out → Memory.wf none t.out) ∧
    (Memory.wf (some ringFill) u.ring → Memory.wf (some ringFill) t.ring) ∧
    ((∀ c ∈ u.ring, c.1 < 4096) → ∀ c ∈ t.ring, c.1 < 4096) ∧
    t = { u with
      out := t.out, op := t.op, ring := t.ring, rp := t.rp
      fault := t.fault, faultIp := t.faultIp, faultOp := t.faultOp, status := t.status } := by
  induction n generalizing a u with
  | zero => exact ⟨id, id, id, rfl⟩
  | succ n ih =>
    by_cases h : u.op < u.outLen
    · rw [lzCopy_succ n a u h]
      obtain ⟨h1, h2, h3, h4⟩ := ih (a + 1) { u with
        out := Memory.put u.out u.op (ringCell u.ring a), op := u.op + 1
        ring := ringWrite u.ring u.rp (ringCell u.ring a), rp := u.rp + 1 }
      refine ⟨fun hw => h1 (Memory.wf_put_none _ _ _ hw), fun hw => h2 (Memory.wf_putFilled _ _ _ _ hw),
        fun hw => h3 (Memory.bounded_putFilled _ _ _ _ _ u.rp.isLt hw), h4⟩
    · rw [lzCopy_full n a u (by omega)]
      exact ⟨id, id, id, rfl⟩

end Sys2Proof.Machine
end

