-- ==== Sys2Proof/Laws/Step.lean ====
section
/-! SUPPORT. Where a step goes: one lemma for each way of the fetch, so that no later proof unfolds it. -/

namespace Sys2Proof.Machine

/-! ## What a step does with what the fetch finds -/

theorem step_run (s t : State) (i : Instr) (h : fetch s = .run i t) : step s = exec i t := by
  unfold step; rw [h]

theorem step_done (s t : State) (h : fetch s = .done t) : step s = .next t := by unfold step; rw [h]

theorem step_stop (s : State) (f : Fault) (h : fetch s = .stop f) : step s = .fault f := by unfold step; rw [h]

/-- All that a step can be. -/
theorem step_next (s t : State) (h : step s = .next t) :
    fetch s = .done t ∨ ∃ i u, fetch s = .run i u ∧ exec i u = .next t := by
  unfold step at h
  split at h
  · exact .inr ⟨_, _, ‹_›, h⟩
  · cases h; exact .inl ‹_›
  · cases h

/-! ## Whose turn it is -/

theorem fetch_lz (s : State) (hr : resetPending s.ops = false) (hb : s.lz.status = .busy) : fetch s = lzNext s := by
  unfold fetch; rw [if_neg (by simp [hr]), if_pos hb]

theorem fetch_au (s : State) (hr : resetPending s.ops = false) (hl : s.lz.status ≠ .busy) (hb : s.au.status = .busy) :
    fetch s = auNext s := by
  unfold fetch; rw [if_neg (by simp [hr]), if_neg hl, if_pos hb]

theorem fetch_host (s : State) (hl : s.lz.status ≠ .busy) (hb : s.au.status ≠ .busy) : fetch s = hostNext s := by
  unfold fetch; rw [if_neg hl, if_neg hb, ite_self]

theorem fetch_reset (s : State) (hr : resetPending s.ops = true) : fetch s = hostNext s := by
  unfold fetch; rw [if_pos hr]

/-! ## The host's acts -/

/-- The act a step takes while no unit is BUSY. -/
theorem fetch_act (s : State) (a : HostAct) (rest : List HostAct) (ho : s.ops = a :: rest) (hl : s.lz.status ≠ .busy)
    (hb : s.au.status ≠ .busy) : fetch s = hostAct a (s.withOps rest) := by
  rw [fetch_host s hl hb]; unfold hostNext; rw [ho]

/-- A command code names a command, or is rejected. -/
theorem decodeCommand_cases (unit : UnitId) (code : Byte) :
    (∃ i, decodeCommand unit code = .ok i 1) ∨ decodeCommand unit code = .reject .badCommand 1 := by
  unfold decodeCommand; split <;> simp

/-- A command of LZU leaves everything but LZU as it was. -/
theorem exec_lzCommand_keeps (code : Byte) (i : Instr) (s t : State) (hd : decodeCommand .lzu code = .ok i 1)
    (h : exec i s = .next t) : t = s.withLz t.lz := by
  unfold decodeCommand at hd; split at hd <;> cases hd
  all_goals first | contradiction | skip
  all_goals simp only [exec, execLzStart, execLzReset] at h
  all_goals split_ifs at h; cases h; rfl

/-- A command of ACU leaves everything but ACU as it was. -/
theorem exec_auCommand_keeps (code : Byte) (i : Instr) (s t : State) (hd : decodeCommand .acu code = .ok i 1)
    (h : exec i s = .next t) : t = s.withAu t.au := by
  unfold decodeCommand at hd; split at hd <;> cases hd
  all_goals first | contradiction | skip
  all_goals simp only [exec, execAuInit, execAuNext, execAuRestart, execAuClearWrap, execAuReset] at h
  all_goals repeat' split at h
  all_goals cases h <;> rfl

/-! ## LZU -/

theorem lzNext_top (s : State) (hp : s.lz.phase = .top) : lzNext s = lzTop s := by unfold lzNext; rw [hp]

theorem lzNext_group (s : State) (hp : s.lz.phase = .group) : lzNext s = lzGroup s := by unfold lzNext; rw [hp]

theorem lzNext_item (s : State) (hp : s.lz.phase = .item) : lzNext s = lzItem s := by unfold lzNext; rw [hp]

/-- A token whose bytes are all there. -/
theorem lzToken_ok (x : LzCtx) (coded : Bool) (n : Nat) (s : State) (u u' : Lzu) (bytes : List Byte) (i : Instr) (k : Nat)
    (h : lzFetchMany coded n u = .ok (bytes, u')) (hd : decodeLz s.cfg x bytes = .ok i k) :
    lzToken x coded n s u = .run i (s.withLz u') := by unfold lzToken; simp only [h, hd]

/-- A token whose fetch raises. -/
theorem lzToken_error (x : LzCtx) (coded : Bool) (n : Nat) (s : State) (u u' : Lzu)
    (h : lzFetchMany coded n u = .error u') : lzToken x coded n s u = .done (s.withLz u') := by
  unfold lzToken; simp only [h]

/-- A token of one byte that is there. -/
theorem lzToken_one (x : LzCtx) (coded : Bool) (s : State) (u : Lzu) (i : Instr) (k : Nat)
    (hb : coded = true → u.blkUsed.toNat < u.blkLen.toNat) (hi : u.ip < u.inLen)
    (hd : decodeLz s.cfg x [lzInByte u.inp u.ip] = .ok i k) :
    lzToken x coded 1 s u =
      .run i (s.withLz { u with ip := u.ip + 1, blkUsed := if coded then u.blkUsed + 1 else u.blkUsed }) :=
  lzToken_ok x coded 1 s u _ _ i k (by rw [lzFetchMany_one, lzFetch_ok coded u hb hi]; rfl) hd

/-- A token of two bytes that are there. -/
theorem lzToken_two (x : LzCtx) (coded : Bool) (s : State) (u : Lzu) (i : Instr) (k : Nat)
    (hb : coded = true → u.blkUsed.toNat + 2 ≤ u.blkLen.toNat) (hi : u.ip + 2 ≤ u.inLen)
    (hd : decodeLz s.cfg x [lzInByte u.inp u.ip, lzInByte u.inp (u.ip + 1)] = .ok i k) :
    lzToken x coded 2 s u =
      .run i (s.withLz { u with ip := u.ip + 2, blkUsed := if coded then u.blkUsed + 2 else u.blkUsed }) :=
  lzToken_ok x coded 2 s u _ _ i k (lzFetchMany_two coded u hb hi) hd

/-- The item that the control bit selects. -/
theorem lzItem_item (s : State) (hu : s.lz.blkUsed ≠ s.lz.blkLen) (hk : s.lz.ctlK ≠ 8) :
    lzItem s = if controlBit s.cfg.flagOrder s.lz.ctl s.lz.ctlK
      then lzToken (.item true) true 1 s { s.lz with ctlK := s.lz.ctlK + 1 }
      else lzToken (.item false) true 2 s { s.lz with ctlK := s.lz.ctlK + 1 } := by
  unfold lzItem; dsimp only; rw [if_neg hu, if_neg hk]

/-! ## ACU -/

/-- The context of a place in the grammar that reads a token; none at the wrap-merge and the output. -/
def auContext (s : State) : Option AuCtx :=
  match s.au.phase with
  | .header => some .header
  | .block => some .block
  | .selector => some .selector
  | .code => some (.code (decoderOf s.cfg s.au.sel) s.au.sel)
  | .merge => none
  | .output => none

/-- A token of ACU whose bits are all there. -/
theorem auNext_token (s : State) (x : AuCtx) (i : Instr) (n : Nat) (hx : auContext s = some x)
    (hd : decodeAu s.cfg x (bitsAhead s.cfg.bitOrder s.au) = .ok i n) :
    auNext s = .run i (s.withAu (advance n s.au)) := by
  unfold auContext at hx
  unfold auNext
  split at hx <;> cases hx
  all_goals simp only [‹s.au.phase = _›, auHeader, auBody, hd]

end Sys2Proof.Machine
end

