-- ==== Sys2Proof/Laws/AuStep.lean ====
section
/-! SUPPORT. Everything a step of a BUSY ACU can do, said once. -/

namespace Sys2Proof.Machine

/-- The meaning of the selector of a value (43_audio_block_decode.md R172). -/
theorem exec_selectorInstr (v : Nat) (hv : v < 32) (s : State) : exec (selectorInstr v) s = beginSubband (BitVec.ofNat 5 v) s := by
  interval_cases v <;> rfl

/-- The meaning of a code word: samples to the slots, or AU_TABLE_INDEX. -/
theorem exec_codeWord (o : BitOrder) (d : Decoder) (sel : BitVec 5) (bits : List Bool) (i : Instr) (n : Nat) (h : decodeCode o d sel bits = .ok i n) (s : State) :
   (∃ raws, raws ≠ [] ∧ exec i s = emitRaws raws s) ∨ exec i s = .next (s.withAu (auRaise .tableIndex s.au)) := by
  have rfok : ∀ {n bits u next i m}, readField o n bits u next = .ok i m → ∃ v r w, v < 2 ^ n ∧ next v r w = .ok i m := by
    intro n bits u next i m h
    rcases readField_cases o n bits u next with ⟨_, h'⟩ | ⟨f, r, h1, h2, h3, h4, h5⟩
    · rw [h'] at h; cases h
    · rw [h5] at h; exact ⟨_, _, _, h4, h⟩
  have val : ∀ {n mk bits u i m}, decodeValue o n mk bits u = .ok i m → ∃ v, v < 2^n ∧ i = mk v := by
    intro n mk bits u i m h
    obtain ⟨v, r, w, h1, h2⟩ := rfok h
    cases h2; exact ⟨v, h1, rfl⟩
  have tiers : ∀ {n1 n2 bits u i m}, decodeTiers o n1 n2 bits u = .ok i m → (∃ v, i = n1 v) ∨ (∃ v, i = n2 v) := by
    intro n1 n2 bits u i m h
    obtain ⟨v, r, w, h1, h2⟩ := rfok h
    split_ifs at h2
    · obtain ⟨v, _, h⟩ := val h2; exact .inl ⟨_, h⟩
    · obtain ⟨v, _, h⟩ := val h2; exact .inr ⟨_, h⟩
  have one : ∀ {z1 value bits i m}, decodeOneZero o z1 value bits = .ok i m → i = z1 ∨ ∃ r u, value r u = .ok i m := by
    intro z1 value bits i m h
    obtain ⟨v, r, w, h1, h2⟩ := rfok h
    split_ifs at h2
    · cases h2; exact .inl rfl
    · exact .inr ⟨_, _, h2⟩
  have two : ∀ {z2 z1 value bits i m}, decodeTwoZero o z2 z1 value bits = .ok i m → i = z2 ∨ i = z1 ∨ ∃ r u, value r u = .ok i m := by
    intro z2 z1 value bits i m h
    obtain ⟨v, r, w, h1, h2⟩ := rfok h
    split_ifs at h2
    · cases h2; exact .inl rfl
    · obtain ⟨v, r, w, h1, h2⟩ := rfok h2
      split_ifs at h2
      · cases h2; exact .inr (.inl rfl)
      · exact .inr (.inr ⟨_, _, h2⟩)
  unfold decodeCode at h
  split at h
  · cases h
  · cases h
  · split_ifs at h
    obtain ⟨v, hv, rfl⟩ := val h; exact .inl ⟨_, by simp, rfl⟩
  · rcases two h with rfl | rfl | ⟨r, u, h⟩ <;> try exact .inl ⟨_, by simp, rfl⟩
    obtain ⟨v, hv, rfl⟩ := val h; exact .inl ⟨_, by simp, rfl⟩
  · rcases two h with rfl | rfl | ⟨r, u, h⟩ <;> try exact .inl ⟨_, by simp, rfl⟩
    obtain ⟨v, hv, rfl⟩ := val h; exact .inl ⟨_, by simp, rfl⟩
  · rcases two h with rfl | rfl | ⟨r, u, h⟩ <;> try exact .inl ⟨_, by simp, rfl⟩
    obtain ⟨v, hv, rfl⟩ := val h; exact .inl ⟨_, by simp, rfl⟩
  · rcases two h with rfl | rfl | ⟨r, u, h⟩ <;> try exact .inl ⟨_, by simp, rfl⟩
    rcases tiers h with ⟨v, rfl⟩ | ⟨v, rfl⟩ <;> exact .inl ⟨_, by simp, rfl⟩
  · rcases one h with rfl | ⟨r, u, h⟩ <;> try exact .inl ⟨_, by simp, rfl⟩
    obtain ⟨v, hv, rfl⟩ := val h; exact .inl ⟨_, by simp, rfl⟩
  · rcases one h with rfl | ⟨r, u, h⟩ <;> try exact .inl ⟨_, by simp, rfl⟩
    obtain ⟨v, hv, rfl⟩ := val h; exact .inl ⟨_, by simp, rfl⟩
  · rcases one h with rfl | ⟨r, u, h⟩ <;> try exact .inl ⟨_, by simp, rfl⟩
    obtain ⟨v, hv, rfl⟩ := val h; exact .inl ⟨_, by simp, rfl⟩
  · rcases one h with rfl | ⟨r, u, h⟩ <;> try exact .inl ⟨_, by simp, rfl⟩
    rcases tiers h with ⟨v, rfl⟩ | ⟨v, rfl⟩ <;> exact .inl ⟨_, by simp, rfl⟩
  · obtain ⟨v, hv, rfl⟩ := val h
    simp only [exec, execAuT15Idx, t15Raws]; split_ifs
    · exact .inl ⟨_, by simp, rfl⟩
    · exact .inr rfl
  · obtain ⟨v, hv, rfl⟩ := val h
    simp only [exec, execAuT27Idx, t27Raws]; split_ifs
    · exact .inl ⟨_, by simp, rfl⟩
    · exact .inr rfl
  · obtain ⟨v, hv, rfl⟩ := val h
    simp only [exec, execAuT37Idx, t37Raws]; split_ifs
    · exact .inl ⟨_, by simp, rfl⟩
    · exact .inr rfl


/-- A decoding that began with `u` bits used stays inside the `bits` that remained, and takes at least `k` of them if it
gives a token. -/
def decodedWithin (k : Nat) (bits : List Bool) (u : Nat) (D : Decoded) : Prop :=
  match D with
  | .ok _ m => u + k ≤ m ∧ m ≤ u + bits.length
  | .short m => u ≤ m ∧ m ≤ u + bits.length
  | .reject _ m => u ≤ m ∧ m ≤ u + bits.length

theorem decodedWithin_readField {o n bits u next} (k : Nat) (hk : k ≤ n) (h : ∀ v r, decodedWithin 0 r (u + n) (next v r (u + n))) : decodedWithin k bits u (readField o n bits u next) := by
  rcases readField_cases o n bits u next with ⟨_, h'⟩ | ⟨f, r, h1, h2, h3, h4, h5⟩
  · rw [h']; simp [decodedWithin]
  · rw [h5]; have := h (fieldValue o f) r
    revert this; generalize next _ _ _ = D
    cases D <;> simp only [decodedWithin, h1, List.length_append, h2] <;> omega
theorem decodedWithin_ok {i bits u} : decodedWithin 0 bits u (.ok i u) := by simp [decodedWithin]
theorem decodedWithin_reject {i bits u} : decodedWithin 0 bits u (.reject i u) := by simp [decodedWithin]
theorem decodedWithin_value {o n mk bits u} (k) (hk : k ≤ n) : decodedWithin k bits u (decodeValue o n mk bits u) := decodedWithin_readField k hk fun _ _ => decodedWithin_ok
theorem decodedWithin_tiers {o n1 n2 bits u} : decodedWithin 0 bits u (decodeTiers o n1 n2 bits u) := by
  refine decodedWithin_readField 0 (by omega) fun v r => ?_
  split_ifs <;> exact decodedWithin_value 0 (by omega)
theorem decodedWithin_oneZero {o z value bits} (h : ∀ r, decodedWithin 0 r 1 (value r 1)) : decodedWithin 1 bits 0 (decodeOneZero o z value bits) := by
  refine decodedWithin_readField 1 (by omega) fun v r => ?_
  split_ifs
  · exact decodedWithin_ok
  · exact h r
theorem decodedWithin_twoZero {o z2 z value bits} (h : ∀ r, decodedWithin 0 r 2 (value r 2)) : decodedWithin 1 bits 0 (decodeTwoZero o z2 z value bits) := by
  refine decodedWithin_readField 1 (by omega) fun v r => ?_
  split_ifs
  · exact decodedWithin_ok
  · refine decodedWithin_readField 0 (by omega) fun v r => ?_
    split_ifs
    · exact decodedWithin_ok
    · exact h r

/-- The audio decoder stays inside the bits it is given; a header takes at least 24, a block header 20, a selector 5, a code
word 1. -/
theorem decodedWithin_au (c : Config) (x : AuCtx) (bits : List Bool) : decodedWithin (match x with | .header => 24 | .block => 20 | .selector => 5 | _ => 1) bits 0 (decodeAu c x bits) := by
  cases x with
  | header =>
    dsimp only [decodeAu, decodeHeader]
    refine decodedWithin_readField 24 (by omega) fun v r => ?_
    split_ifs
    · exact decodedWithin_ok
    · exact decodedWithin_reject
    · iterate 6 refine decodedWithin_readField 0 (by omega) fun v r => ?_
      exact decodedWithin_ok
  | block =>
    simp only [decodeAu, decodeBlock]
    rcases readField_cases c.bitOrder 4 bits 0 (fun pwr r u =>
  readField c.bitOrder 16 r u fun scale _ u =>
  .ok (.auBlk (BitVec.ofNat 4 pwr) (BitVec.ofNat 16 scale)) u) with ⟨_, h'⟩ | ⟨f, r, h1, h2, h3, h4, h5⟩
    · rw [h']; simp [decodedWithin]
    · rw [h5]
      rcases readField_cases c.bitOrder 16 r (0+4) (fun scale _ u =>
  .ok (.auBlk (BitVec.ofNat 4 (fieldValue c.bitOrder f)) (BitVec.ofNat 16 scale)) u) with ⟨_, h'⟩ | ⟨f', r', h1', h2', h3', h4', h5'⟩
      · rw [h']; simp only [decodedWithin, h1, List.length_append, h2]; omega
      · rw [h5']; simp only [decodedWithin, h1, List.length_append, h2, h1', h2']; omega
  | selector => dsimp only [decodeAu, decodeSelector]; exact decodedWithin_readField 5 (by omega) fun _ _ => decodedWithin_ok
  | code d sel =>
    simp only [decodeAu, decodeCode]
    split
    · simp [decodedWithin]
    · simp [decodedWithin]
    · split_ifs with h
      · simp [decodedWithin]
      · have : 1 ≤ sel.toNat := by
          rcases Nat.eq_zero_or_pos sel.toNat with h' | h'
          · exact absurd (BitVec.eq_of_toNat_eq h') h
          · exact h'
        exact decodedWithin_value 1 this
    all_goals first
      | exact decodedWithin_value 1 (by omega)
      | exact decodedWithin_oneZero fun _ => decodedWithin_value 0 (by omega)
      | exact decodedWithin_twoZero fun _ => decodedWithin_value 0 (by omega)
      | exact decodedWithin_oneZero fun _ => decodedWithin_tiers
      | exact decodedWithin_twoZero fun _ => decodedWithin_tiers

/-- The tokens of the header place. -/
theorem decodeAu_header (c : Config) (bits : List Bool) (i n) (h : decodeAu c .header bits = .ok i n) :
   (i = .auHdrWrapper ∧ n = 24) ∨ (∃ a b e f g k, i = .auHdr a b e f g k ∧ n = 112) := by
  have rfok : ∀ {n bits u next i m}, readField c.bitOrder n bits u next = .ok i m → ∃ v r, v < 2 ^ n ∧ next v r (u+n) = .ok i m := by
    intro n bits u next i m h
    rcases readField_cases c.bitOrder n bits u next with ⟨_, h'⟩ | ⟨f, r, h1, h2, h3, h4, h5⟩
    · rw [h'] at h; cases h
    · rw [h5] at h; exact ⟨_, _, h4, h⟩
  simp only [decodeAu, decodeHeader] at h
  obtain ⟨v, r, h1, h⟩ := rfok h
  split_ifs at h
  · cases h; exact .inl ⟨rfl, rfl⟩
  · obtain ⟨v1, r, _, h⟩ := rfok h
    obtain ⟨v2, r, _, h⟩ := rfok h
    obtain ⟨v3, r, _, h⟩ := rfok h
    obtain ⟨v4, r, _, h⟩ := rfok h
    obtain ⟨v5, r, _, h⟩ := rfok h
    obtain ⟨v6, r, _, h⟩ := rfok h
    cases h
    exact .inr ⟨_, _, _, _, _, _, rfl, rfl⟩

/-- The tokens of the block place. -/
theorem decodeAu_block (c : Config) (bits : List Bool) (i n) (h : decodeAu c .block bits = .ok i n) :
   (∃ a b, i = .auBlk a b ∧ n = 20) := by
  have rfok : ∀ {n bits u next i m}, readField c.bitOrder n bits u next = .ok i m → ∃ v r, v < 2 ^ n ∧ next v r (u+n) = .ok i m := by
    intro n bits u next i m h
    rcases readField_cases c.bitOrder n bits u next with ⟨_, h'⟩ | ⟨f, r, h1, h2, h3, h4, h5⟩
    · rw [h'] at h; cases h
    · rw [h5] at h; exact ⟨_, _, h4, h⟩
  simp only [decodeAu, decodeBlock] at h
  obtain ⟨v, r, h1, h⟩ := rfok h
  obtain ⟨v, r, h1, h⟩ := rfok h
  cases h; exact ⟨_, _, rfl, rfl⟩

/-- The tokens of the selector place. -/
theorem decodeAu_selector (c : Config) (bits : List Bool) (i n) (h : decodeAu c .selector bits = .ok i n) :
   (∃ v, v < 32 ∧ i = selectorInstr v ∧ n = 5) := by
  simp only [decodeAu, decodeSelector] at h
  rcases readField_cases c.bitOrder 5 bits 0 (fun sel _ u => .ok (selectorInstr sel) u) with ⟨_, h'⟩ | ⟨f, r, h1, h2, h3, h4, h5⟩
  · rw [h'] at h; cases h
  · rw [h5] at h; cases h; exact ⟨_, h4, rfl, rfl⟩

/-- What ACU can be after a step (42_audio_header.md R151 to R161; 43_audio_block_decode.md R170 to R193). -/
inductive AuStepKind (s : State) : Acu → Prop
  | headerRaise (f : AuCause) (n : Nat) :
      s.au.phase = .header → f ≠ .usage → n ≤ bitsLeft s.au → AuStepKind s (auRaise f (advance n s.au))
  | header (v : BitVec 8) (a : BitVec 32) (b d : BitVec 16) (l : BitVec 4) (r : BitVec 12) :
      s.au.phase = .header → 112 ≤ bitsLeft s.au →
      AuStepKind s (headerCheck v
        { advance 112 s.au with samples := a, chStored := b, rate := d, level := l, rows := r })
  | truncated (n : Nat) :
      s.au.phase = .block ∨ s.au.phase = .selector ∨ s.au.phase = .code → n ≤ bitsLeft s.au →
      AuStepKind s (endTruncated (advance n s.au))
  | block (p : BitVec 4) (sc : BitVec 16) : s.au.phase = .block → 20 ≤ bitsLeft s.au →
      AuStepKind s { dropBlock (advance 20 s.au) with pwr := p, scale := sc, col := 0, phase := .selector }
  | bad (sel : BitVec 5) : s.au.phase = .selector → 5 ≤ bitsLeft s.au →
      AuStepKind s (auRaise .unimplementedSelector { advance 5 s.au with sel := sel, row := 0 })
  | zero (sel : BitVec 5) : s.au.phase = .selector → 5 ≤ bitsLeft s.au → s.au.col.toNat < cols s.au →
      AuStepKind s (endSubband
        (putRaws (List.replicate (rowCount s.au) 0) { advance 5 s.au with sel := sel, row := 0 }))
  | sel (sel : BitVec 5) : s.au.phase = .selector → 5 ≤ bitsLeft s.au → s.au.col.toNat < cols s.au →
      hasCodeWords (decoderOf s.cfg sel) →
      AuStepKind s (closeSubband { advance 5 s.au with sel := sel, row := 0, phase := .code })
  | word (n : Nat) (raws : List Int) : s.au.phase = .code → 1 ≤ n → n ≤ bitsLeft s.au → raws ≠ [] →
      s.au.col.toNat < cols s.au → s.au.row < rowCount s.au →
      AuStepKind s (closeSubband (putRaws raws (advance n s.au)))
  | index (n : Nat) : s.au.phase = .code → 1 ≤ n → n ≤ bitsLeft s.au →
      AuStepKind s (auRaise .tableIndex (advance n s.au))
  | merge : s.au.phase = .merge → AuStepKind s { wrapMerge s.cfg s.au with phase := .output }
  | output : s.au.phase = .output → AuStepKind s (outputStep s.cfg s.au)

/-- A step of a BUSY ACU: a next state of one of the kinds of `AuStepKind`, nothing but ACU changed; or one of the two faults of
the model, each in states outside the invariant. -/
theorem au_step_cases (s : State) (hr : resetPending s.ops = false) (hl : s.lz.status ≠ .busy) (hb : s.au.status = .busy) :
    (∃ u, step s = .next (s.withAu u) ∧ AuStepKind s u) ∨
    (step s = .fault .slotOutsideBlock ∧
      (s.au.phase = .selector ∧ ¬ s.au.col.toNat < cols s.au ∨
        s.au.phase = .code ∧ (¬ s.au.col.toNat < cols s.au ∨ ¬ s.au.row < rowCount s.au))) ∨
    (step s = .fault .undecodable ∧ s.au.phase = .code ∧
      ((decoderOf s.cfg s.au.sel = .zero ∨ decoderOf s.cfg s.au.sel = .bad) ∨ s.au.sel = 0)) := by
  have hf := fetch_au s hr hl hb
  have bd : ∀ x, decodedWithin _ (bitsAhead s.cfg.bitOrder s.au) 0 (decodeAu s.cfg x (bitsAhead s.cfg.bitOrder s.au)) := fun x => decodedWithin_au s.cfg x _
  unfold auNext at hf
  cases hp : s.au.phase <;> rw [hp] at hf <;> dsimp only at hf
  · unfold auHeader at hf
    have bd := bd .header
    cases hd : decodeAu s.cfg .header (bitsAhead s.cfg.bitOrder s.au) <;> rw [hd] at hf bd <;> dsimp only at hf <;> simp only [decodedWithin, length_bitsAhead] at bd
    · have hs := step_run _ _ _ hf
      rcases decodeAu_header _ _ _ _ hd with ⟨rfl, rfl⟩ | ⟨a, b, e, f, g, k, rfl, rfl⟩
      · exact .inl ⟨_, hs, .headerRaise _ _ hp (by simp) (by omega)⟩
      · exact .inl ⟨_, hs, .header _ _ _ _ _ _ hp (by omega)⟩
    · exact .inl ⟨_, step_done _ _ hf, .headerRaise _ _ hp (by simp) (by omega)⟩
    · exact .inl ⟨_, step_done _ _ hf, .headerRaise _ _ hp (by simp) (by omega)⟩
  · unfold auBody at hf
    have bd := bd .block
    cases hd : decodeAu s.cfg .block (bitsAhead s.cfg.bitOrder s.au) <;> rw [hd] at hf bd <;> dsimp only at hf <;> simp only [decodedWithin, length_bitsAhead] at bd
    · have hs := step_run _ _ _ hf
      obtain ⟨a, b, rfl, rfl⟩ := decodeAu_block _ _ _ _ hd
      exact .inl ⟨_, hs, .block _ _ hp (by omega)⟩
    · exact .inl ⟨_, step_done _ _ hf, .truncated _ (.inl hp) (by omega)⟩
    · exfalso
      simp only [decodeAu, decodeBlock] at hd
      rcases readField_cases s.cfg.bitOrder 4 (bitsAhead s.cfg.bitOrder s.au) 0 (fun pwr r u =>
  readField s.cfg.bitOrder 16 r u fun scale _ u =>
  .ok (.auBlk (BitVec.ofNat 4 pwr) (BitVec.ofNat 16 scale)) u) with ⟨_, h'⟩ | ⟨f, r, h1, h2, h3, h4, h5⟩
      · rw [h'] at hd; cases hd
      · rw [h5] at hd
        rcases readField_cases s.cfg.bitOrder 16 r (0+4) (fun scale _ u =>
  .ok (.auBlk (BitVec.ofNat 4 (fieldValue s.cfg.bitOrder f)) (BitVec.ofNat 16 scale)) u) with ⟨_, h'⟩ | ⟨f', r', h1', h2', h3', h4', h5'⟩
        · rw [h'] at hd; cases hd
        · rw [h5'] at hd; cases hd
  · unfold auBody at hf
    have bd := bd .selector
    cases hd : decodeAu s.cfg .selector (bitsAhead s.cfg.bitOrder s.au) <;> rw [hd] at hf bd <;> dsimp only at hf <;> simp only [decodedWithin, length_bitsAhead] at bd
    · have hs := step_run _ _ _ hf
      obtain ⟨v, hv, rfl, rfl⟩ := decodeAu_selector _ _ _ _ hd
      rw [exec_selectorInstr v hv] at hs
      unfold beginSubband at hs
      dsimp only [State.withAu_cfg, State.withAu_au] at hs
      split at hs
      · exact .inl ⟨_, hs, .bad _ hp (by omega)⟩
      · split_ifs at hs with hc
        · simp only [colExists, decide_eq_true_eq] at hc
          exact .inl ⟨_, hs, .zero _ hp (by omega) hc⟩
        · simp only [colExists, decide_eq_true_eq] at hc
          exact .inr (.inl ⟨hs, .inl ⟨rfl, hc⟩⟩)
      · split_ifs at hs with hc
        · simp only [colExists, decide_eq_true_eq] at hc
          exact .inl ⟨_, hs, .sel _ hp (by omega) hc ⟨by assumption, by assumption⟩⟩
        · simp only [colExists, decide_eq_true_eq] at hc
          exact .inr (.inl ⟨hs, .inl ⟨rfl, hc⟩⟩)
    · exact .inl ⟨_, step_done _ _ hf, .truncated _ (.inr (.inl hp)) (by omega)⟩
    · exfalso
      simp only [decodeAu, decodeSelector] at hd
      rcases readField_cases s.cfg.bitOrder 5 (bitsAhead s.cfg.bitOrder s.au) 0 (fun sel _ u => .ok (selectorInstr sel) u) with ⟨_, h'⟩ | ⟨f, r, h1, h2, h3, h4, h5⟩
      · rw [h'] at hd; cases hd
      · rw [h5] at hd; cases hd
  · unfold auBody at hf
    have bd := bd (.code (decoderOf s.cfg s.au.sel) s.au.sel)
    cases hd : decodeAu s.cfg (.code (decoderOf s.cfg s.au.sel) s.au.sel) (bitsAhead s.cfg.bitOrder s.au) <;> rw [hd] at hf bd <;> dsimp only at hf <;> simp only [decodedWithin, length_bitsAhead] at bd
    · have hs := step_run _ _ _ hf
      rcases exec_codeWord _ _ _ _ _ _ hd (s.withAu (advance _ s.au)) with ⟨raws, hne, e⟩ | e
      · rcases emitRaws_cases raws (s.withAu (advance _ s.au)) with ⟨hc, hr, e'⟩ | e'
        · exact .inl ⟨_, hs.trans (e.trans e'), .word _ raws hp (by omega) (by omega) hne hc hr⟩
        · refine .inr (.inl ⟨hs.trans (e.trans e'), .inr ⟨rfl, ?_⟩⟩)
          by_contra hh
          have h1 : s.au.col.toNat < cols s.au := by tauto
          have h2 : s.au.row < rowCount s.au := by tauto
          rw [emitRaws_slot raws _ (by exact h1) (by exact h2)] at e'; cases e'
      · exact .inl ⟨_, hs.trans e, .index _ hp (by omega) (by omega)⟩
    · exact .inl ⟨_, step_done _ _ hf, .truncated _ (.inr (.inr hp)) (by omega)⟩
    · refine .inr (.inr ⟨step_stop _ _ hf, rfl, ?_⟩)
      by_contra hh
      rename_i why used
      have rfnr : ∀ {n bits u next}, (∀ v r, next v r (u+n) ≠ .reject why used) → readField s.cfg.bitOrder n bits u next ≠ .reject why used := by
        intro n bits u next h hc
        rcases readField_cases s.cfg.bitOrder n bits u next with ⟨_, h'⟩ | ⟨f, r, h1, h2, h3, h4, h5⟩
        · rw [h'] at hc; cases hc
        · rw [h5] at hc; exact h _ _ hc
      revert hd
      simp only [decodeAu, decodeCode]
      have hvn : ∀ n mk bits u, decodeValue s.cfg.bitOrder n mk bits u ≠ .reject why used := fun n mk bits u => rfnr fun _ _ => by simp
      have htn : ∀ a b bits u, decodeTiers s.cfg.bitOrder a b bits u ≠ .reject why used := fun a b bits u => rfnr fun v _ => by split_ifs <;> exact hvn _ _ _ _
      have h1n : ∀ z val bits, (∀ r u, val r u ≠ .reject why used) → decodeOneZero s.cfg.bitOrder z val bits ≠ .reject why used := fun z val bits h => rfnr fun v _ => by split_ifs; simp; exact h _ _
      have h2n : ∀ z y val bits, (∀ r u, val r u ≠ .reject why used) → decodeTwoZero s.cfg.bitOrder z y val bits ≠ .reject why used := fun z y val bits h => rfnr fun v _ => by
        split_ifs
        · simp
        · exact rfnr fun v _ => by
            split_ifs
            · simp
            · exact h _ _
      split
      · tauto
      · tauto
      · rw [if_neg (by tauto)]; exact hvn _ _ _ _
      all_goals first
        | exact hvn _ _ _ _
        | exact h1n _ _ _ fun _ _ => hvn _ _ _ _
        | exact h1n _ _ _ fun _ _ => htn _ _ _ _
        | exact h2n _ _ _ _ fun _ _ => hvn _ _ _ _
        | exact h2n _ _ _ _ fun _ _ => htn _ _ _ _
  · exact .inl ⟨_, step_done _ _ hf, .merge hp⟩
  · exact .inl ⟨_, step_done _ _ hf, .output hp⟩

end Sys2Proof.Machine
end

