-- ==== Sys2Proof/Laws/LzStep.lean ====
section
/-! SUPPORT. Everything a step of a BUSY LZU can do, said once. -/

namespace Sys2Proof.Machine

/-- `n` fetches: a fault of LzFetch with the cursor and the block count where the fetches before it left them, or `n` bytes. -/
theorem lzFetchMany_cases (coded : Bool) (n : Nat) (u : Lzu) :
   (∃ f v, f ≠ LzCause.usage ∧ lzFetchMany coded n u = .error (lzRaise f v) ∧ v = { u with ip := v.ip, blkUsed := v.blkUsed } ∧ 
      (u.ip ≤ u.inLen → v.ip ≤ u.inLen)) ∨
   (∃ bs v, lzFetchMany coded n u = .ok (bs, v) ∧ bs.length = n ∧ v = { u with ip := v.ip, blkUsed := v.blkUsed } ∧ 
     (0 < n → v.ip = u.ip + n ∧ v.ip ≤ u.inLen) ∧ (coded = true → 0 < n → v.blkUsed.toNat ≤ u.blkLen.toNat) ∧ (coded = false → v.blkUsed = u.blkUsed)) := by
  induction n generalizing u with
  | zero => exact .inr ⟨[], u, rfl, rfl, rfl, by simp, by simp, by simp⟩
  | succ n ih =>
    unfold lzFetchMany
    rcases lzFetch_cases coded u with ⟨f, hf, h⟩ | ⟨hi, hb, h⟩
    · rw [h]; exact .inl ⟨f, u, hf, rfl, rfl, id⟩
    · rw [h]; dsimp only
      have h2 : coded = true → (u.blkUsed + 1).toNat = u.blkUsed.toNat + 1 := fun h => by
        have := hb h; have := u.blkLen.isLt; bv_omega
      rcases ih { u with ip := u.ip + 1, blkUsed := if coded then u.blkUsed + 1 else u.blkUsed } with ⟨f, v, hf, e, hv, hb'⟩ | ⟨bs, v, e, hl, hv, hip, hbu, hbf⟩
      · rw [e]; exact .inl ⟨f, v, hf, rfl, hv, fun _ => hb' (by simp only []; omega)⟩
      · rw [e]; refine .inr ⟨_, v, rfl, by simp [hl], hv, ?_, ?_, ?_⟩
        · intro _
          rcases Nat.eq_zero_or_pos n with rfl | hn
          · simp only [lzFetchMany, Except.ok.injEq, Prod.mk.injEq] at e; rw [← e.2]; exact ⟨rfl, by simp only []; omega⟩
          · have := hip hn; simp only [] at this; omega
        · intro hc _
          rcases Nat.eq_zero_or_pos n with rfl | hn
          · simp only [lzFetchMany, Except.ok.injEq, Prod.mk.injEq] at e; rw [← e.2]; simp only [hc, if_true, h2 hc]; have := hb hc; omega
          · exact hbu hc hn
        · intro hc; rw [hbf hc]; simp [hc]

/-- What LZU can be after a step (41_lzss.md R122 to R132): the ways of the three places of the grammar, and a fault raised
with only the cursor (not past `LZ_IN_LEN`), the block count and the item index moved (60_exceptions.md R241, R250). -/
inductive LzStepKind (s : State) : Lzu → Prop
  | done : s.lz.phase = .top → s.lz.rawLeft = 0 → s.lz.op = s.lz.outLen →
      LzStepKind s { s.lz with status := .done }
  | blockEnd : s.lz.phase ≠ .top → s.lz.blkUsed = s.lz.blkLen → LzStepKind s { s.lz with phase := .top }
  | groupEnd : s.lz.phase = .item → s.lz.ctlK = 8 → LzStepKind s { s.lz with phase := .group }
  | raise (f : LzCause) (v : Lzu) : f ≠ .usage →
      v = { s.lz with ip := v.ip, blkUsed := v.blkUsed, ctlK := v.ctlK } →
      (v.ctlK = s.lz.ctlK ∨ s.lz.ctlK ≠ 8 ∧ v.ctlK = s.lz.ctlK + 1) → (s.lz.ip ≤ s.lz.inLen → v.ip ≤ s.lz.inLen) →
      LzStepKind s (lzRaise f v)
  | raw (w : BitVec 16) : s.lz.phase = .top → s.lz.rawLeft = 0 → s.lz.ip + 2 ≤ s.lz.inLen →
      LzStepKind s { s.lz with
        ip := s.lz.ip + 2
        blkLen := rawMagnitude w
        flags := if s.lz.inLen - (s.lz.ip + 2) < (rawMagnitude w).toNat
          then setTrim s.lz.flags else s.lz.flags
        rawLeft := min (rawMagnitude w).toNat (s.lz.inLen - (s.lz.ip + 2))
        phase := .top }
  | skip : s.lz.phase = .top → s.lz.rawLeft = 0 → s.lz.ip + 2 ≤ s.lz.inLen →
      LzStepKind s { s.lz with ip := s.lz.ip + 2, phase := .top }
  | coded (w : BitVec 16) : s.lz.phase = .top → s.lz.rawLeft = 0 → w ≠ 0 →
      s.lz.ip + 2 ≤ s.lz.inLen →
      LzStepKind s { s.lz with
        ip := s.lz.ip + 2, blkLen := w, ring := [], rp := s.cfg.ringStart, blkUsed := 0, phase := .group }
  | data (d : Byte) : s.lz.phase = .top → s.lz.rawLeft ≠ 0 → s.lz.ip < s.lz.inLen →
      s.lz.op < s.lz.outLen →
      LzStepKind s { s.lz with
        ip := s.lz.ip + 1, out := Memory.put s.lz.out s.lz.op d, op := s.lz.op + 1
        rawLeft := s.lz.rawLeft - 1 }
  | ctl (d : Byte) : s.lz.phase = .group → s.lz.ip < s.lz.inLen →
      s.lz.blkUsed.toNat < s.lz.blkLen.toNat →
      LzStepKind s { s.lz with
        ip := s.lz.ip + 1, blkUsed := s.lz.blkUsed + 1, ctl := d, ctlK := 0, phase := .item }
  | lit (d : Byte) : s.lz.phase = .item → s.lz.ip < s.lz.inLen →
      s.lz.blkUsed.toNat < s.lz.blkLen.toNat → s.lz.ctlK ≠ 8 → s.lz.op < s.lz.outLen →
      LzStepKind s { s.lz with
        ip := s.lz.ip + 1, blkUsed := s.lz.blkUsed + 1, ctlK := s.lz.ctlK + 1
        out := Memory.put s.lz.out s.lz.op d, op := s.lz.op + 1
        ring := ringWrite s.lz.ring s.lz.rp d, rp := s.lz.rp + 1 }
  | ref (n : Nat) (a : BitVec 12) : s.lz.phase = .item → s.lz.ip + 2 ≤ s.lz.inLen →
      s.lz.blkUsed.toNat + 2 ≤ s.lz.blkLen.toNat → s.lz.ctlK ≠ 8 →
      LzStepKind s (settle (lzCopy n a
        { s.lz with ip := s.lz.ip + 2, blkUsed := s.lz.blkUsed + 2, ctlK := s.lz.ctlK + 1 }))

/-- A token of one byte: the byte is fetched, or the fetch raises and nothing moves. -/
theorem lzToken_one_or_raise (x coded s) (u : Lzu) (mk : Byte → Instr) (hd : ∀ b, decodeLz s.cfg x [b] = .ok (mk b) 1) :
   (∃ f, f ≠ LzCause.usage ∧ lzToken x coded 1 s u = .done (s.withLz (lzRaise f u))) ∨
   (∃ b, (u.ip < u.inLen) ∧ (coded = true → u.blkUsed.toNat < u.blkLen.toNat) ∧ lzToken x coded 1 s u =
      .run (mk b) (s.withLz { u with ip := u.ip + 1, blkUsed := if coded then u.blkUsed + 1 else u.blkUsed })) := by
  rcases lzFetch_cases coded u with ⟨f, hf, h⟩ | ⟨hi, hb, h⟩
  · exact .inl ⟨f, hf, lzToken_error _ _ _ _ _ _ (by rw [lzFetchMany_one, h]; rfl)⟩
  · exact .inr ⟨_, hi, hb, lzToken_one _ _ _ _ _ _ hb hi (hd _)⟩

/-- A step of a BUSY LZU always has a next state, of one of the kinds of `LzStepKind`; nothing but LZU changes. -/
theorem lz_step_cases (s : State) (hr : resetPending s.ops = false) (hb : s.lz.status = .busy) :
    ∃ u, step s = .next (s.withLz u) ∧ LzStepKind s u := by
  have hf := fetch_lz s hr hb
  cases hp : s.lz.phase with
  | top =>
    rw [lzNext_top s hp] at hf
    unfold lzTop at hf; dsimp only at hf
    by_cases hl : s.lz.rawLeft = 0
    · rw [if_neg (by simp [hl])] at hf
      by_cases ho : s.lz.op = s.lz.outLen
      · rw [if_pos ho] at hf
        exact ⟨_, step_done _ _ hf, .done hp hl ho⟩
      · rw [if_neg ho] at hf
        by_cases hi : s.lz.inLen - s.lz.ip < 2
        · rw [if_pos hi] at hf
          exact ⟨_, step_done _ _ hf, .raise _ _ (by simp) rfl (.inl rfl) id⟩
        · have hi : s.lz.ip + 2 ≤ s.lz.inLen := by omega
          rw [if_neg (by omega), lzToken_two _ _ _ _ _ _ (by simp) hi rfl] at hf
          have hs := step_run _ _ _ hf
          simp only [Bool.false_eq_true, if_false] at hs
          unfold prefixInstr at hs
          split_ifs at hs with h1 h2
          · cases hz : s.cfg.zeroPrefix
            · simp only [exec, execLzZeroPfx, State.withLz_cfg, hz, State.withLz_lz, State.withLz_withLz] at hs
              exact ⟨_, hs, .raise _ _ (by simp) rfl (.inl rfl) fun _ => hi⟩
            · simp only [exec, execLzZeroPfx, State.withLz_cfg, hz, State.withLz_lz, State.withLz_withLz] at hs
              exact ⟨_, hs, .skip hp hl hi⟩
          · exact ⟨_, hs, .raw _ hp hl hi⟩
          · exact ⟨_, hs, .coded _ hp hl h1 hi⟩
    · rw [if_pos hl] at hf
      rcases lzToken_one_or_raise .rawData false s s.lz .lzData (fun _ => rfl) with ⟨f, hu, h⟩ | ⟨b, hi, _, h⟩
      · rw [h] at hf; exact ⟨_, step_done _ _ hf, .raise _ _ hu rfl (.inl rfl) id⟩
      · rw [h] at hf
        have hs := step_run _ _ _ hf
        by_cases ho : s.lz.op < s.lz.outLen
        · simp [exec, execLzData] at hs; rw [lzEmit_room _ _ (by exact ho)] at hs
          exact ⟨_, hs, .data b hp hl hi ho⟩
        · simp [exec, execLzData] at hs; rw [lzEmit_full _ _ (by simp only []; omega)] at hs
          exact ⟨_, hs, .raise _ _ (by simp) rfl (.inl rfl) fun _ => hi⟩
  | group =>
    rw [lzNext_group s hp] at hf
    unfold lzGroup at hf; dsimp only at hf
    by_cases hu : s.lz.blkUsed = s.lz.blkLen
    · rw [if_pos hu] at hf; exact ⟨_, step_done _ _ hf, .blockEnd (by simp [hp]) hu⟩
    · rw [if_neg hu] at hf
      rcases lzToken_one_or_raise .control true s s.lz .lzCtl (fun _ => rfl) with ⟨f, hu, h⟩ | ⟨b, hi, hb, h⟩
      · rw [h] at hf; exact ⟨_, step_done _ _ hf, .raise _ _ hu rfl (.inl rfl) id⟩
      · rw [h] at hf
        exact ⟨_, step_run _ _ _ hf, .ctl b hp hi (hb rfl)⟩
  | item =>
    rw [lzNext_item s hp] at hf
    by_cases hu : s.lz.blkUsed = s.lz.blkLen
    · unfold lzItem at hf; dsimp only at hf; rw [if_pos hu] at hf; exact ⟨_, step_done _ _ hf, .blockEnd (by simp [hp]) hu⟩
    · by_cases hk : s.lz.ctlK = 8
      · unfold lzItem at hf; dsimp only at hf; rw [if_neg hu, if_pos hk] at hf; exact ⟨_, step_done _ _ hf, .groupEnd hp hk⟩
      · rw [lzItem_item s hu hk] at hf
        by_cases hc : controlBit s.cfg.flagOrder s.lz.ctl s.lz.ctlK = true
        · rw [if_pos hc] at hf
          rcases lzToken_one_or_raise (.item true) true s { s.lz with ctlK := s.lz.ctlK + 1 } .lzLit (fun _ => rfl) with ⟨f, hu, h⟩ | ⟨b, hi, hb, h⟩
          · rw [h] at hf; exact ⟨_, step_done _ _ hf, .raise _ _ hu rfl (.inr ⟨hk, rfl⟩) id⟩
          · rw [h] at hf
            have hs := step_run _ _ _ hf
            by_cases ho : s.lz.op < s.lz.outLen
            · simp [exec, execLzLit] at hs; rw [lzEmit_room _ _ (by exact ho)] at hs
              exact ⟨_, hs, .lit b hp hi (hb rfl) hk ho⟩
            · simp [exec, execLzLit] at hs; rw [lzEmit_full _ _ (by simp only []; omega)] at hs
              exact ⟨_, hs, .raise _ _ (by simp) rfl (.inr ⟨hk, rfl⟩) fun _ => hi⟩
        · rw [if_neg hc] at hf
          by_cases hok : s.lz.ip + 2 ≤ s.lz.inLen ∧ s.lz.blkUsed.toNat + 2 ≤ s.lz.blkLen.toNat
          · rw [lzToken_two (.item false) true s { s.lz with ctlK := s.lz.ctlK + 1 } _ _ (fun _ => hok.2) hok.1 rfl] at hf
            have hs := step_run _ _ _ hf
            exact ⟨_, hs, .ref _ _ hp hok.1 hok.2 hk⟩
          · rcases lzFetchMany_cases true 2 { s.lz with ctlK := s.lz.ctlK + 1 } with ⟨f, v, hu, e, hv, hle⟩ | ⟨bs, v, e, hl, hv, hip, hbu, _⟩
            · rw [lzToken_error _ _ _ _ _ _ e] at hf
              exact ⟨_, step_done _ _ hf, .raise f v hu (by rw [hv]) (by rw [hv]; exact .inr ⟨hk, rfl⟩) hle⟩
            · exfalso
              have := hip (by omega)
              have h3 : s.lz.blkUsed.toNat + 2 ≤ s.lz.blkLen.toNat := by
                by_contra hc
                unfold lzFetchMany at e
                rcases lzFetch_cases true { s.lz with ctlK := s.lz.ctlK + 1 } with ⟨f, hf, h⟩ | ⟨hi, hb, h⟩
                · rw [h] at e; cases e
                · rw [h] at e; dsimp only at e
                  have hb := hb rfl
                  dsimp only at hb
                  have h1 : (s.lz.blkUsed + 1).toNat = s.lz.blkUsed.toNat + 1 := by have := s.lz.blkLen.isLt; bv_omega
                  rw [lzFetchMany, lzFetch_overrun _ (by simp only [if_true, h1]; omega)] at e
                  cases e
              simp only [] at this
              omega

end Sys2Proof.Machine
end

