-- ==== Sys2Proof/Laws/PerInstr.lean ====
section
/-! SUPPORT. What is said of every instruction as syntax, one lemma a constructor: its encoding has the length
spec/opcode_table.json gives its row, whatever the parameters. -/

namespace Sys2Proof.Laws

/-- The length in bits of an instruction's words. -/
def wordsBits : Words → Nat
  | .bytes b => 8 * b.length
  | .bits b => b.length
  | .command _ => 8

/-- The length in bits of each row of spec/opcode_table.json (30_encoding.md R81 to R90, R104); a LINEAR code word has
the width its selector gives (R178). -/
def rowBits : Instr → Nat
  | .lzRaw _ => 16
  | .lzCoded _ => 16
  | .lzZeroPfx => 16
  | .lzData _ => 8
  | .lzCtl _ => 8
  | .lzLit _ => 8
  | .lzRef _ _ => 16
  | .auHdr _ _ _ _ _ _ => 112
  | .auHdrWrapper => 24
  | .auBlk _ _ => 20
  | .auSel0Zero => 5
  | .auSel1Bad => 5
  | .auSel2Bad => 5
  | .auSel3Linear => 5
  | .auSel4Linear => 5
  | .auSel5Linear => 5
  | .auSel6Linear => 5
  | .auSel7Linear => 5
  | .auSel8Linear => 5
  | .auSel9Linear => 5
  | .auSel10Linear => 5
  | .auSel11Linear => 5
  | .auSel12Linear => 5
  | .auSel13Linear => 5
  | .auSel14Linear => 5
  | .auSel15Linear => 5
  | .auSel16Linear => 5
  | .auSel17K13 => 5
  | .auSel18K12 => 5
  | .auSel19T15 => 5
  | .auSel20K24 => 5
  | .auSel21K23 => 5
  | .auSel22T27 => 5
  | .auSel23K35 => 5
  | .auSel24K34 => 5
  | .auSel25K45 => 5
  | .auSel26K44 => 5
  | .auSel27T37 => 5
  | .auSel28Bad => 5
  | .auSel29Bad => 5
  | .auSel30Bad => 5
  | .auSel31Bad => 5
  | .auLinearV w _ => w.toNat
  | .auK13Z2 => 1
  | .auK13Z1 => 2
  | .auK13V _ => 3
  | .auK24Z2 => 1
  | .auK24Z1 => 2
  | .auK24V _ => 4
  | .auK45Z2 => 1
  | .auK45Z1 => 2
  | .auK45V _ => 5
  | .auK12Z1 => 1
  | .auK12V _ => 2
  | .auK23Z1 => 1
  | .auK23V _ => 3
  | .auK44Z1 => 1
  | .auK44V _ => 4
  | .auK35Z2 => 1
  | .auK35Z1 => 2
  | .auK35V1 _ => 4
  | .auK35V2 _ => 5
  | .auK34Z1 => 1
  | .auK34V1 _ => 3
  | .auK34V2 _ => 4
  | .auT15Idx _ => 5
  | .auT27Idx _ => 7
  | .auT37Idx _ => 7
  | .lzStart => 8
  | .lzReset => 8
  | .auInit => 8
  | .auNext => 8
  | .auRestart => 8
  | .auClearWrap => 8
  | .auReset => 8

namespace EncodedLength

/-- The encoding has the row's length. -/
def Statement (i : Instr) : Prop := ∀ c : Config, wordsBits (encode c i) = rowBits i

theorem lzRaw (w : BitVec 16) : Statement (.lzRaw w) :=
  fun k => by show 8 * (prefixBytes k.prefixOrder w).length = 16; cases k.prefixOrder <;> rfl

theorem lzCoded (w : BitVec 16) : Statement (.lzCoded w) :=
  fun k => by show 8 * (prefixBytes k.prefixOrder w).length = 16; cases k.prefixOrder <;> rfl

theorem lzZeroPfx : Statement .lzZeroPfx :=
  fun _ => rfl

theorem lzData (d : Byte) : Statement (.lzData d) :=
  fun _ => rfl

theorem lzCtl (c : Byte) : Statement (.lzCtl c) :=
  fun _ => rfl

theorem lzLit (d : Byte) : Statement (.lzLit d) :=
  fun _ => rfl

theorem lzRef (off : BitVec 12) (lenM3 : BitVec 4) : Statement (.lzRef off lenM3) :=
  fun _ => rfl

theorem auHdr (version : BitVec 8) (samples : BitVec 32) (channels rate : BitVec 16) (level : BitVec 4) (rows : BitVec 12) : Statement (.auHdr version samples channels rate level rows) :=
  fun k => by show (headerBits _ _ _ _ _ _ _).length = 112; simp [headerBits]

theorem auHdrWrapper : Statement .auHdrWrapper :=
  fun _ => length_fieldBits _ _ _

theorem auBlk (pwr : BitVec 4) (scale : BitVec 16) : Statement (.auBlk pwr scale) :=
  fun k => by show (fieldBits _ _ _ ++ fieldBits _ _ _).length = 20; simp

theorem auSel0Zero : Statement .auSel0Zero :=
  fun _ => length_fieldBits _ _ _

theorem auSel1Bad : Statement .auSel1Bad :=
  fun _ => length_fieldBits _ _ _

theorem auSel2Bad : Statement .auSel2Bad :=
  fun _ => length_fieldBits _ _ _

theorem auSel3Linear : Statement .auSel3Linear :=
  fun _ => length_fieldBits _ _ _

theorem auSel4Linear : Statement .auSel4Linear :=
  fun _ => length_fieldBits _ _ _

theorem auSel5Linear : Statement .auSel5Linear :=
  fun _ => length_fieldBits _ _ _

theorem auSel6Linear : Statement .auSel6Linear :=
  fun _ => length_fieldBits _ _ _

theorem auSel7Linear : Statement .auSel7Linear :=
  fun _ => length_fieldBits _ _ _

theorem auSel8Linear : Statement .auSel8Linear :=
  fun _ => length_fieldBits _ _ _

theorem auSel9Linear : Statement .auSel9Linear :=
  fun _ => length_fieldBits _ _ _

theorem auSel10Linear : Statement .auSel10Linear :=
  fun _ => length_fieldBits _ _ _

theorem auSel11Linear : Statement .auSel11Linear :=
  fun _ => length_fieldBits _ _ _

theorem auSel12Linear : Statement .auSel12Linear :=
  fun _ => length_fieldBits _ _ _

theorem auSel13Linear : Statement .auSel13Linear :=
  fun _ => length_fieldBits _ _ _

theorem auSel14Linear : Statement .auSel14Linear :=
  fun _ => length_fieldBits _ _ _

theorem auSel15Linear : Statement .auSel15Linear :=
  fun _ => length_fieldBits _ _ _

theorem auSel16Linear : Statement .auSel16Linear :=
  fun _ => length_fieldBits _ _ _

theorem auSel17K13 : Statement .auSel17K13 :=
  fun _ => length_fieldBits _ _ _

theorem auSel18K12 : Statement .auSel18K12 :=
  fun _ => length_fieldBits _ _ _

theorem auSel19T15 : Statement .auSel19T15 :=
  fun _ => length_fieldBits _ _ _

theorem auSel20K24 : Statement .auSel20K24 :=
  fun _ => length_fieldBits _ _ _

theorem auSel21K23 : Statement .auSel21K23 :=
  fun _ => length_fieldBits _ _ _

theorem auSel22T27 : Statement .auSel22T27 :=
  fun _ => length_fieldBits _ _ _

theorem auSel23K35 : Statement .auSel23K35 :=
  fun _ => length_fieldBits _ _ _

theorem auSel24K34 : Statement .auSel24K34 :=
  fun _ => length_fieldBits _ _ _

theorem auSel25K45 : Statement .auSel25K45 :=
  fun _ => length_fieldBits _ _ _

theorem auSel26K44 : Statement .auSel26K44 :=
  fun _ => length_fieldBits _ _ _

theorem auSel27T37 : Statement .auSel27T37 :=
  fun _ => length_fieldBits _ _ _

theorem auSel28Bad : Statement .auSel28Bad :=
  fun _ => length_fieldBits _ _ _

theorem auSel29Bad : Statement .auSel29Bad :=
  fun _ => length_fieldBits _ _ _

theorem auSel30Bad : Statement .auSel30Bad :=
  fun _ => length_fieldBits _ _ _

theorem auSel31Bad : Statement .auSel31Bad :=
  fun _ => length_fieldBits _ _ _

theorem auLinearV (w : BitVec 5) (v : BitVec 32) : Statement (.auLinearV w v) :=
  fun _ => length_fieldBits _ _ _

theorem auK13Z2 : Statement .auK13Z2 :=
  fun _ => rfl

theorem auK13Z1 : Statement .auK13Z1 :=
  fun _ => rfl

theorem auK13V (v : BitVec 1) : Statement (.auK13V v) :=
  fun _ => congrArg (· + 2) (length_fieldBits _ _ _)

theorem auK24Z2 : Statement .auK24Z2 :=
  fun _ => rfl

theorem auK24Z1 : Statement .auK24Z1 :=
  fun _ => rfl

theorem auK24V (v : BitVec 2) : Statement (.auK24V v) :=
  fun _ => congrArg (· + 2) (length_fieldBits _ _ _)

theorem auK45Z2 : Statement .auK45Z2 :=
  fun _ => rfl

theorem auK45Z1 : Statement .auK45Z1 :=
  fun _ => rfl

theorem auK45V (v : BitVec 3) : Statement (.auK45V v) :=
  fun _ => congrArg (· + 2) (length_fieldBits _ _ _)

theorem auK12Z1 : Statement .auK12Z1 :=
  fun _ => rfl

theorem auK12V (v : BitVec 1) : Statement (.auK12V v) :=
  fun _ => congrArg (· + 1) (length_fieldBits _ _ _)

theorem auK23Z1 : Statement .auK23Z1 :=
  fun _ => rfl

theorem auK23V (v : BitVec 2) : Statement (.auK23V v) :=
  fun _ => congrArg (· + 1) (length_fieldBits _ _ _)

theorem auK44Z1 : Statement .auK44Z1 :=
  fun _ => rfl

theorem auK44V (v : BitVec 3) : Statement (.auK44V v) :=
  fun _ => congrArg (· + 1) (length_fieldBits _ _ _)

theorem auK35Z2 : Statement .auK35Z2 :=
  fun _ => rfl

theorem auK35Z1 : Statement .auK35Z1 :=
  fun _ => rfl

theorem auK35V1 (v : BitVec 1) : Statement (.auK35V1 v) :=
  fun _ => congrArg (· + 3) (length_fieldBits _ _ _)

theorem auK35V2 (v : BitVec 2) : Statement (.auK35V2 v) :=
  fun _ => congrArg (· + 3) (length_fieldBits _ _ _)

theorem auK34Z1 : Statement .auK34Z1 :=
  fun _ => rfl

theorem auK34V1 (v : BitVec 1) : Statement (.auK34V1 v) :=
  fun _ => congrArg (· + 2) (length_fieldBits _ _ _)

theorem auK34V2 (v : BitVec 2) : Statement (.auK34V2 v) :=
  fun _ => congrArg (· + 2) (length_fieldBits _ _ _)

theorem auT15Idx (v : BitVec 5) : Statement (.auT15Idx v) :=
  fun _ => length_fieldBits _ _ _

theorem auT27Idx (v : BitVec 7) : Statement (.auT27Idx v) :=
  fun _ => length_fieldBits _ _ _

theorem auT37Idx (v : BitVec 7) : Statement (.auT37Idx v) :=
  fun _ => length_fieldBits _ _ _

theorem lzStart : Statement .lzStart :=
  fun _ => rfl

theorem lzReset : Statement .lzReset :=
  fun _ => rfl

theorem auInit : Statement .auInit :=
  fun _ => rfl

theorem auNext : Statement .auNext :=
  fun _ => rfl

theorem auRestart : Statement .auRestart :=
  fun _ => rfl

theorem auClearWrap : Statement .auClearWrap :=
  fun _ => rfl

theorem auReset : Statement .auReset :=
  fun _ => rfl

end EncodedLength

end Sys2Proof.Laws
end

