-- ==== Sys2Proof/Tests/Slice0.lean ====
section
/-! SUPPORT. The model's own tests: what WellFormed refuses, one word of every instruction written out from the spec's encoding,
one step of every instruction, and a witness for the hypotheses of every statement. Expected results are worked by hand from the
rules cited or taken from 95_test_vectors.md. -/

namespace Sys2Proof.Tests

open Sys2Proof.Machine

/-! ## Well-formedness -/

theorem test_wellFormed_raw_not_negative : (Instr.lzRaw 0x7FFF).wellFormed = false := by decide
theorem test_wellFormed_raw_zero : (Instr.lzRaw 0).wellFormed = false := by decide
theorem test_wellFormed_coded_negative : (Instr.lzCoded 0x8000).wellFormed = false := by decide
theorem test_wellFormed_coded_zero : (Instr.lzCoded 0).wellFormed = false := by decide
theorem test_wellFormed_linear_no_width : (Instr.auLinearV 0 0).wellFormed = false := by decide
theorem test_wellFormed_linear_value_too_wide : (Instr.auLinearV 3 8).wellFormed = false := by decide

/-! ## Decoding -/

/-- Stream bits in read order. -/
def bits (l : List Nat) : List Bool := l.map (· == 1)

/-- Whether decoding bits gives the instruction, all of them taken. -/
def reads (x : AuCtx) (l : List Nat) (i : Instr) : Bool := decodeAu Config.default x (bits l) == .ok i l.length

/-- The LZSS tokens (30_encoding.md R81 to R85; 95_test_vectors.md V1, V2). -/
theorem test_decode_lz :
    decodeLz Config.default .blockPrefix [0xFF, 0xFC] = .ok (.lzRaw 0xFFFC) 2 ∧
    decodeLz Config.default .blockPrefix [0x00, 0x05] = .ok (.lzCoded 5) 2 ∧
    decodeLz Config.default .blockPrefix [0x00, 0x00] = .ok .lzZeroPfx 2 ∧
    decodeLz Config.default .rawData [0x01] = .ok (.lzData 0x01) 1 ∧
    decodeLz Config.default .control [0x03] = .ok (.lzCtl 0x03) 1 ∧
    decodeLz Config.default (.item true) [0x41] = .ok (.lzLit 0x41) 1 ∧
    decodeLz Config.default (.item false) [0xEE, 0xF3] = .ok (.lzRef 0xFEE 3) 2 := by decide

/-- The other byte order of the prefix (R81; vector X2). -/
theorem test_decode_prefix_little :
    decodeLz { Config.default with prefixOrder := .little } .blockPrefix [0xFC, 0xFF] = .ok (.lzRaw 0xFFFC) 2 := by decide

/-- The bits of bytes in stream order, least significant first (40_bit_reader.md R110). -/
def byteStream (l : List Byte) : List Bool := l.flatMap (byteBits .lsbFirst)

/-- Vector H1. -/
theorem test_decode_header :
    decodeAu Config.default .header
      (byteStream [0x97, 0x28, 0x03, 0x01, 0x06, 0, 0, 0, 0x01, 0, 0x22, 0x56, 0x40, 0x00]) =
      .ok (.auHdr 1 6 1 22050 0 4) 112 := by decide

/-- Vector H4. -/
theorem test_decode_wrapper_header :
    decodeAu Config.default .header (byteStream [0x57, 0x41, 0x56, 0x01]) = .ok .auHdrWrapper 24 := by decide

/-- Vector H3. -/
theorem test_decode_bad_magic :
    decodeAu Config.default .header (byteStream [0x98, 0x28, 0x03, 0x01]) = .reject .badMagic 24 := by decide

/-- `BLK 2, 3` of program P5: bytes 32 00 40, its 20 bits. -/
theorem test_decode_block :
    reads .block [0,1,0,0, 1,1,0,0,0,0,0,0,0,0,0,0,0,0,0,0] (.auBlk 2 3) = true := by decide

/-- Selectors 0 to 15, least significant bit first (30_encoding.md R89). -/
theorem test_decode_selectors_0 :
    reads .selector [0,0,0,0,0] .auSel0Zero &&
    reads .selector [1,0,0,0,0] .auSel1Bad &&
    reads .selector [0,1,0,0,0] .auSel2Bad &&
    reads .selector [1,1,0,0,0] .auSel3Linear &&
    reads .selector [0,0,1,0,0] .auSel4Linear &&
    reads .selector [1,0,1,0,0] .auSel5Linear &&
    reads .selector [0,1,1,0,0] .auSel6Linear &&
    reads .selector [1,1,1,0,0] .auSel7Linear &&
    reads .selector [0,0,0,1,0] .auSel8Linear &&
    reads .selector [1,0,0,1,0] .auSel9Linear &&
    reads .selector [0,1,0,1,0] .auSel10Linear &&
    reads .selector [1,1,0,1,0] .auSel11Linear &&
    reads .selector [0,0,1,1,0] .auSel12Linear &&
    reads .selector [1,0,1,1,0] .auSel13Linear &&
    reads .selector [0,1,1,1,0] .auSel14Linear &&
    reads .selector [1,1,1,1,0] .auSel15Linear = true := by decide

/-- Selectors 16 to 31, least significant bit first (30_encoding.md R89). -/
theorem test_decode_selectors_16 :
    reads .selector [0,0,0,0,1] .auSel16Linear &&
    reads .selector [1,0,0,0,1] .auSel17K13 &&
    reads .selector [0,1,0,0,1] .auSel18K12 &&
    reads .selector [1,1,0,0,1] .auSel19T15 &&
    reads .selector [0,0,1,0,1] .auSel20K24 &&
    reads .selector [1,0,1,0,1] .auSel21K23 &&
    reads .selector [0,1,1,0,1] .auSel22T27 &&
    reads .selector [1,1,1,0,1] .auSel23K35 &&
    reads .selector [0,0,0,1,1] .auSel24K34 &&
    reads .selector [1,0,0,1,1] .auSel25K45 &&
    reads .selector [0,1,0,1,1] .auSel26K44 &&
    reads .selector [1,1,0,1,1] .auSel27T37 &&
    reads .selector [0,0,1,1,1] .auSel28Bad &&
    reads .selector [1,0,1,1,1] .auSel29Bad &&
    reads .selector [0,1,1,1,1] .auSel30Bad &&
    reads .selector [1,1,1,1,1] .auSel31Bad = true := by decide

/-- K13, K24 and K45 (R90; vectors D4, D6, D10). -/
theorem test_decode_two_zero_words :
    reads (.code .k13 17) [0] .auK13Z2 &&
    reads (.code .k13 17) [1,0] .auK13Z1 &&
    reads (.code .k13 17) [1,1,1] (.auK13V 1) &&
    reads (.code .k24 20) [0] .auK24Z2 &&
    reads (.code .k24 20) [1,0] .auK24Z1 &&
    reads (.code .k24 20) [1,1,0,1] (.auK24V 2) &&
    reads (.code .k45 25) [0] .auK45Z2 &&
    reads (.code .k45 25) [1,0] .auK45Z1 &&
    reads (.code .k45 25) [1,1,1,1,0] (.auK45V 3) = true := by decide

/-- K12, K23 and K44 (R90; vectors D5, D7, D11). -/
theorem test_decode_one_zero_words :
    reads (.code .k12 18) [0] .auK12Z1 &&
    reads (.code .k12 18) [1,0] (.auK12V 0) &&
    reads (.code .k23 21) [0] .auK23Z1 &&
    reads (.code .k23 21) [1,1,0] (.auK23V 1) &&
    reads (.code .k44 26) [0] .auK44Z1 &&
    reads (.code .k44 26) [1,0,0,1] (.auK44V 4) = true := by decide

/-- K35 and K34 (R90; vectors D8, D9). -/
theorem test_decode_tier_words :
    reads (.code .k35 23) [0] .auK35Z2 &&
    reads (.code .k35 23) [1,0] .auK35Z1 &&
    reads (.code .k35 23) [1,1,0,1] (.auK35V1 1) &&
    reads (.code .k35 23) [1,1,1,0,1] (.auK35V2 2) &&
    reads (.code .k34 24) [0] .auK34Z1 &&
    reads (.code .k34 24) [1,0,0] (.auK34V1 0) &&
    reads (.code .k34 24) [1,1,1,0] (.auK34V2 1) = true := by decide

/-- LINEAR, T15, T27 and T37 (R90; vectors D1, D12, D13, D14). -/
theorem test_decode_fixed_words :
    reads (.code .linear 3) [1,1,0] (.auLinearV 3 3) &&
    reads (.code .linear 16) [1,0,0,0,0,0,0,0,0,0,0,0,0,0,0,1] (.auLinearV 16 0x8001) &&
    reads (.code .t15 19) [1,0,1,0,0] (.auT15Idx 5) &&
    reads (.code .t27 22) [1,1,1,0,0,0,0] (.auT27Idx 7) &&
    reads (.code .t37 27) [0,0,1,1,0,0,0] (.auT37Idx 12) = true := by decide

/-- A field with the most significant bit first (R86, 40_bit_reader.md R111). -/
theorem test_decode_msb_first :
    decodeAu { Config.default with bitOrder := .msbFirst } .selector (bits [1,0,0,1,1]) = .ok .auSel19T15 5 := by decide

/-- The command codes (R104). -/
theorem test_decode_commands :
    decodeCommand .lzu 1 = .ok .lzStart 1 ∧ decodeCommand .lzu 2 = .ok .lzReset 1 ∧ decodeCommand .acu 1 = .ok .auInit 1 ∧
    decodeCommand .acu 2 = .ok .auNext 1 ∧ decodeCommand .acu 3 = .ok .auRestart 1 ∧
    decodeCommand .acu 4 = .ok .auClearWrap 1 ∧ decodeCommand .acu 5 = .ok .auReset 1 ∧
    decodeCommand .lzu 7 = .reject .badCommand 1 := by decide

/-- Words of the opcode table through the host's function. -/
theorem test_decodeTableWord :
    decodeTableWord 16 0x8000 = some (.lzRaw 0x8000) ∧ decodeTableWord 8 19 = some .auSel19T15 ∧
    decodeTableWord 24 0x00032 = some (.auBlk 2 3) ∧ decodeTableWord 24 0x564157 = some .auHdrWrapper := by decide

/-! ## Single steps -/

/-- What a next state is asked. -/
def after (o : Host.Outcome State Machine.Fault Refusal) (p : State → Bool) : Bool :=
  match o with
  | .next t => p t
  | .fault _ => false
  | .refused _ => false

/-- LZU BUSY with the bytes of its `IN` and the output length. -/
def lzAt (inp : List Byte) (outLen : Nat) : Lzu :=
  { Lzu.initial with
    status := .busy, inLen := inp.length, outLen := outLen, inp := placeBytes 0 inp [] }

/-- A state with that LZU. -/
def withLzu (u : Lzu) : State := State.reset.withLz u

/-- ACU BUSY at level 0 with `rows` rows, scale 3, at row 0. -/
def auAt (rows : BitVec 12) (phase : AuPhase) : Acu :=
  { Acu.initial with status := .busy, phase := phase, rows := rows, scale := 3, samples := 8, rate := 8000, channels := 1 }

/-- A state with that ACU. -/
def withAcu (u : Acu) : State := State.reset.withAu u

/-- Cells from address 0 up. -/
def placeCells (l : List Int) : Memory 32 := l.zipIdx.map fun c => (c.2, BitVec.ofInt 32 c.1)

/-- The listed cells of `BLOCK` as signed numbers. -/
def cells (t : State) : List (Nat × Int) := t.au.block.map fun c => (c.1, c.2.toInt)

/-- Vectors V1 and V6: RAW 10 with three bytes left is trimmed. -/
theorem test_step_raw_prefix :
    after (step (withLzu (lzAt [0xFF, 0xF6, 0x61, 0x62, 0x63] 3))) (fun t =>
      t.lz.rawLeft == 3 && t.lz.blkLen == 10 && t.lz.flags == 1 && t.lz.ip == 2) = true := by decide

/-- Vector V15: prefix 0x8000 is RAW 32768 (41_lzss.md R133). -/
theorem test_exec_raw_largest :
    after (exec (.lzRaw 0x8000) (withLzu (lzAt [7, 7] 5))) (fun t => t.lz.blkLen == 0x8000 && t.lz.rawLeft == 2) = true := by
  decide

/-- Vector V2: LZ 5 resets the dictionary. -/
theorem test_step_coded_prefix :
    after (step (withLzu { lzAt [0x00, 0x05, 0x03] 8 with ring := [(9, 1)], rp := 77 })) (fun t =>
      t.lz.ring == [] && t.lz.rp == 4078 && t.lz.blkLen == 5 && t.lz.phase == .group) = true := by decide

/-- Vectors V16 and X4. -/
theorem test_step_zero_prefix :
    after (step (withLzu (lzAt [0, 0, 0x41] 1))) (fun t => t.lz.fault == 4 && t.lz.faultIp == 2) = true := by decide
theorem test_exec_zero_prefix_skip :
    after (exec .lzZeroPfx { withLzu (lzAt [0, 0] 1) with cfg := { Config.default with zeroPrefix := .skip } })
      (fun t => t.lz.fault == 0 && t.lz.status == .busy) = true := by decide

/-- Vector V10: the third byte overflows. -/
theorem test_step_data :
    after (step (withLzu { lzAt [1, 2, 3] 2 with ip := 1, op := 1, rawLeft := 2, out := [(0, 1)] })) (fun t =>
      t.lz.out == [(0, 1), (1, 2)] && t.lz.op == 2 && t.lz.rawLeft == 1) = true := by decide
theorem test_step_data_overflow :
    after (step (withLzu { lzAt [1, 2, 3] 2 with ip := 2, op := 2, rawLeft := 1 })) (fun t =>
      t.lz.fault == 3 && t.lz.faultIp == 3 && t.lz.faultOp == 2 && t.lz.out == []) = true := by decide

/-- 41_lzss.md R126. -/
theorem test_step_control :
    after (step (withLzu { lzAt [5] 2 with phase := .group, blkLen := 3 })) (fun t =>
      t.lz.ctl == 5 && t.lz.blkUsed == 1 && t.lz.phase == .item) = true := by decide

/-- Program P2: the literal 52 at cell 4095; the write index wraps to 0. -/
theorem test_step_literal :
    after (step (withLzu { lzAt [0x52] 2 with phase := .item, blkLen := 3, ctl := 1, rp := 4095 })) (fun t =>
      t.lz.out == [(0, 0x52)] && t.lz.ring == [(4095, 0x52)] && t.lz.rp == 0 && t.lz.ctlK == 1) = true := by decide

/-- Vector V18: the copy repeats the last pushed byte. -/
theorem test_step_reference :
    after (step (withLzu { lzAt [0xEE, 0xF2] 6 with
      phase := .item, blkLen := 2, rp := 4079, ring := [(4078, 0x41)] })) (fun t =>
      t.lz.out == [(0, 0x41), (1, 0x41), (2, 0x41), (3, 0x41), (4, 0x41)] && t.lz.rp == 4084) = true := by decide

/-- Vector V23: overflow at the third copied byte. -/
theorem test_exec_reference_overflow :
    after (exec (.lzRef 0 0) (withLzu (lzAt [] 2))) (fun t =>
      t.lz.out == [(0, 0x20), (1, 0x20)] && t.lz.fault == 3 && t.lz.faultOp == 2) = true := by decide

/-- Vector H7b: rate 4096 is accepted. -/
theorem test_exec_header :
    after (exec (.auHdr 1 6 1 4096 1 4) (withAcu { auAt 0 .header with bitpos := 112 })) (fun t =>
      t.au.status == .ready && t.au.wrap == [(0, 0), (1, 0)] && t.au.dataStart == 112 && t.au.rows == 4) = true := by decide

/-- Vector H9: the version is tested first. -/
theorem test_exec_header_version :
    after (exec (.auHdr 2 6 3 0 0 4) (withAcu (auAt 0 .header))) (fun t => t.au.fault == 19 && t.au.chStored == 3) = true := by
  decide

/-- Vector H4. -/
theorem test_exec_wrapper_header :
    after (exec .auHdrWrapper (withAcu { auAt 0 .header with bitpos := 24 })) (fun t =>
      t.au.fault == 18 && t.au.faultPos == 24) = true := by decide

/-- 43_audio_block_decode.md R171. -/
theorem test_exec_block :
    after (exec (.auBlk 2 1000) (withAcu { auAt 4 .block with block := [(0, 1)] })) (fun t =>
      t.au.pwr == 2 && t.au.scale == 1000 && t.au.block == [] && t.au.phase == .selector) = true := by decide

/-- Selector 0 fills its column with zeros (R177; vector D0). -/
theorem test_exec_selector_zero :
    after (exec .auSel0Zero (withAcu (auAt 3 .selector))) (fun t =>
      cells t == [(0, 0), (1, 0), (2, 0)] && t.au.phase == .merge) = true := by decide

/-- The selectors without a decoder (R192; vectors D18 to D21). -/
theorem test_exec_selectors_bad :
    [.auSel1Bad, .auSel2Bad, .auSel28Bad, .auSel29Bad, .auSel30Bad, .auSel31Bad].all (fun i =>
      after (exec i (withAcu { auAt 2 .selector with bitpos := 137 })) (fun t => t.au.fault == 23 && t.au.faultPos == 137)) = true := by
  decide

/-- The selectors whose decoder reads code words latch their own numbers (R172, R175, R176). -/
theorem test_exec_selectors_code :
    ([(.auSel3Linear, 3), (.auSel4Linear, 4), (.auSel5Linear, 5), (.auSel6Linear, 6), (.auSel7Linear, 7), 
      (.auSel8Linear, 8), (.auSel9Linear, 9), (.auSel10Linear, 10), (.auSel11Linear, 11), 
      (.auSel12Linear, 12), (.auSel13Linear, 13), (.auSel14Linear, 14), (.auSel15Linear, 15), 
      (.auSel16Linear, 16), (.auSel17K13, 17), (.auSel18K12, 18), (.auSel19T15, 19), (.auSel20K24, 20), 
      (.auSel21K23, 21), (.auSel22T27, 22), (.auSel23K35, 23), (.auSel24K34, 24), (.auSel25K45, 25), 
      (.auSel26K44, 26), (.auSel27T37, 27)] : List (Instr × BitVec 5)).all (fun i =>
      after (exec i.1 (withAcu { auAt 2 .selector with row := 7 })) (fun t =>
        t.au.sel == i.2 && t.au.row == 0 && t.au.phase == .code && t.au.fault == 0)) = true := by decide

/-- The cells a code word writes from row 1 of 5 rows at scale 3. -/
def wordWrites (i : Instr) : List (Nat × Int) :=
  match exec i (withAcu { auAt 5 .code with row := 1 }) with
  | .next t => cells t
  | .fault _ => []
  | .refused _ => []

/-- LINEAR: the code less 2^(w-1), times the scale (R178; vectors D1, D2). -/
theorem test_exec_linear :
    (wordWrites (.auLinearV 3 0) == [(1, -12)] &&
    wordWrites (.auLinearV 16 0xFFFF) == [(1, 98301)]) = true := by decide

/-- K13, K24, K45 (R179, R181, R183, R186). -/
theorem test_exec_two_zero_words :
    (wordWrites .auK13Z2 == [(1, 0), (2, 0)] &&
    wordWrites .auK13Z1 == [(1, 0)] &&
    wordWrites (.auK13V 0) == [(1, -3)] &&
    wordWrites .auK24Z2 == [(1, 0), (2, 0)] &&
    wordWrites .auK24Z1 == [(1, 0)] &&
    wordWrites (.auK24V 3) == [(1, 6)] &&
    wordWrites .auK45Z2 == [(1, 0), (2, 0)] &&
    wordWrites .auK45Z1 == [(1, 0)] &&
    wordWrites (.auK45V 7) == [(1, 12)]) = true := by decide

/-- K12, K23, K44 (R180, R182, R187). -/
theorem test_exec_one_zero_words :
    (wordWrites .auK12Z1 == [(1, 0)] &&
    wordWrites (.auK12V 1) == [(1, 3)] &&
    wordWrites .auK23Z1 == [(1, 0)] &&
    wordWrites (.auK23V 1) == [(1, -3)] &&
    wordWrites .auK44Z1 == [(1, 0)] &&
    wordWrites (.auK44V 0) == [(1, -12)]) = true := by decide

/-- K35, K34: the far values are ±2 and ±3 (R184, R185; vectors D8, D9). -/
theorem test_exec_tier_words :
    (wordWrites .auK35Z2 == [(1, 0), (2, 0)] &&
    wordWrites .auK35Z1 == [(1, 0)] &&
    wordWrites (.auK35V1 1) == [(1, 3)] &&
    wordWrites (.auK35V2 0) == [(1, -9)] &&
    wordWrites .auK34Z1 == [(1, 0)] &&
    wordWrites (.auK34V1 0) == [(1, -3)] &&
    wordWrites (.auK34V2 3) == [(1, 9)]) = true := by decide

/-- T15, T27, T37 (R188 to R191; vectors D12, D13, D14). -/
theorem test_exec_table_words :
    (wordWrites (.auT15Idx 5) == [(1, 3), (2, 0), (3, -3)] &&
    wordWrites (.auT27Idx 7) == [(1, 0), (2, -3), (3, -6)] &&
    wordWrites (.auT37Idx 12) == [(1, -12), (2, -12)]) = true := by decide

/-- The bias of a shift table is a parameter: index 5 of TAB3x3 has the digits 2, 1, 0, which with bias 0 are the
samples (R190, by hand). -/
theorem test_bias_is_parameter :
    t15Raws { Config.default with bias3x3 := 0 } 5 = some [2, 1, 0] ∧ t15Raws Config.default 5 = some [1, 0, -1] := by decide

/-- The quota cuts a code word (R179, R188): one slot left, one sample written, the subband over. -/
theorem test_exec_words_cut :
    [Instr.auK13Z2, .auK24Z2, .auK45Z2, .auK35Z2, .auT15Idx 13, .auT27Idx 62, .auT37Idx 60].all (fun i =>
      after (exec i (withAcu { auAt 5 .code with row := 4 })) (fun t => cells t == [(4, 0)] && t.au.phase == .merge)) = true := by
  decide

/-- Vectors D15, D16, D17. -/
theorem test_exec_table_index :
    [Instr.auT15Idx 27, .auT27Idx 125, .auT37Idx 121].all (fun i =>
      after (exec i (withAcu (auAt 5 .code))) (fun t => t.au.fault == 24 && cells t == [])) = true := by decide

/-- 41_lzss.md R120, R135 after vector V7. -/
theorem test_exec_lz_start :
    after (exec .lzStart (withLzu { lzAt [1] 4 with status := .fault, fault := 2, faultIp := 5, faultOp := 1, ip := 5, op := 1 }))
      (fun t => t.lz == lzAt [1] 4) = true := by decide
theorem test_exec_lz_reset :
    after (exec .lzReset (withLzu { lzAt [1] 4 with status := .fault, fault := 2, faultIp := 5, op := 1, flags := 1 })) (fun t =>
      t.lz == { lzAt [1] 4 with status := .idle }) = true := by decide

/-- Vector H13, and AU_INIT from READY (42_audio_header.md R150). -/
theorem test_exec_au_init_forced_three :
    after (exec .auInit (withAcu { Acu.initial with chForce := 3 })) (fun t => t.au.fault == 25 && t.au.status == .fault) = true := by
  decide
theorem test_exec_au_init :
    after (exec .auInit (withAcu { auAt 4 .output with status := .ready, bitpos := 300, emitted := 4, wrap := [(0, 1)] })) (fun t =>
      t.au.status == .busy && t.au.bitpos == 0 && t.au.emitted == 0 && t.au.wrap == [] && t.au.phase == .header) = true := by decide

/-- Program P5: the third AU_NEXT, and AU_NEXT before any AU_INIT (60_exceptions.md R247). -/
theorem test_exec_au_next :
    after (exec .auNext (withAcu { auAt 4 .output with status := .ready, emitted := 8, lastN := 2 })) (fun t =>
      t.au.status == .endComplete && t.au.lastN == 0) = true := by decide
/-- A second AU_NEXT begins its block with `AU_LAST_N` 0 (10_state.md R20), also after the host changed the byte under the
cursor, of which two bits are consumed. -/
theorem test_exec_au_next_again :
    after (exec .auNext (withAcu (auPlace 2 0xFF
      { auAt 4 .output with status := .ready, emitted := 4, lastN := 4, bitpos := 18, inp := [(2, 0x11), (3, 0x22)] }))) (fun t =>
      t.au.status == .busy && t.au.phase == .block && t.au.lastN == 0 && t.au.changedAt == some 2) = true := by decide

/-- A byte past the cursor, and the byte under it as it was, are no change of it. -/
theorem test_place_elsewhere :
    (let u : Acu := { Acu.initial with inLen := 4, bitpos := 18, inp := [(2, 0x11), (3, 0x22)] };
      (auPlace 3 0xFF u).changedAt = none ∧ (auPlace 3 0xFF u).inp = [(2, 0x11), (3, 0xFF)] ∧ auPlace 2 0x11 u = u ∧
      (auPlace 2 0xFF { u with bitpos := 16 }).changedAt = none) := by decide
theorem test_exec_au_next_idle : after (exec .auNext State.reset) (fun t => t.au.fault == 25) = true := by decide

/-- 44_audio_merge_output.md R224, R225: the wrap history outlives a restart and not a clear. -/
theorem test_exec_au_restart :
    after (exec .auRestart (withAcu
      { auAt 2 .output with status := .endComplete, bitpos := 224, dataStart := 112, emitted := 12, wrap := [(0, 30)] })) (fun t =>
      t.au.status == .ready && t.au.bitpos == 112 && t.au.emitted == 0 && t.au.wrap == [(0, 30)]) = true := by decide
theorem test_exec_au_clear_wrap :
    after (exec .auClearWrap (withAcu { auAt 2 .output with status := .ready, level := 1, wrap := [(0, 30), (1, 20)] })) (fun t =>
      t.au.wrap == [(0, 0), (1, 0)] && t.au.status == .ready) = true := by decide

/-- R228. -/
theorem test_exec_au_reset :
    after (exec .auReset (withAcu { auAt 2 .output with status := .ready, inLen := 9, chForce := 2, pcm := [(0, 5)] })) (fun t =>
      t.au.status == .idle && t.au.inLen == 9 && t.au.chForce == 2 && t.au.pcm == [(0, 5)] && t.au.rows == 0) = true := by decide

/-- Vector J3 and the output of program P6, block 0. -/
theorem test_juggle :
    (juggle 0 0 0 2 4 (placeCells [300, 100, 100, 0, -400, 0, 0, 0], Memory.zeros 0 4)) =
      (placeCells [300, 100, 500, 200, 100, 100, -900, 0], placeCells [-400, 0, 0, 0]) := by decide

/-- Program P7, pass 1, block 0: both passes and the plus-one between them. -/
theorem test_wrap_merge :
    (let u := wrapMerge Config.default
        { auAt 2 .merge with level := 2, block := placeCells [300, 100, 100, 0, -400, 0, 0, 0], wrap := Memory.zeros 0 6 };
      (u.block, u.wrap)) =
      (placeCells [301, 502, 1002, 702, 1002, -98, -598, -1898], placeCells [-400, 0, 0, 0, -899, 0]) := by decide

theorem test_output_step :
    (outputStep Config.default
      { auAt 3 .output with level := 1, samples := 10, block := placeCells [7, 11, 9, -15, 27, 25] }).pcm.map (fun c => c.2.toInt) =
      [3, 5, 4, -8, 13, 12] := by decide

/-- Vector W1. -/
theorem test_wave_header :
    waveHeader { Acu.initial with samples := 6, channels := 1, rate := 22050 } =
      [0x52, 0x49, 0x46, 0x46, 0x30, 0, 0, 0, 0x57, 0x41, 0x56, 0x45, 0x66, 0x6D, 0x74, 0x20, 0x10, 0, 0, 0, 1, 0, 1, 0,
       0x22, 0x56, 0, 0, 0x44, 0xAC, 0, 0, 2, 0, 0x10, 0, 0x64, 0x61, 0x74, 0x61, 0x0C, 0, 0, 0] := by decide
theorem test_wave_samples :
    (waveFile { Acu.initial with
      samples := 6, channels := 1, rate := 22050
      pcm := [3, -6, 21, -24, 300, -400].zipIdx.map fun c => (c.2, BitVec.ofInt 16 c.1) }).drop 44 =
      [0x03, 0x00, 0xFA, 0xFF, 0x15, 0x00, 0xE8, 0xFF, 0x2C, 0x01, 0x70, 0xFE] := by decide

/-- Vectors B1, B3 and B5 (40_bit_reader.md R111 to R113). -/
theorem test_bit_read :
    let u : Acu := { Acu.initial with inLen := 2, inp := [(0, 0xA5), (1, 0x3C)] }
    bitRead .lsbFirst 16 u = .value 0x3CA5 { u with bitpos := 16 } ∧ bitRead .msbFirst 16 u = .value 0xA53C { u with bitpos := 16 } ∧
    bitRead .lsbFirst 17 u = .endOfInput u := by decide

/-! ## Witnesses: for every statement with hypotheses, values that meet them together, at the ends of their ranges -/

theorem test_witness_LzDecodeEncode :
    (Instr.lzRef 0xFFF 15).wellFormed = true ∧ contextOf (.lzRef 0xFFF 15) = .lz (.item false) ∧
    encode Config.default (.lzRef 0xFFF 15) = .bytes [0xFF, 0xFF] ∧
    (Instr.lzRaw 0x8000).wellFormed = true ∧ contextOf (.lzRaw 0x8000) = .lz .blockPrefix ∧
    encode Config.default (.lzRaw 0x8000) = .bytes [0x80, 0x00] ∧
    (Instr.lzCoded 0x7FFF).wellFormed = true ∧ contextOf (.lzCoded 0x7FFF) = .lz .blockPrefix ∧
    encode Config.default (.lzCoded 0x7FFF) = .bytes [0x7F, 0xFF] := by decide

theorem test_witness_AuDecodeEncode :
    (Instr.auLinearV 1 1).wellFormed = true ∧ contextOf (.auLinearV 1 1) = .au (.code .linear 1) ∧
    encode Config.default (.auLinearV 1 1) = .bits [true] ∧
    (Instr.auLinearV 31 0x7FFFFFFF).wellFormed = true ∧ contextOf (.auLinearV 31 0x7FFFFFFF) = .au (.code .linear 31) ∧
    encode Config.default (.auLinearV 31 0x7FFFFFFF) = .bits (List.replicate 31 true) ∧
    (Instr.auK13Z2).wellFormed = true ∧ contextOf .auK13Z2 = .au (.code .k13 17) ∧
    encode Config.default .auK13Z2 = .bits [false] := by decide

theorem test_witness_DecodeSound :
    decodeLz Config.default (.item false) [0xEE, 0xF3, 0x00] = .ok (.lzRef 0xFEE 3) 2 ∧
    decodeAu Config.default .selector (bits [1, 1, 1, 1, 1, 0]) = .ok .auSel31Bad 5 := by decide

/-- A BUSY LZU at a prefix that ends its input. -/
def lzAtPrefix : State := withLzu (lzAt [0xFF, 0xFC] 4)

/-- A BUSY LZU at the last byte of its input, in a raw block. -/
def lzAtData : State := withLzu { lzAt [0x07] 4 with rawLeft := 1 }

/-- A BUSY LZU at a control byte, the last of its block and its input. -/
def lzAtControl : State := withLzu { lzAt [0x05] 4 with phase := .group, blkLen := 1 }

/-- A BUSY LZU at item 7, whose control bit is `lit`. -/
def lzAtItem (inp : List Byte) (lit : Bool) : State :=
  withLzu { lzAt inp 20 with
    phase := .item, blkLen := BitVec.ofNat 16 inp.length, ctl := if lit then 0x80 else 0, ctlK := 7 }

theorem test_witness_StepRunsLzToken :
    (resetPending lzAtPrefix.ops = false ∧ lzAtPrefix.lz.status = .busy ∧ lzAtPrefix.lz.phase = .top ∧
      lzAtPrefix.lz.rawLeft = 0 ∧ lzAtPrefix.lz.op ≠ lzAtPrefix.lz.outLen ∧
      lzAtPrefix.lz.ip + 2 = lzAtPrefix.lz.inLen ∧
      decodeLz lzAtPrefix.cfg .blockPrefix [lzInByte lzAtPrefix.lz.inp 0, lzInByte lzAtPrefix.lz.inp 1] =
        .ok (.lzRaw 0xFFFC) 2) ∧
    (resetPending lzAtData.ops = false ∧ lzAtData.lz.status = .busy ∧ lzAtData.lz.phase = .top ∧ lzAtData.lz.rawLeft ≠ 0 ∧
      lzAtData.lz.ip + 1 = lzAtData.lz.inLen ∧
      decodeLz lzAtData.cfg .rawData [lzInByte lzAtData.lz.inp 0] = .ok (.lzData 7) 1) ∧
    (resetPending lzAtControl.ops = false ∧ lzAtControl.lz.status = .busy ∧ lzAtControl.lz.phase = .group ∧
      lzAtControl.lz.blkUsed.toNat + 1 = lzAtControl.lz.blkLen.toNat ∧
      lzAtControl.lz.ip + 1 = lzAtControl.lz.inLen ∧
      decodeLz lzAtControl.cfg .control [lzInByte lzAtControl.lz.inp 0] = .ok (.lzCtl 5) 1) ∧
    (let s := lzAtItem [0x41] true;
      resetPending s.ops = false ∧ s.lz.status = .busy ∧ s.lz.phase = .item ∧ s.lz.blkUsed.toNat + 1 = s.lz.blkLen.toNat ∧
      s.lz.ip + 1 = s.lz.inLen ∧ s.lz.ctlK ≠ 8 ∧ controlBit s.cfg.flagOrder s.lz.ctl s.lz.ctlK = true ∧
      decodeLz s.cfg (.item true) [lzInByte s.lz.inp 0] = .ok (.lzLit 0x41) 1) ∧
    (let s := lzAtItem [0xEE, 0xF3] false;
      resetPending s.ops = false ∧ s.lz.status = .busy ∧ s.lz.phase = .item ∧ s.lz.blkUsed.toNat + 2 = s.lz.blkLen.toNat ∧
      s.lz.ip + 2 = s.lz.inLen ∧ s.lz.ctlK ≠ 8 ∧ controlBit s.cfg.flagOrder s.lz.ctl s.lz.ctlK = false ∧
      decodeLz s.cfg (.item false) [lzInByte s.lz.inp 0, lzInByte s.lz.inp 1] = .ok (.lzRef 0xFEE 3) 2) := by decide

/-- A BUSY ACU in a place of the grammar, at the start of the bytes of its `IN`. -/
def auReading (inp : List Byte) (phase : AuPhase) (sel : BitVec 5) : State :=
  withAcu { auAt 2 phase with inLen := inp.length, inp := placeBytes 0 inp [], sel := sel }

/-- The bytes of vector H1. -/
def headerBytes : List Byte := [0x97, 0x28, 0x03, 0x01, 0x06, 0, 0, 0, 0x01, 0, 0x22, 0x56, 0x40, 0x00]

theorem test_witness_StepRunsAuToken :
    (let s := auReading headerBytes .header 0;
      resetPending s.ops = false ∧ s.lz.status ≠ .busy ∧ s.au.status = .busy ∧ s.au.phase = .header ∧
      decodeAu s.cfg .header (bitsAhead s.cfg.bitOrder s.au) = .ok (.auHdr 1 6 1 22050 0 4) 112) ∧
    (let s := auReading [0x32, 0x00, 0x40] .block 0;
      resetPending s.ops = false ∧ s.lz.status ≠ .busy ∧ s.au.status = .busy ∧ s.au.phase = .block ∧
      decodeAu s.cfg .block (bitsAhead s.cfg.bitOrder s.au) = .ok (.auBlk 2 3) 20) ∧
    (let s := auReading [0x11] .selector 0;
      resetPending s.ops = false ∧ s.lz.status ≠ .busy ∧ s.au.status = .busy ∧ s.au.phase = .selector ∧
      decodeAu s.cfg .selector (bitsAhead s.cfg.bitOrder s.au) = .ok .auSel17K13 5) ∧
    (let s := auReading [0x07] .code 17;
      resetPending s.ops = false ∧ s.lz.status ≠ .busy ∧ s.au.status = .busy ∧ s.au.phase = .code ∧
      decodeAu s.cfg (.code (decoderOf s.cfg s.au.sel) s.au.sel) (bitsAhead s.cfg.bitOrder s.au) = .ok (.auK13V 1) 3) := by
  decide

theorem test_witness_StepRunsHostCommand :
    (let s := { State.reset with ops := [.lzCommand 1] };
      s.lz.status ≠ .busy ∧ s.au.status ≠ .busy ∧ s.ops = .lzCommand 1 :: [] ∧ decodeCommand .lzu 1 = .ok .lzStart 1) ∧
    (let s := { State.reset with ops := [.lzCommand 0, .auCommand 1] };
      s.lz.status ≠ .busy ∧ s.au.status ≠ .busy ∧ s.ops = .lzCommand 0 :: [.auCommand 1] ∧
      decodeCommand .lzu 0 = .reject .badCommand 1) ∧
    (let s := { State.reset with ops := [.auCommand 5] };
      s.lz.status ≠ .busy ∧ s.au.status ≠ .busy ∧ s.ops = .auCommand 5 :: [] ∧ decodeCommand .acu 5 = .ok .auReset 1) ∧
    (let s := { State.reset with ops := [.auCommand 6] };
      s.lz.status ≠ .busy ∧ s.au.status ≠ .busy ∧ s.ops = .auCommand 6 :: [] ∧
      decodeCommand .acu 6 = .reject .badCommand 1) := by decide

/-- The reset state with one act of the host pending, both units not BUSY. -/
def asked (a : HostAct) : State := { State.reset with ops := [a] }

theorem test_witness_StepRunsHostCommand_acts :
    (∀ a, (asked a).lz.status ≠ .busy ∧ (asked a).au.status ≠ .busy) ∧
    (asked (.writeLzInLen 0xFFFFFFFF)).ops = .writeLzInLen 0xFFFFFFFF :: [] ∧
    (asked (.writeLzOutLen 0x100000000)).ops = .writeLzOutLen 0x100000000 :: [] ∧
    (asked (.writeAuInLen 0xFFFFFFFF)).ops = .writeAuInLen 0xFFFFFFFF :: [] ∧
    (asked (.writeAuChForce 3)).ops = .writeAuChForce 3 :: [] ∧
    (asked (.placeLzIn 0 0xFF)).ops = .placeLzIn 0 0xFF :: [] ∧
    (asked (.placeOut 0xFFFFFFFF 0)).ops = .placeOut 0xFFFFFFFF 0 :: [] ∧
    (asked (.placeAuIn 0xFFFFFFFF 0)).ops = .placeAuIn 0xFFFFFFFF 0 :: [] ∧
    (asked (.placePcm 0xFFFFFFFF 0x8000)).ops = .placePcm 0xFFFFFFFF 0x8000 :: [] :=
  ⟨fun _ => ⟨nofun, nofun⟩, rfl, rfl, rfl, rfl, rfl, rfl, rfl, rfl⟩

/-- A number of more than AW bits, for AW = 32 and AW = 8 (R3, R11). -/
theorem test_step_write_length :
    after (step (asked (.writeLzInLen 0x100000003))) (fun t => t.lz.inLen == 3) = true ∧
    after (step { asked (.writeAuInLen 300) with cfg := { Config.default with aw := 8 } }) (fun t => t.au.inLen == 44) =
      true := by decide

theorem test_witness_StepRunsHostCommand_illegal (j : Instr) :
    decodeCommand .lzu 0 ≠ .ok j 1 ∧ decodeCommand .acu 6 ≠ .ok j 1 := ⟨nofun, nofun⟩

theorem test_witness_PlatformReset :
    (let s := { lzAtPrefix with ops := [.reset, .lzCommand 1] };
      s.ops = .reset :: [.lzCommand 1] ∧ s.lz.status = .busy) := by decide

theorem test_witness_FaultEntryWrites : LzCause.inputExhausted ≠ .usage ∧ AuCause.tableIndex ≠ .usage := by decide

theorem test_witness_RawPrefixOpensBlock : (0x8000 : BitVec 16).msb = true ∧ (0xFFFF : BitVec 16).msb = true := by decide

theorem test_witness_ZeroPrefixFaultsOrSkips :
    State.reset.cfg.zeroPrefix = .fault ∧
    ({ State.reset with cfg := { Config.default with zeroPrefix := .skip } } : State).cfg.zeroPrefix = .skip := by decide

theorem test_witness_RawByteGoesToOut : lzAtData.lz.op < lzAtData.lz.outLen := by decide

theorem test_witness_LiteralGoesToOutAndRing :
    (let s := withLzu { lzAt [] 5 with op := 4, rp := 4095 };
      s.lz.op < s.lz.outLen ∧ s.lz.op + 1 = s.lz.outLen) := by decide

/-- The last 18 bytes of the output are owed, the write index stands just past the address read (vector V18's overlap). -/
theorem test_witness_ReferenceCopiesByteByByte :
    (let s := withLzu { lzAt [] 20 with op := 2, rp := 1 };
      s.lz.op + ((15 : BitVec 4).toNat + 3) = s.lz.outLen ∧
      ((0 : BitVec 12) + BitVec.ofNat 12 1 - s.lz.rp).toNat < 1 ∧ ¬ ((0 : BitVec 12) + BitVec.ofNat 12 0 - s.lz.rp).toNat < 0) := by
  decide

theorem test_witness_OutputOverflowFaults :
    (withLzu { lzAt [] 3 with op := 3 }).lz.outLen = (withLzu { lzAt [] 3 with op := 3 }).lz.op := by decide

theorem test_witness_ReferenceOverflowsInsideCopy :
    (let s := withLzu { lzAt [] 5 with op := 3 };
      s.lz.op ≤ s.lz.outLen ∧ s.lz.outLen - s.lz.op + 1 = (0 : BitVec 4).toNat + 3) ∧
    (let s := withLzu { lzAt [] 5 with op := 5 };
      s.lz.op ≤ s.lz.outLen ∧ s.lz.outLen - s.lz.op < (0 : BitVec 4).toNat + 3) := by decide

theorem test_witness_GroupStep :
    (let s := withLzu { lzAt [] 5 with phase := .group, blkLen := 4, blkUsed := 4 };
      resetPending s.ops = false ∧ s.lz.status = .busy ∧ s.lz.phase = .group ∧ s.lz.blkUsed = s.lz.blkLen) ∧
    (resetPending lzAtControl.ops = false ∧ lzAtControl.lz.status = .busy ∧ lzAtControl.lz.phase = .group ∧
      lzAtControl.lz.blkUsed.toNat < lzAtControl.lz.blkLen.toNat ∧ lzAtControl.lz.ip < lzAtControl.lz.inLen) ∧
    (let s := withLzu { lzAt [1] 5 with phase := .group, blkLen := 4, ip := 1 };
      resetPending s.ops = false ∧ s.lz.status = .busy ∧ s.lz.phase = .group ∧ s.lz.blkUsed.toNat < s.lz.blkLen.toNat ∧
      s.lz.inLen = s.lz.ip) := by decide

theorem test_witness_TopAndItemStepsWithoutToken :
    (let s := withLzu (lzAt [1, 2] 0);
      resetPending s.ops = false ∧ s.lz.status = .busy ∧ s.lz.phase = .top ∧ s.lz.rawLeft = 0 ∧ s.lz.op = s.lz.outLen) ∧
    (let s := withLzu (lzAt [1] 4);
      resetPending s.ops = false ∧ s.lz.status = .busy ∧ s.lz.phase = .top ∧ s.lz.rawLeft = 0 ∧ s.lz.op ≠ s.lz.outLen ∧
      s.lz.inLen + 1 = s.lz.ip + 2) ∧
    (let s := withLzu { lzAt [1] 4 with phase := .item, blkLen := 3, blkUsed := 3, ctlK := 8 };
      resetPending s.ops = false ∧ s.lz.status = .busy ∧ s.lz.phase = .item ∧ s.lz.blkUsed = s.lz.blkLen) ∧
    (let s := withLzu { lzAt [1] 4 with phase := .item, blkLen := 3, blkUsed := 2, ctlK := 8 };
      resetPending s.ops = false ∧ s.lz.status = .busy ∧ s.lz.phase = .item ∧ s.lz.blkUsed ≠ s.lz.blkLen ∧
      s.lz.ctlK = 8) := by decide

/-- Vector V17 at the item whose fetch fails: a back-reference with no byte of `IN` left, two bytes of its block consumed. -/
def lzAtCutItem : State :=
  withLzu { lzAt [0x00, 0x05, 0x01, 0x41] 2 with
    phase := .item, ip := 4, op := 1, blkLen := 5, blkUsed := 2, ctl := 1, ctlK := 1 }

/-- Vector V17: a back-reference with no byte left; a literal so; a back-reference with one byte left and room for two in the
block. -/
theorem test_witness_TopAndItemStepsWithoutToken_cut :
    (let s := lzAtCutItem;
      resetPending s.ops = false ∧ s.lz.status = .busy ∧ s.lz.phase = .item ∧ s.lz.blkUsed.toNat < s.lz.blkLen.toNat ∧
      s.lz.ctlK ≠ 8 ∧ s.lz.inLen = s.lz.ip ∧ controlBit s.cfg.flagOrder s.lz.ctl s.lz.ctlK = false) ∧
    (let s := lzAtCutItem.withLz { lzAtCutItem.lz with ctl := 0x80, ctlK := 7, blkLen := 3 };
      resetPending s.ops = false ∧ s.lz.status = .busy ∧ s.lz.phase = .item ∧ s.lz.blkUsed.toNat + 1 = s.lz.blkLen.toNat ∧
      s.lz.ctlK ≠ 8 ∧ s.lz.inLen = s.lz.ip ∧ controlBit s.cfg.flagOrder s.lz.ctl s.lz.ctlK = true) ∧
    (let s := withLzu { lzAt [0xEE] 4 with phase := .item, blkLen := 3, blkUsed := 1, ctl := 0, ctlK := 0 };
      resetPending s.ops = false ∧ s.lz.status = .busy ∧ s.lz.phase = .item ∧ s.lz.blkUsed.toNat + 2 = s.lz.blkLen.toNat ∧
      s.lz.ctlK ≠ 8 ∧ controlBit s.cfg.flagOrder s.lz.ctl s.lz.ctlK = false ∧ s.lz.ip + 1 = s.lz.inLen) := by
  decide

/-- Vector V17: LZ_INPUT_EXHAUSTED with ip 4 and op 1. -/
theorem test_step_cut_item :
    step lzAtCutItem = .next (lzAtCutItem.withLz
      { lzAtCutItem.lz with ctlK := 2, fault := 1, faultIp := 4, faultOp := 1, status := .fault }) := rfl

/-- Vector V7b: `IN` holds the second byte. -/
theorem test_witness_CutReferenceOverrunsBlock :
    (let s := withLzu { lzAt [0xEE, 0xF0] 4 with phase := .item, blkLen := 3, blkUsed := 2, ctl := 1, ctlK := 1 };
      resetPending s.ops = false ∧ s.lz.status = .busy ∧ s.lz.phase = .item ∧ s.lz.ctlK ≠ 8 ∧
      controlBit s.cfg.flagOrder s.lz.ctl s.lz.ctlK = false ∧ s.lz.blkUsed.toNat + 1 = s.lz.blkLen.toNat ∧
      s.lz.ip < s.lz.inLen) := by decide

theorem test_witness_LzStartBeginsRun :
    State.reset.lz.status ≠ .busy ∧ (withLzu { lzAt [] 4 with status := .done }).lz.status ≠ .busy ∧
    (withLzu { lzAt [] 4 with status := .fault, fault := 2 }).lz.status ≠ .busy := by decide

theorem test_witness_LzResetClears :
    State.reset.lz.status ≠ .busy ∧ (withLzu { lzAt [] 4 with status := .done }).lz.status ≠ .busy := by decide

theorem test_witness_DoneOnlyWhenOutputComplete :
    (resetPending (withLzu (lzAt [1] 0)).ops = false ∧ (withLzu (lzAt [1] 0)).lz.status = .busy ∧
      step (withLzu (lzAt [1] 0)) = .next (withLzu { lzAt [1] 0 with status := .done })) ∧
    (resetPending lzAtData.ops = false ∧ lzAtData.lz.status = .busy ∧
      step lzAtData = .next (withLzu { lzAt [0x07] 4 with ip := 1, op := 1, out := [(0, 7)] })) :=
  ⟨⟨rfl, rfl, rfl⟩, rfl, rfl, rfl⟩

theorem test_witness_LzRunEnds : resetPending lzAtPrefix.ops = false ∧ lzAtPrefix.lz.status = .busy := by decide

theorem test_witness_BitReadValue :
    (let u : Acu := { Acu.initial with inLen := 4, inp := [(0, 0x78), (1, 0x56), (2, 0x34), (3, 0x12)] };
      1 ≤ 32 ∧ u.bitpos + 32 = 8 * u.inLen) ∧
    (let u : Acu := { Acu.initial with inLen := 4, bitpos := 1 };
      1 ≤ 32 ∧ 8 * u.inLen + 1 = u.bitpos + 32) ∧
    (let u : Acu := { Acu.initial with inLen := 1, bitpos := 7, inp := [(0, 0x80)] };
      u.bitpos + 1 = 8 * u.inLen ∧ u.changedAt ≠ some (7 / 8)) ∧
    (let u : Acu := { Acu.initial with inLen := 2, bitpos := 7, inp := [(0, 0x80), (1, 0x01)], changedAt := some 0 };
      u.bitpos + 9 = 8 * u.inLen ∧ u.changedAt ≠ some ((7 + 1) / 8) ∧
      u.changedAt ≠ some ((7 + 8) / 8)) := by decide

theorem test_witness_BitReadSplits :
    (let u : Acu := { Acu.initial with inLen := 4, inp := [(0, 0x78), (1, 0x56), (2, 0x34), (3, 0x12)] };
      1 ≤ 1 ∧ 1 ≤ 31 ∧ 1 + 31 = 32 ∧ u.bitpos + (1 + 31) = 8 * u.inLen) := by decide

theorem test_witness_HeaderAccepted :
    (((1 : BitVec 2) = 1 ∨ (1 : BitVec 2) = 2) ∧
      ((auReading headerBytes .header 0).au.chForce ≠ 1 ∧ (auReading headerBytes .header 0).au.chForce ≠ 2 ∧
        (1 : BitVec 16) = (1 : BitVec 2).setWidth 16) ∧ 4096 ≤ (4096 : BitVec 16).toNat ∧ (1 : BitVec 12) ≠ 0) ∧
    (((2 : BitVec 2) = 1 ∨ (2 : BitVec 2) = 2) ∧ (withAcu { auAt 0 .header with chForce := 2 }).au.chForce = 2 ∧
      4096 ≤ (65535 : BitVec 16).toNat ∧ (4095 : BitVec 12) ≠ 0) := by decide

/-- Version 2; three stored channels; rate 4095; rows 0: each with the checks before it passed. -/
theorem test_witness_HeaderChecksInOrder :
    (2 : BitVec 8) ≠ 1 ∧
    (let eff := if State.reset.au.chForce = 1 ∨ State.reset.au.chForce = 2 then State.reset.au.chForce.setWidth 16
        else (3 : BitVec 16);
      eff ≠ 1 ∧ eff ≠ 2) ∧
    (let eff := if State.reset.au.chForce = 1 ∨ State.reset.au.chForce = 2 then State.reset.au.chForce.setWidth 16
        else (2 : BitVec 16);
      (eff = 1 ∨ eff = 2) ∧ (4095 : BitVec 16).toNat < 4096 ∧ 4096 ≤ (4096 : BitVec 16).toNat) := by decide

theorem test_witness_WrapperHeaderFaults :
    (let s := auReading [0x57, 0x41, 0x56] .header 0;
      resetPending s.ops = false ∧ s.lz.status ≠ .busy ∧ s.au.status = .busy ∧ s.au.phase = .header ∧ s.au.bitpos = 0 ∧
      24 = 8 * s.au.inLen ∧
      fieldValue s.cfg.bitOrder ((bitsAhead s.cfg.bitOrder s.au).take 24) = 0x564157) := by decide

theorem test_witness_HeaderParseFaults :
    (let s := auReading [0x97, 0x28] .header 0;
      resetPending s.ops = false ∧ s.lz.status ≠ .busy ∧ s.au.status = .busy ∧ s.au.phase = .header ∧ s.au.bitpos = 0 ∧
      8 * s.au.inLen < 24) ∧
    (let s := auReading [0x98, 0x28, 0x03] .header 0;
      resetPending s.ops = false ∧ s.lz.status ≠ .busy ∧ s.au.status = .busy ∧ s.au.phase = .header ∧ s.au.bitpos = 0 ∧
      24 = 8 * s.au.inLen ∧
      fieldValue s.cfg.bitOrder ((bitsAhead s.cfg.bitOrder s.au).take 24) = 0x032898) ∧
    (let s := auReading (headerBytes.take 13) .header 0;
      resetPending s.ops = false ∧ s.lz.status ≠ .busy ∧ s.au.status = .busy ∧ s.au.phase = .header ∧ s.au.bitpos = 0 ∧
      24 ≤ 8 * s.au.inLen ∧ 8 * s.au.inLen < 112 ∧
      fieldValue s.cfg.bitOrder ((bitsAhead s.cfg.bitOrder s.au).take 24) = 0x032897) := by decide

theorem test_witness_SelectorBeginsDecoder :
    selectorValue .auSel3Linear = some 3 ∧ hasCodeWords (decoderOf State.reset.cfg (BitVec.ofNat 5 3)) ∧
    selectorValue .auSel27T37 = some 27 ∧ hasCodeWords (decoderOf State.reset.cfg (BitVec.ofNat 5 27)) ∧
    (withAcu { auAt 2 .selector with level := 1, col := 1 }).au.col.toNat <
      cols (withAcu { auAt 2 .selector with level := 1, col := 1 }).au ∧
    (withAcu { auAt 2 .selector with level := 1, col := 1 }).au.rows ≠ 0 := by
  refine ⟨by decide, ⟨by decide, by decide⟩, by decide, ⟨by decide, by decide⟩, by decide, by decide⟩

/-- Selector 0 under the default map, and selector 31 under a map that makes it ZERO. -/
theorem test_witness_ZeroSelectorFillsColumn :
    (let s := withAcu { auAt 2 .selector with level := 1, col := 1 };
      selectorValue .auSel0Zero = some 0 ∧ decoderOf s.cfg (BitVec.ofNat 5 0) = .zero ∧ s.au.col.toNat < cols s.au) ∧
    (let s := { withAcu (auAt 2 .selector) with
        cfg := { Config.default with selmap := Config.defaultSelmap.set 31 .zero } };
      selectorValue .auSel31Bad = some 31 ∧ decoderOf s.cfg (BitVec.ofNat 5 31) = .zero ∧ s.au.col.toNat < cols s.au) := by
  decide

theorem test_witness_BadSelectorFaults :
    selectorValue .auSel1Bad = some 1 ∧ decoderOf State.reset.cfg (BitVec.ofNat 5 1) = .bad ∧
    selectorValue .auSel31Bad = some 31 ∧ decoderOf State.reset.cfg (BitVec.ofNat 5 31) = .bad := by decide

/-- Two slots left for three samples, and a first word of a column. -/
theorem test_witness_CodeWordFillsSlots :
    (let s := withAcu { auAt 5 .code with level := 1, col := 1, row := 3 };
      wordSamples s.cfg (.auT15Idx 26) = some [1, 1, 1] ∧ s.au.col.toNat < cols s.au ∧ s.au.row < rowCount s.au) ∧
    (let s := withAcu (auAt 5 .code);
      wordSamples s.cfg (.auLinearV 3 0) = some [-4] ∧ s.au.col.toNat < cols s.au ∧ s.au.row < rowCount s.au) := by decide

theorem test_witness_TableIndexBeyondFaults :
    26 < (27 : BitVec 5).toNat ∧ 124 < (125 : BitVec 7).toNat ∧ 120 < (121 : BitVec 7).toNat := by decide

theorem test_witness_EndOfInputTruncates :
    (let s := auReading [0x32, 0x00] .block 0;
      resetPending s.ops = false ∧ s.lz.status ≠ .busy ∧ s.au.status = .busy ∧ s.au.phase = .block ∧
      decodeAu s.cfg .block (bitsAhead s.cfg.bitOrder s.au) = .short 4) ∧
    (let s := auReading [] .selector 0;
      resetPending s.ops = false ∧ s.lz.status ≠ .busy ∧ s.au.status = .busy ∧ s.au.phase = .selector ∧
      decodeAu s.cfg .selector (bitsAhead s.cfg.bitOrder s.au) = .short 0) ∧
    (let s := (auReading [0xC0] .code 17).withAu { (auReading [0xC0] .code 17).au with bitpos := 6 };
      resetPending s.ops = false ∧ s.lz.status ≠ .busy ∧ s.au.status = .busy ∧ s.au.phase = .code ∧
      decodeAu s.cfg (.code (decoderOf s.cfg s.au.sel) s.au.sel) (bitsAhead s.cfg.bitOrder s.au) = .short 2) := by decide

theorem test_witness_MergeStaysInsideSpaces :
    ((auAt 4 .merge).level = 0 ∧ blocklen (auAt 4 .merge) ≤ 4 ∧ wraplen (auAt 4 .merge) ≤ 0) ∧
    ({ auAt 3 .merge with level := 1 } : Acu).level.toNat = 0 + 1 ∧
    ({ auAt 3 .merge with level := 9 } : Acu).level.toNat = 8 + 1 ∧
    ({ auAt 4095 .merge with level := 15 } : Acu).level.toNat = 14 + 1 := by decide

theorem test_witness_OutputDeliversBlock :
    (resetPending (withAcu (auAt 4 .merge)).ops = false ∧ (withAcu (auAt 4 .merge)).lz.status ≠ .busy ∧
      (withAcu (auAt 4 .merge)).au.status = .busy ∧ (withAcu (auAt 4 .merge)).au.phase = .merge) ∧
    (resetPending (withAcu { auAt 4 .output with emitted := 6 }).ops = false ∧
      (withAcu { auAt 4 .output with emitted := 6 }).lz.status ≠ .busy ∧
      (withAcu { auAt 4 .output with emitted := 6 }).au.status = .busy ∧
      (withAcu { auAt 4 .output with emitted := 6 }).au.phase = .output) := by decide

theorem test_witness_AuInitBeginsParse :
    State.reset.au.status ≠ .busy ∧ State.reset.au.chForce ≠ 3 ∧
    (withAcu { Acu.initial with status := .fault, chForce := 2 }).au.status ≠ .busy ∧
    (withAcu { Acu.initial with status := .fault, chForce := 2 }).au.chForce ≠ 3 := by decide

theorem test_witness_AuNextBeginsOrEnds :
    (let s := withAcu { auAt 4 .output with status := .ready, emitted := 7 };
      s.au.status = .ready ∧ s.au.emitted ≠ s.au.samples) ∧
    (let s := withAcu { auAt 4 .output with status := .ready, emitted := 8 };
      s.au.status = .ready ∧ s.au.emitted = s.au.samples) ∧
    (withAcu { auAt 4 .output with status := .endComplete }).au.status = .endComplete ∧
    (withAcu { auAt 4 .output with status := .endTruncated }).au.status = .endTruncated := by decide

theorem test_witness_AuRestartRewinds :
    (withAcu { auAt 4 .output with status := .ready }).au.status.hasStream = true ∧
    (withAcu { auAt 4 .output with status := .endComplete }).au.status.hasStream = true ∧
    (withAcu { auAt 4 .output with status := .endTruncated }).au.status.hasStream = true := by decide

theorem test_witness_AuClearWrapZeroes :
    (withAcu { auAt 4 .output with status := .ready, level := 15 }).au.status.hasStream = true ∧
    (withAcu { auAt 4 .output with status := .endTruncated, level := 0 }).au.status.hasStream = true := by decide

theorem test_witness_AuResetClears :
    State.reset.au.status ≠ .busy ∧ (withAcu { auAt 4 .output with status := .endTruncated }).au.status ≠ .busy := by decide

theorem test_witness_CommandLegality :
    State.reset.au.status = .idle ∧ (withAcu { Acu.initial with status := .fault, fault := 23 }).au.status = .fault ∧
    (withAcu { Acu.initial with chForce := 3 }).au.status ≠ .busy ∧ (withAcu { Acu.initial with chForce := 3 }).au.chForce = 3 ∧
    lzAtPrefix.lz.status = .busy ∧ (withAcu (auAt 4 .block)).au.status = .busy ∧
    Instr.auReset ∈ [Instr.auInit, .auNext, .auRestart, .auClearWrap, .auReset] := by decide

/-- A BUSY ACU in the last subband of a block, inside the invariant. -/
def auInCode : State :=
  withAcu { auAt 2 .code with sel := 17, dataStart := 112, bitpos := 113, inLen := 15, inp := [(14, 0xFF)] }

theorem test_witness_auInv : AuInv auInCode.cfg auInCode.au := by
  refine ⟨by decide, fun _ => rfl, fun _ => by decide, by decide, by decide, fun _ => ⟨by decide, by decide, by decide, ?_⟩,
    by decide, by decide, by decide, by decide⟩
  exact ⟨by decide, by decide⟩

theorem test_witness_AuRunEnds :
    resetPending auInCode.ops = false ∧ auInCode.lz.status ≠ .busy ∧ auInCode.au.status = .busy ∧
    AuInv auInCode.cfg auInCode.au := ⟨by decide, by decide, by decide, test_witness_auInv⟩

/-- A step of ACU: the code word `1 1 1` of K13 is one sample, +1 at scale 3. -/
theorem test_step_auInCode :
    step auInCode = .next (auInCode.withAu { auInCode.au with bitpos := 116, block := [(0, 3)], row := 1 }) := rfl

theorem test_witness_UnitsBlindToEachOther :
    (let s := lzAtData;
      let s' := { s with au := (withAcu (auAt 4 .block)).au, ops := [.lzCommand 1] };
      resetPending s.ops = false ∧ resetPending s'.ops = false ∧ s.lz.status = .busy ∧ s.cfg = s'.cfg ∧ s.lz = s'.lz ∧
      step s = .next (withLzu { lzAt [0x07] 4 with ip := 1, op := 1, out := [(0, 7)] })) ∧
    (let s := auInCode;
      let s' := { s with lz := { Lzu.initial with status := .done, op := 9 }, ops := [.auCommand 2] };
      resetPending s.ops = false ∧ resetPending s'.ops = false ∧ s.lz.status ≠ .busy ∧ s'.lz.status ≠ .busy ∧
      s.au.status = .busy ∧ s.cfg = s'.cfg ∧ s.au = s'.au ∧
      step s = .next (s.withAu { s.au with bitpos := 116, block := [(0, 3)], row := 1 })) :=
  ⟨⟨rfl, rfl, rfl, rfl, rfl, rfl⟩, rfl, rfl, by decide, by decide, rfl, rfl, rfl, rfl⟩

theorem test_witness_RunKeepsHostInputs :
    resetPending auInCode.ops = false ∧ (auInCode.lz.status = .busy ∨ auInCode.au.status = .busy) ∧
    step auInCode = .next (auInCode.withAu { auInCode.au with bitpos := 116, block := [(0, 3)], row := 1 }) :=
  ⟨rfl, .inr rfl, rfl⟩

theorem test_witness_IdleAndFaultedUnitsKeepState :
    (State.reset.ops = [] ∧ State.reset.lz.status ≠ .busy ∧ State.reset.au.status ≠ .busy) ∧
    (let s := auInCode.withLz { Lzu.initial with status := .fault, fault := 2 };
      resetPending s.ops = false ∧ s.lz.status ≠ .busy ∧ s.au.status = .busy ∧
      step s = .next (s.withAu { s.au with bitpos := 116, block := [(0, 3)], row := 1 })) ∧
    (let s := lzAtData.withAu { Acu.initial with status := .fault, fault := 23 };
      resetPending s.ops = false ∧ s.au.status ≠ .busy ∧ s.lz.status = .busy ∧
      step s = .next (s.withLz { lzAt [0x07] 4 with ip := 1, op := 1, out := [(0, 7)] })) :=
  ⟨by decide, ⟨rfl, by decide, rfl, rfl⟩, rfl, by decide, rfl, rfl⟩

/-- A faulted unit, and an act for the other one: a write and a command. -/
theorem test_witness_IdleAndFaultedUnitsKeepState_acts :
    (let s := (asked (.writeAuInLen 9)).withLz { Lzu.initial with status := .fault, fault := 2 };
      resetPending s.ops = false ∧ s.lz.status ≠ .busy ∧ s.ops = .writeAuInLen 9 :: [] ∧
      actUnit (.writeAuInLen 9) = some .acu ∧
      step s = .next { s with ops := [], au := { Acu.initial with inLen := 9 } }) ∧
    (let s := (asked (.lzCommand 1)).withAu { Acu.initial with status := .fault, fault := 23 };
      resetPending s.ops = false ∧ s.au.status ≠ .busy ∧ s.ops = .lzCommand 1 :: [] ∧ actUnit (.lzCommand 1) = some .lzu ∧
      step s = .next { s with ops := [], lz := { Lzu.initial with status := .busy } }) :=
  ⟨⟨rfl, by decide, rfl, rfl, rfl⟩, rfl, by decide, rfl, rfl, rfl⟩

theorem test_witness_StepKeepsLzInvariant :
    LzInv lzAtData.cfg lzAtData.lz ∧ step lzAtData = .next (withLzu { lzAt [0x07] 4 with ip := 1, op := 1, out := [(0, 7)] }) :=
  ⟨⟨by decide, fun _ => by decide, by decide, by decide, by decide, by decide, by decide, by decide, by decide⟩, rfl⟩

/-- LZU with AW = 2, its lengths and cursors the largest that fit: the invariant holds there, and the step ends the run DONE. -/
def lzNarrow : State :=
  { withLzu { lzAt [0x80, 0x01, 0x07] 3 with ip := 3, op := 3 } with cfg := { Config.default with aw := 2 } }

theorem test_witness_StepKeepsLzInvariant_narrow :
    LzInv lzNarrow.cfg lzNarrow.lz ∧ step lzNarrow = .next (lzNarrow.withLz { lzNarrow.lz with status := .done }) :=
  ⟨⟨by decide, fun _ => by decide, by decide, by decide, by decide, by decide, by decide, by decide, by decide⟩, rfl⟩

theorem test_witness_StepKeepsAuInvariant :
    AuInv auInCode.cfg auInCode.au ∧
    step auInCode = .next (auInCode.withAu { auInCode.au with bitpos := 116, block := [(0, 3)], row := 1 }) :=
  ⟨test_witness_auInv, rfl⟩

theorem test_witness_StepKeepsMemories :
    MemCanonical auInCode ∧ AuInv auInCode.cfg auInCode.au ∧ MemInBounds auInCode ∧
    step auInCode = .next (auInCode.withAu { auInCode.au with bitpos := 116, block := [(0, 3)], row := 1 }) :=
  ⟨⟨by decide, by decide, by decide, by decide, by decide, by decide, by decide⟩, test_witness_auInv,
    ⟨by decide, by decide, by decide⟩, rfl⟩

end Sys2Proof.Tests
end

namespace Sys2Proof.Machine

/-! ## The derived sizes -/

theorem level_toNat_le (u : Acu) : u.level.toNat ≤ 15 := Nat.le_of_lt_succ u.level.isLt

/-- Settles O45: the bounds from those of the level and of the rows; what is said of the chunk, level by level. -/
theorem derivedSizes : Obligations.DerivedSizes := by
  intro u
  have hl := level_toNat_le u
  have hc := cols_le u
  have hb : blocklen u ≤ 134184960 :=
    calc cols u * rowCount u ≤ 32768 * 4095 := Nat.mul_le_mul hc (Nat.le_of_lt_succ (rowCount_lt u))
      _ = 134184960 := by decide
  have hchunk : ∀ l, l ≤ 15 →
      (2048 % 2 ^ l = 0 ∨ 2048 < 3 * 2 ^ l) ∧
      max 1 (2048 / 2 ^ l - 2) = [2046, 1022, 510, 254, 126, 62, 30, 14, 6, 2].getD l 1 := by decide
  obtain ⟨hdiv, hrows⟩ := hchunk _ hl
  refine ⟨rfl, cols_pos u, hc, rfl, rfl, hb, by omega, rfl, ?_, rfl, hdiv, hrows⟩
  unfold wraplen
  omega

/-! ## A step without its fetch -/

/-- What a step does with what the fetch finds. -/
def finish : Fetched → Host.Outcome State Fault Refusal
  | .run i t => exec i t
  | .done t => .next t
  | .stop f => .fault f

theorem step_eq_finish (s : State) : step s = finish (fetch s) := by
  unfold step finish; split <;> simp only [*]

/-! ## The host's acts -/

/-- What LZU can be after an act of the host for it (41_lzss.md R120, R135; 60_exceptions.md R247;
70_reset_and_hazards.md R273, R274). -/
inductive LzActKind (c : Config) (u : Lzu) : Lzu → Prop
  | usage : LzActKind c u (lzRaise .usage u)
  | start : LzActKind c u (lzBegin u)
  | reset : LzActKind c u (lzResetUnit u)
  | inLen (v : Nat) : LzActKind c u { u with inLen := c.fit v }
  | outLen (v : Nat) : LzActKind c u { u with outLen := c.fit v }
  | inp (m : Memory 8) : LzActKind c u { u with inp := m }
  | out (m : Memory 8) : LzActKind c u { u with out := m }

/-- What ACU can be after an act of the host for it (42_audio_header.md R150; 43_audio_block_decode.md R170;
44_audio_merge_output.md R222 to R228; 60_exceptions.md R247; 70_reset_and_hazards.md R273, R274). -/
inductive AuActKind (c : Config) (u : Acu) : Acu → Prop
  | usage : AuActKind c u (auRaise .usage u)
  | init : AuActKind c u (auBegin u)
  | endAgain : u.status = .endComplete ∨ u.status = .endTruncated → AuActKind c u { u with lastN := 0 }
  | complete : u.status = .ready → u.emitted = u.samples →
      AuActKind c u { u with lastN := 0, status := .endComplete }
  | block : u.status = .ready → u.emitted ≠ u.samples →
      AuActKind c u { u with status := .busy, lastN := 0, phase := .block }
  | restart : u.status.hasStream = true →
      AuActKind c u { u with
        bitpos := u.dataStart, emitted := 0, col := 0, lastN := 0, status := .ready, changedAt := none }
  | clearWrap (m : Memory 32) : u.status.hasStream = true → AuActKind c u { u with wrap := m }
  | reset : AuActKind c u (auResetUnit u)
  | inLen (v : Nat) : AuActKind c u { u with inLen := c.fit v }
  | chForce (v : BitVec 2) : AuActKind c u { u with chForce := v }
  | inp (m : Memory 8) (x : Option Nat) : AuActKind c u { u with inp := m, changedAt := x }
  | pcm (m : Memory 16) : AuActKind c u { u with pcm := m }

theorem exec_lzStart_cases (s t : State) (h : exec .lzStart s = .next t) : t = s.withLz (lzBegin s.lz) := by
  simp only [exec, execLzStart] at h
  split_ifs at h
  cases h; rfl

theorem exec_lzReset_cases (s t : State) (h : exec .lzReset s = .next t) : t = s.withLz (lzResetUnit s.lz) := by
  simp only [exec, execLzReset] at h
  split_ifs at h
  cases h; rfl

/-- All that a code written to `LZ_CMD` can do. -/
theorem lzCommand_cases (code : Byte) (s t : State) (h : finish (hostCommand .lzu code s) = .next t) :
    ∃ u, t = s.withLz u ∧ LzActKind s.cfg s.lz u := by
  unfold hostCommand at h
  rcases decodeCommand_cases .lzu code with ⟨i, hd⟩ | hd
  · simp only [hd, finish] at h
    unfold decodeCommand at hd
    split at hd <;> cases hd
    · exact ⟨_, exec_lzStart_cases s t h, .start⟩
    · exact ⟨_, exec_lzReset_cases s t h, .reset⟩
    all_goals contradiction
  · simp only [hd, finish] at h
    cases h
    exact ⟨_, rfl, .usage⟩

theorem exec_auInit_cases (s t : State) (h : exec .auInit s = .next t) :
    ∃ u, t = s.withAu u ∧ AuActKind s.cfg s.au u := by
  simp only [exec, execAuInit] at h
  split_ifs at h <;> cases h
  · exact ⟨_, rfl, .usage⟩
  · exact ⟨_, rfl, .init⟩

theorem exec_auNext_cases (s t : State) (h : exec .auNext s = .next t) :
    ∃ u, t = s.withAu u ∧ AuActKind s.cfg s.au u := by
  simp only [exec, execAuNext] at h
  split at h
  next => cases h
  next => cases h; exact ⟨_, rfl, .usage⟩
  next => cases h; exact ⟨_, rfl, .usage⟩
  next hs => cases h; exact ⟨_, rfl, .endAgain (.inl hs)⟩
  next hs => cases h; exact ⟨_, rfl, .endAgain (.inr hs)⟩
  next hs =>
    split_ifs at h with he <;> cases h
    · exact ⟨_, rfl, .complete hs he⟩
    · exact ⟨_, rfl, .block hs he⟩

theorem exec_auRestart_cases (s t : State) (h : exec .auRestart s = .next t) :
    ∃ u, t = s.withAu u ∧ AuActKind s.cfg s.au u := by
  simp only [exec, execAuRestart] at h
  split_ifs at h with _ hst <;> cases h
  · exact ⟨_, rfl, .restart hst⟩
  · exact ⟨_, rfl, .usage⟩

theorem exec_auClearWrap_cases (s t : State) (h : exec .auClearWrap s = .next t) :
    ∃ u, t = s.withAu u ∧ AuActKind s.cfg s.au u := by
  simp only [exec, execAuClearWrap] at h
  split_ifs at h with _ hst <;> cases h
  · exact ⟨_, rfl, .clearWrap _ hst⟩
  · exact ⟨_, rfl, .usage⟩

theorem exec_auReset_cases (s t : State) (h : exec .auReset s = .next t) :
    ∃ u, t = s.withAu u ∧ AuActKind s.cfg s.au u := by
  simp only [exec, execAuReset] at h
  split_ifs at h
  cases h; exact ⟨_, rfl, .reset⟩

/-- All that a code written to `AU_CMD` can do. -/
theorem auCommand_cases (code : Byte) (s t : State) (h : finish (hostCommand .acu code s) = .next t) :
    ∃ u, t = s.withAu u ∧ AuActKind s.cfg s.au u := by
  unfold hostCommand at h
  rcases decodeCommand_cases .acu code with ⟨i, hd⟩ | hd
  · simp only [hd, finish] at h
    unfold decodeCommand at hd
    split at hd <;> cases hd
    all_goals try contradiction
    · exact exec_auInit_cases s t h
    · exact exec_auNext_cases s t h
    · exact exec_auRestart_cases s t h
    · exact exec_auClearWrap_cases s t h
    · exact exec_auReset_cases s t h
  · simp only [hd, finish] at h
    cases h
    exact ⟨_, rfl, .usage⟩

/-- All that an act for LZU can do. -/
theorem hostAct_lzu_cases (a : HostAct) (s t : State) (ha : actUnit a = some .lzu)
    (h : finish (hostAct a s) = .next t) : ∃ u, t = s.withLz u ∧ LzActKind s.cfg s.lz u := by
  cases a <;> cases ha
  case lzCommand code => exact lzCommand_cases code s t h
  all_goals cases h
  case writeLzInLen v => exact ⟨_, rfl, .inLen v⟩
  case writeLzOutLen v => exact ⟨_, rfl, .outLen v⟩
  case placeLzIn a b => exact ⟨_, rfl, .inp _⟩
  case placeOut a b => exact ⟨_, rfl, .out _⟩

/-- All that an act for ACU can do. -/
theorem hostAct_acu_cases (a : HostAct) (s t : State) (ha : actUnit a = some .acu)
    (h : finish (hostAct a s) = .next t) : ∃ u, t = s.withAu u ∧ AuActKind s.cfg s.au u := by
  cases a <;> cases ha
  case auCommand code => exact auCommand_cases code s t h
  all_goals cases h
  case writeAuInLen v => exact ⟨_, rfl, .inLen v⟩
  case writeAuChForce v => exact ⟨_, rfl, .chForce v⟩
  case placeAuIn a b => exact ⟨_, rfl, .inp _ _⟩
  case placePcm a v => exact ⟨_, rfl, .pcm _⟩

/-- Every act is the platform's reset, or for one of the two units. -/
theorem actUnit_cases (a : HostAct) : a = .reset ∨ actUnit a = some .lzu ∨ actUnit a = some .acu := by
  cases a <;> simp [actUnit]

/-! ## All that a step can be -/

/-- What the block can be after a step (00_scope.md R8; 70_reset_and_hazards.md R270): the platform's reset; a step of the
unit that is BUSY; and, while none is, nothing to do or an act of the host. Only the unit named changes. -/
inductive StepKind (s : State) : State → Prop
  | reset (rest : List HostAct) : s.ops = .reset :: rest → StepKind s (hardReset (s.withOps rest))
  | lzRun (u : Lzu) : resetPending s.ops = false → s.lz.status = .busy → LzStepKind s u → StepKind s (s.withLz u)
  | auRun (u : Acu) : resetPending s.ops = false → s.lz.status ≠ .busy → s.au.status = .busy → AuStepKind s u →
      StepKind s (s.withAu u)
  | rest : s.lz.status ≠ .busy → s.au.status ≠ .busy → s.ops = [] → StepKind s s
  | lzAct (a : HostAct) (rest : List HostAct) (u : Lzu) : s.lz.status ≠ .busy → s.au.status ≠ .busy →
      s.ops = a :: rest → actUnit a = some .lzu → LzActKind s.cfg s.lz u → StepKind s ((s.withOps rest).withLz u)
  | auAct (a : HostAct) (rest : List HostAct) (u : Acu) : s.lz.status ≠ .busy → s.au.status ≠ .busy →
      s.ops = a :: rest → actUnit a = some .acu → AuActKind s.cfg s.au u → StepKind s ((s.withOps rest).withAu u)

/-- The platform's reset is pending exactly where it is the oldest act. -/
theorem resetPending_iff (ops : List HostAct) : resetPending ops = true ↔ ∃ rest, ops = .reset :: rest := by
  unfold resetPending
  split <;> simp_all

/-- The platform's reset, whatever the statuses. -/
theorem step_reset (s : State) (rest : List HostAct) (ho : s.ops = .reset :: rest) :
    step s = .next (hardReset (s.withOps rest)) := by
  refine step_done _ _ ?_
  rw [fetch_reset s ((resetPending_iff _).mpr ⟨rest, ho⟩)]
  unfold hostNext
  rw [ho]
  rfl

/-- With no unit BUSY and no act pending nothing happens (60_exceptions.md R259). -/
theorem step_rest (s : State) (ho : s.ops = []) (hl : s.lz.status ≠ .busy) (hb : s.au.status ≠ .busy) :
    step s = .next s := by
  refine step_done _ _ ?_
  rw [fetch_host s hl hb]
  unfold hostNext
  rw [ho]

/-- An act of the host, while no unit is BUSY. -/
theorem step_act (s : State) (a : HostAct) (rest : List HostAct) (ho : s.ops = a :: rest) (hl : s.lz.status ≠ .busy)
    (hb : s.au.status ≠ .busy) : step s = finish (hostAct a (s.withOps rest)) := by
  rw [step_eq_finish, fetch_act s a rest ho hl hb]

/-- A step of a BUSY ACU that answers a next state. -/
theorem au_step_next (s t : State) (hr : resetPending s.ops = false) (hl : s.lz.status ≠ .busy)
    (hb : s.au.status = .busy) (h : step s = .next t) : ∃ u, t = s.withAu u ∧ AuStepKind s u := by
  rcases au_step_cases s hr hl hb with ⟨u, hu, hk⟩ | ⟨hf, _⟩ | ⟨hf, _⟩
  · rw [hu] at h; cases h
    exact ⟨u, rfl, hk⟩
  · rw [hf] at h; cases h
  · rw [hf] at h; cases h

/-- Every step that answers a next state is of one of the kinds of `StepKind`. -/
theorem step_kind (s t : State) (h : step s = .next t) : StepKind s t := by
  by_cases hr : resetPending s.ops = true
  · obtain ⟨rest, ho⟩ := (resetPending_iff _).mp hr
    rw [step_reset s rest ho] at h; cases h
    exact .reset rest ho
  have hr : resetPending s.ops = false := by simpa using hr
  by_cases hl : s.lz.status = .busy
  · obtain ⟨u, hu, hk⟩ := lz_step_cases s hr hl
    rw [hu] at h; cases h
    exact .lzRun u hr hl hk
  by_cases hb : s.au.status = .busy
  · obtain ⟨u, rfl, hk⟩ := au_step_next s t hr hl hb h
    exact .auRun u hr hl hb hk
  cases ho : s.ops with
  | nil =>
    rw [step_rest s ho hl hb] at h; cases h
    exact .rest hl hb ho
  | cons a rest =>
    rw [step_act s a rest ho hl hb] at h
    rcases actUnit_cases a with rfl | ha | ha
    · rw [ho] at hr; cases hr
    · obtain ⟨u, rfl, hk⟩ := hostAct_lzu_cases a _ t ha h
      exact .lzAct a rest u hl hb ho ha hk
    · obtain ⟨u, rfl, hk⟩ := hostAct_acu_cases a _ t ha h
      exact .auAct a rest u hl hb ho ha hk

/-! ## A unit that is not BUSY -/

/-- LZU, not BUSY, keeps its state where the step is not asked of it. -/
theorem idle_lz_kept (s t : State) (hr : resetPending s.ops = false) (hl : s.lz.status ≠ .busy)
    (hc : s.au.status = .busy ∨ s.ops = [] ∨ ∃ a rest, s.ops = a :: rest ∧ actUnit a = some .acu)
    (h : StepKind s t) : t.lz = s.lz := by
  cases h with
  | reset rest ho => rw [ho] at hr; cases hr
  | lzRun u _ hb _ => exact absurd hb hl
  | auRun u _ _ _ _ => rfl
  | rest _ _ _ => rfl
  | lzAct a rest u _ hb ho ha _ =>
    rcases hc with hc | hc | ⟨a', rest', ho', ha'⟩
    · exact absurd hc hb
    · rw [hc] at ho; cases ho
    · rw [ho'] at ho; cases ho
      rw [ha'] at ha; cases ha
  | auAct a rest u _ _ _ _ _ => rfl

/-- ACU, not BUSY, keeps its state where the step is not asked of it. -/
theorem idle_au_kept (s t : State) (hr : resetPending s.ops = false) (hb : s.au.status ≠ .busy)
    (hc : s.lz.status = .busy ∨ s.ops = [] ∨ ∃ a rest, s.ops = a :: rest ∧ actUnit a = some .lzu)
    (h : StepKind s t) : t.au = s.au := by
  cases h with
  | reset rest ho => rw [ho] at hr; cases hr
  | lzRun u _ _ _ => rfl
  | auRun u _ _ hb' _ => exact absurd hb' hb
  | rest _ _ _ => rfl
  | lzAct a rest u _ _ _ _ _ => rfl
  | auAct a rest u hl _ ho ha _ =>
    rcases hc with hc | hc | ⟨a', rest', ho', ha'⟩
    · exact absurd hc hl
    · rw [hc] at ho; cases ho
    · rw [ho'] at ho; cases ho
      rw [ha'] at ha; cases ha

/-- Settles O55. -/
theorem idleAndFaultedUnitsKeepState : Obligations.IdleAndFaultedUnitsKeepState :=
  ⟨step_rest, fun s t hr h =>
    ⟨fun hl hc => idle_lz_kept s t hr hl hc (step_kind s t h),
     fun hb hc => idle_au_kept s t hr hb hc (step_kind s t h)⟩⟩

end Sys2Proof.Machine

namespace Sys2Proof.Machine

/-! ## LZU's invariant -/

theorem LzCause.code_ne_zero (f : LzCause) : f.code ≠ 0 := by cases f <;> decide

/-- LZU after fault entry meets the invariant (60_exceptions.md R250): the cursors that are recorded fit their registers. -/
theorem lzInv_raise (c : Config) (f : LzCause) (u : Lzu) (hk : u.phase = .item → u.ctlK.toNat ≤ 8) (hf : lzFits c u) :
    LzInv c (lzRaise f u) := by
  obtain ⟨hin, hout, hfip, hfop, hip, hop⟩ := hf
  refine ⟨iff_of_true rfl f.code_ne_zero, fun hb => by simp at hb, hk, hin, hout, ?_, ?_, hip, hop⟩
  · rw [lzRaise_faultIp]
    split_ifs
    · exact hfip
    · exact hip
  · rw [lzRaise_faultOp]
    split_ifs
    · exact hfop
    · exact hop

/-- What the invariant asks of a BUSY LZU. The cursors fit their registers because the lengths do. -/
structure LzBusy (c : Config) (u : Lzu) : Prop where
  status : u.status = .busy
  fault : u.fault = 0
  ip : u.ip ≤ u.inLen
  op : u.op ≤ u.outLen
  rawLeft : u.rawLeft ≤ u.inLen - u.ip
  block : u.phase ≠ .top → u.rawLeft = 0 ∧ 1 ≤ u.blkLen.toNat ∧ u.blkUsed.toNat ≤ u.blkLen.toNat
  ctlK : u.phase = .item → u.ctlK.toNat ≤ 8
  inLen : u.inLen < 2 ^ c.aw
  outLen : u.outLen < 2 ^ c.aw
  faultIp : u.faultIp < 2 ^ c.aw
  faultOp : u.faultOp < 2 ^ c.aw

theorem LzBusy.fits {c : Config} {u : Lzu} (h : LzBusy c u) : lzFits c u :=
  ⟨h.inLen, h.outLen, h.faultIp, h.faultOp, h.ip.trans_lt h.inLen, h.op.trans_lt h.outLen⟩

theorem LzBusy.inv {c : Config} {u : Lzu} (h : LzBusy c u) : LzInv c u :=
  ⟨by simp [h.status, h.fault], fun _ => ⟨h.ip, h.op, h.rawLeft, h.block⟩, h.ctlK, h.fits⟩

theorem LzInv.busy {c : Config} {u : Lzu} (h : LzInv c u) (hb : u.status = .busy) : LzBusy c u := by
  obtain ⟨hf, hbusy, hk, hin, hout, hfip, hfop, _, _⟩ := h
  obtain ⟨hip, hop, hraw, hblk⟩ := hbusy hb
  have h0 : u.fault = 0 := by simpa [hb] using hf
  exact ⟨hb, h0, hip, hop, hraw, hblk, hk, hin, hout, hfip, hfop⟩

/-- A group has eight items (41_lzss.md R127): the index goes on to 8 and no further. -/
theorem ctlK_succ_le (k : BitVec 4) (h : k.toNat ≤ 8) (h8 : k ≠ 8) : (k + 1).toNat ≤ 8 := by bv_omega

/-- A block's count stays inside what the block declares, where a fetch of `n` bytes does (41_lzss.md R121). -/
theorem blkUsed_add_le (used len : BitVec 16) (n : Nat) (h : used.toNat + n ≤ len.toNat) :
    (used + BitVec.ofNat 16 n).toNat ≤ len.toNat := by
  rw [BitVec.toNat_add, BitVec.toNat_ofNat, Nat.add_mod_mod]
  exact (Nat.mod_le _ _).trans h

/-- LZU after either reset meets the invariant (41_lzss.md R135; 70_reset_and_hazards.md R271). -/
theorem lzInv_initial (c : Config) (n m : Nat) (inp out : Memory 8) (hn : n < 2 ^ c.aw) (hm : m < 2 ^ c.aw) :
    LzInv c { Lzu.initial with inLen := n, outLen := m, inp := inp, out := out } := by
  have h0 : 0 < 2 ^ c.aw := Nat.two_pow_pos _
  exact ⟨by simp [Lzu.initial], nofun, nofun, hn, hm, h0, h0, h0, h0⟩

/-- All that a copy can do, with the registers it leaves alone: it fits, or it raises LZ_OUTPUT_OVERFLOW. -/
theorem lzCopy_result (n : Nat) (a : BitVec 12) (u : Lzu) (h : u.op ≤ u.outLen) :
    ∃ out op ring rp, op ≤ u.outLen ∧
      (lzCopy n a u = .ok { u with out := out, op := op, ring := ring, rp := rp } ∨
        lzCopy n a u = .error (lzRaise .outputOverflow { u with out := out, op := op, ring := ring, rp := rp })) := by
  induction n generalizing a u with
  | zero => exact ⟨u.out, u.op, u.ring, u.rp, h, .inl rfl⟩
  | succ n ih =>
    by_cases hr : u.op < u.outLen
    · rw [lzCopy_succ n a u hr]
      exact ih (a + 1) { u with
        out := Memory.put u.out u.op (ringCell u.ring a), op := u.op + 1
        ring := ringWrite u.ring u.rp (ringCell u.ring a), rp := u.rp + 1 } hr
    · rw [lzCopy_full n a u (by omega)]
      exact ⟨u.out, u.op, u.ring, u.rp, h, .inr rfl⟩

/-- A step of LZU keeps LZU's invariant. -/
theorem lzStepKind_keeps_inv (s : State) (u : Lzu) (hb : s.lz.status = .busy) (hi : LzInv s.cfg s.lz)
    (hk : LzStepKind s u) : LzInv s.cfg u := by
  have hs := hi.busy hb
  cases hk with
  | done hp hr ho => exact ⟨by simp [hs.fault], fun h => by simp at h, hs.ctlK, hs.fits⟩
  | blockEnd hp hu => exact LzBusy.inv { hs with block := fun h => absurd rfl h, ctlK := nofun }
  | groupEnd hp h8 =>
    exact LzBusy.inv { hs with block := fun _ => hs.block (by simp [hp]), ctlK := nofun }
  | raise f v _ hv hctl hip =>
    rw [hv]
    refine lzInv_raise _ _ _ (fun hp => ?_)
      ⟨hs.inLen, hs.outLen, hs.faultIp, hs.faultOp, (hip hs.ip).trans_lt hs.inLen, hs.op.trans_lt hs.outLen⟩
    rcases hctl with h | ⟨h8, h⟩ <;> rw [h]
    · exact hs.ctlK hp
    · exact ctlK_succ_le _ (hs.ctlK hp) h8
  | raw w hp hr hip =>
    exact LzBusy.inv { hs with
      ip := hip
      rawLeft := Nat.min_le_right _ _
      block := fun h => absurd rfl h
      ctlK := nofun }
  | skip hp hr hip =>
    exact LzBusy.inv { hs with
      ip := hip
      rawLeft := by simp [hr]
      block := fun h => absurd rfl h
      ctlK := nofun }
  | coded w hp hr hw hip =>
    have hpos : 1 ≤ w.toNat := Nat.pos_of_ne_zero fun h => hw (BitVec.eq_of_toNat_eq h)
    exact LzBusy.inv { hs with
      ip := hip
      rawLeft := by simp [hr]
      block := fun _ => ⟨hr, hpos, Nat.zero_le _⟩
      ctlK := nofun }
  | data d hp hr hip hop =>
    have hleft := hs.rawLeft
    exact LzBusy.inv { hs with
      ip := hip
      op := hop
      rawLeft := by dsimp only; omega
      block := fun h => absurd hp h
      ctlK := fun h => by rw [hp] at h; cases h }
  | ctl d hp hip hu =>
    obtain ⟨hr, hpos, _⟩ := hs.block (by simp [hp])
    exact LzBusy.inv { hs with
      ip := hip
      rawLeft := by simp [hr]
      block := fun _ => ⟨hr, hpos, blkUsed_add_le _ _ 1 hu⟩
      ctlK := fun _ => Nat.zero_le _ }
  | lit d hp hip hu h8 hop =>
    obtain ⟨hr, hpos, _⟩ := hs.block (by simp [hp])
    exact LzBusy.inv { hs with
      ip := hip
      op := hop
      rawLeft := by simp [hr]
      block := fun _ => ⟨hr, hpos, blkUsed_add_le _ _ 1 hu⟩
      ctlK := fun _ => ctlK_succ_le _ (hs.ctlK hp) h8 }
  | ref n a hp hip hu h8 =>
    obtain ⟨hr, hpos, _⟩ := hs.block (by simp [hp])
    obtain ⟨out, op, ring, rp, hop, hc⟩ := lzCopy_result n a
      { s.lz with ip := s.lz.ip + 2, blkUsed := s.lz.blkUsed + 2, ctlK := s.lz.ctlK + 1 } hs.op
    have hcopied : LzBusy s.cfg { s.lz with
        ip := s.lz.ip + 2, blkUsed := s.lz.blkUsed + 2, ctlK := s.lz.ctlK + 1
        out := out, op := op, ring := ring, rp := rp } :=
      { hs with
        ip := hip
        op := hop
        rawLeft := by simp [hr]
        block := fun _ => ⟨hr, hpos, blkUsed_add_le _ _ 2 hu⟩
        ctlK := fun _ => ctlK_succ_le _ (hs.ctlK hp) h8 }
    rcases hc with hc | hc <;> rw [hc]
    · exact hcopied.inv
    · exact lzInv_raise _ _ _ hcopied.ctlK hcopied.fits

/-- An act of the host keeps LZU's invariant: a number that it writes is reduced to AW bits. -/
theorem lzActKind_keeps_inv (c : Config) (u v : Lzu) (hb : u.status ≠ .busy) (hi : LzInv c u) (hk : LzActKind c u v) :
    LzInv c v := by
  obtain ⟨hf, _, hk8, hin, hout, hfip, hfop, hip, hop⟩ := hi
  cases hk with
  | usage => exact lzInv_raise _ _ _ hk8 ⟨hin, hout, hfip, hfop, hip, hop⟩
  | start =>
    have h0 : 0 < 2 ^ c.aw := Nat.two_pow_pos _
    exact LzBusy.inv
      { status := rfl, fault := rfl, ip := Nat.zero_le _, op := Nat.zero_le _, rawLeft := Nat.zero_le _
        block := fun h => absurd rfl h, ctlK := nofun
        inLen := hin, outLen := hout, faultIp := h0, faultOp := h0 }
  | reset => exact lzInv_initial c _ _ _ _ hin hout
  | inLen n => exact ⟨hf, fun h => absurd h hb, hk8, fit_lt c n, hout, hfip, hfop, hip, hop⟩
  | outLen n => exact ⟨hf, fun h => absurd h hb, hk8, hin, fit_lt c n, hfip, hfop, hip, hop⟩
  | inp m => exact ⟨hf, fun h => absurd h hb, hk8, hin, hout, hfip, hfop, hip, hop⟩
  | out m => exact ⟨hf, fun h => absurd h hb, hk8, hin, hout, hfip, hfop, hip, hop⟩

/-- Settles O56, by the kinds of step: a run of LZU and an act for LZU keep the invariant, the platform's reset sets it up,
and every other step leaves LZU as it was. -/
theorem stepKeepsLzInvariant : Obligations.StepKeepsLzInvariant := by
  intro s t hi h
  cases step_kind s t h with
  | reset rest ho => exact lzInv_initial s.cfg _ _ _ _ (Nat.two_pow_pos _) (Nat.two_pow_pos _)
  | lzRun u _ hb hk => exact lzStepKind_keeps_inv s u hb hi hk
  | auRun u _ _ _ _ => exact hi
  | rest _ _ _ => exact hi
  | lzAct a rest u hb _ _ _ hk => exact lzActKind_keeps_inv s.cfg s.lz u hb hi hk
  | auAct a rest u _ _ _ _ _ => exact hi

end Sys2Proof.Machine

namespace Sys2Proof.Machine

/-! ## What a run leaves unchanged -/

/-- The header's checks end in a fault, with no header register but `AU_CHANNELS` written; or they accept a header that
passed them (42_audio_header.md R154 to R161). -/
theorem headerCheck_cases (v : BitVec 8) (u : Acu) :
    (∃ f ch, headerCheck v u = auRaise f { u with channels := ch }) ∨
    (∃ ch, (ch = 1 ∨ ch = 2) ∧ 4096 ≤ u.rate.toNat ∧ u.rows ≠ 0 ∧
      headerCheck v u = headerAccept { u with channels := ch }) := by
  unfold headerCheck
  dsimp only
  split_ifs with hv hc hr hz
  · exact .inl ⟨_, u.channels, rfl⟩
  · exact .inl ⟨_, u.channels, rfl⟩
  · exact .inl ⟨_, _, rfl⟩
  · exact .inl ⟨_, _, rfl⟩
  · refine .inr ⟨_, ?_, Nat.le_of_not_lt hr, hz, rfl⟩
    have hch : effectiveChannels u.chForce u.chStored = 1 ∨ effectiveChannels u.chForce u.chStored = 2 := by tauto
    rcases hch with h | h <;> rw [h] <;> decide

/-- The wrap-merge changes `BLOCK` and `WRAP` only (44_audio_merge_output.md R210). -/
theorem wrapMerge_eq (c : Config) (u : Acu) :
    wrapMerge c u = { u with block := (wrapMerge c u).block, wrap := (wrapMerge c u).wrap } := by
  unfold wrapMerge
  split <;> rfl

/-- The end of a code word moves the column and the place only. -/
theorem closeSubband_eq (u : Acu) :
    closeSubband u = { u with col := (closeSubband u).col, phase := (closeSubband u).phase } := by
  unfold closeSubband
  split <;> rfl

/-- A step of LZU writes neither length register and not `IN`. -/
theorem lzStepKind_keeps_inputs (s : State) (u : Lzu) (h : LzStepKind s u) :
    u.inLen = s.lz.inLen ∧ u.outLen = s.lz.outLen ∧ u.inp = s.lz.inp := by
  cases h with
  | raise f v _ hv _ _ => rw [hv]; exact ⟨rfl, rfl, rfl⟩
  | ref n a _ _ _ _ =>
    obtain ⟨_, _, _, h⟩ := lzCopy_keeps n a
      { s.lz with ip := s.lz.ip + 2, blkUsed := s.lz.blkUsed + 2, ctlK := s.lz.ctlK + 1 }
    rw [h]; exact ⟨rfl, rfl, rfl⟩
  | _ => exact ⟨rfl, rfl, rfl⟩

/-- A step of ACU writes neither register of the host's and not `IN`. -/
theorem auStepKind_keeps_inputs (s : State) (u : Acu) (h : AuStepKind s u) :
    u.inLen = s.au.inLen ∧ u.chForce = s.au.chForce ∧ u.inp = s.au.inp := by
  cases h with
  | header v a b d l r _ _ =>
    rcases headerCheck_cases v
        { advance 112 s.au with samples := a, chStored := b, rate := d, level := l, rows := r } with
      ⟨f, ch, h⟩ | ⟨ch, _, _, _, h⟩ <;> rw [h] <;> exact ⟨rfl, rfl, rfl⟩
  | zero sel _ _ _ => rw [putRaws_eq]; exact ⟨rfl, rfl, rfl⟩
  | sel sel _ _ _ _ => rw [closeSubband_eq]; exact ⟨rfl, rfl, rfl⟩
  | word n raws _ _ _ _ _ _ => rw [closeSubband_eq, putRaws_eq]; exact ⟨rfl, rfl, rfl⟩
  | merge _ => rw [wrapMerge_eq]; exact ⟨rfl, rfl, rfl⟩
  | _ => exact ⟨rfl, rfl, rfl⟩

/-- Settles O54: a step of a run changes the unit that runs only, and of that unit nothing that the host owns as input. -/
theorem runKeepsHostInputs : Obligations.RunKeepsHostInputs := by
  intro s t hr hb h
  cases step_kind s t h with
  | reset rest ho => rw [ho] at hr; cases hr
  | lzRun u _ _ hk =>
    obtain ⟨hin, hout, hinp⟩ := lzStepKind_keeps_inputs s u hk
    exact ⟨rfl, rfl, hin, hout, hinp, rfl, rfl, rfl⟩
  | auRun u _ _ _ hk =>
    obtain ⟨hin, hforce, hinp⟩ := auStepKind_keeps_inputs s u hk
    exact ⟨rfl, rfl, rfl, rfl, rfl, hin, hforce, hinp⟩
  | rest hl ha _ => exact absurd hb (by simp [hl, ha])
  | lzAct a rest u hl ha _ _ _ => exact absurd hb (by simp [hl, ha])
  | auAct a rest u hl ha _ _ _ => exact absurd hb (by simp [hl, ha])

end Sys2Proof.Machine

namespace Sys2Proof.Machine

/-! ## A step of a unit as a function of the parameters and of the unit -/

/-- A block of which only the parameters and LZU are given. -/
def lzAlone (c : Config) (u : Lzu) : State := { State.reset with cfg := c, lz := u }

theorem lzAlone_cfg (c : Config) (u : Lzu) : (lzAlone c u).cfg = c := rfl

/-- A block of which only the parameters and ACU are given. -/
def auAlone (c : Config) (u : Acu) : State := { State.reset with cfg := c, au := u }

/-- The outcome with its LZU put into `s`, which keeps everything else. -/
def onLz (s : State) : Host.Outcome State Fault Refusal → Host.Outcome State Fault Refusal
  | .next t => .next (s.withLz t.lz)
  | .fault f => .fault f
  | .refused r => .refused r

/-- The outcome with its ACU put into `s`, which keeps everything else. -/
def onAu (s : State) : Host.Outcome State Fault Refusal → Host.Outcome State Fault Refusal
  | .next t => .next (s.withAu t.au)
  | .fault f => .fault f
  | .refused r => .refused r

theorem onLz_withLz (s : State) (u : Lzu) (o : Host.Outcome State Fault Refusal) : onLz (s.withLz u) o = onLz s o := by
  cases o <;> rfl

theorem onAu_withAu (s : State) (u : Acu) (o : Host.Outcome State Fault Refusal) : onAu (s.withAu u) o = onAu s o := by
  cases o <;> rfl

/-- A meaning reads and writes LZU and reads the parameters, and nothing else (10_state.md R10). -/
def LzLocal (e : State → Host.Outcome State Fault Refusal) : Prop := ∀ s, e s = onLz s (e (lzAlone s.cfg s.lz))

/-- A meaning reads and writes ACU and reads the parameters, and nothing else (10_state.md R10). -/
def AuLocal (e : State → Host.Outcome State Fault Refusal) : Prop := ∀ s, e s = onAu s (e (auAlone s.cfg s.au))

/-- Two choices on one condition, however it is decided, that agree on either side. -/
theorem map_ite_eq {α β γ : Type} (f : α → γ) (g : β → γ) {p : Prop} {i j : Decidable p} {a b : α} {a' b' : β}
    (ha : f a = g a') (hb : f b = g b') : f (@ite α p i a b) = g (@ite β p j a' b') := by
  by_cases hp : p
  · rw [if_pos hp, if_pos hp, ha]
  · rw [if_neg hp, if_neg hp, hb]

/-! ### LZU -/

/-- The tokens of LZU's stream mean something of LZU only. -/
theorem exec_lzToken_local (c : Config) (x : LzCtx) (bytes : List Byte) (i : Instr) (n : Nat)
    (h : decodeLz c x bytes = .ok i n) : LzLocal (exec i) := by
  unfold decodeLz at h
  split at h <;> cases h
  · unfold prefixInstr
    split_ifs
    · intro s
      simp only [exec, execLzZeroPfx, lzAlone]
      split <;> rfl
    · exact fun s => rfl
    · exact fun s => rfl
  all_goals exact fun s => rfl

/-- The fetch of a token of LZU and its meaning. -/
theorem finish_lzToken_alone (x : LzCtx) (coded : Bool) (n : Nat) (s : State) (u v : Lzu) :
    finish (lzToken x coded n s u) = onLz s (finish (lzToken x coded n (lzAlone s.cfg v) u)) := by
  unfold lzToken
  cases lzFetchMany coded n u with
  | error u' => rfl
  | ok p =>
    obtain ⟨bytes, u'⟩ := p
    simp only [lzAlone_cfg]
    cases hd : decodeLz s.cfg x bytes with
    | ok i k =>
      calc exec i (s.withLz u') = onLz (s.withLz u') (exec i (lzAlone s.cfg u')) :=
            exec_lzToken_local _ _ _ _ _ hd _
        _ = onLz s (exec i ((lzAlone s.cfg v).withLz u')) := onLz_withLz _ _ _
    | short k => rfl
    | reject why k => rfl

theorem finish_ite_onLz {s : State} {p : Prop} {i j : Decidable p} {a b a' b' : Fetched}
    (ha : finish a = onLz s (finish a')) (hb : finish b = onLz s (finish b')) :
    finish (@ite _ p i a b) = onLz s (finish (@ite _ p j a' b')) :=
  map_ite_eq finish (fun x => onLz s (finish x)) ha hb

/-- The turn of LZU. -/
theorem finish_lzNext_local : LzLocal fun s => finish (lzNext s) := by
  intro s
  dsimp only
  cases hp : s.lz.phase with
  | top =>
    rw [lzNext_top s hp, lzNext_top (lzAlone s.cfg s.lz) hp]
    exact finish_ite_onLz (finish_lzToken_alone _ _ _ _ _ _)
      (finish_ite_onLz rfl (finish_ite_onLz rfl (finish_lzToken_alone _ _ _ _ _ _)))
  | group =>
    rw [lzNext_group s hp, lzNext_group (lzAlone s.cfg s.lz) hp]
    exact finish_ite_onLz rfl (finish_lzToken_alone _ _ _ _ _ _)
  | item =>
    rw [lzNext_item s hp, lzNext_item (lzAlone s.cfg s.lz) hp]
    exact finish_ite_onLz rfl (finish_ite_onLz rfl
      (finish_ite_onLz (finish_lzToken_alone _ _ _ _ _ _) (finish_lzToken_alone _ _ _ _ _ _)))

/-- A step of a BUSY LZU is the step of LZU alone. -/
theorem step_lz_alone (s : State) (hr : resetPending s.ops = false) (hb : s.lz.status = .busy) :
    step s = onLz s (step (lzAlone s.cfg s.lz)) := by
  rw [step_eq_finish, fetch_lz s hr hb, step_eq_finish, fetch_lz (lzAlone s.cfg s.lz) rfl hb]
  exact finish_lzNext_local s

/-! ### ACU -/

theorem emitRaws_alone (raws : List Int) (s : State) :
    emitRaws raws s = onAu s (emitRaws raws (auAlone s.cfg s.au)) :=
  map_ite_eq id (onAu s) rfl rfl

theorem emitTable_alone (raws : Option (List Int)) (s : State) :
    emitTable raws s = onAu s (emitTable raws (auAlone s.cfg s.au)) := by
  cases raws with
  | none => rfl
  | some raws => exact emitRaws_alone raws s

theorem beginSubband_local (sel : BitVec 5) : AuLocal (beginSubband sel) := by
  intro s
  simp only [beginSubband, auAlone]
  split
  · rfl
  all_goals exact map_ite_eq id (onAu s) rfl rfl

/-- Every token a decoding can give means something of ACU only. -/
def TokensLocal (D : Decoded) : Prop := ∀ i n, D = .ok i n → AuLocal (exec i)

theorem tokensLocal_ok {i : Instr} {n : Nat} (h : AuLocal (exec i)) : TokensLocal (.ok i n) := by
  intro j m hj
  cases hj
  exact h

theorem tokensLocal_reject (why : Reject) (n : Nat) : TokensLocal (.reject why n) := nofun

theorem tokensLocal_readField {o : BitOrder} {n : Nat} {bits : List Bool} {u : Nat}
    {next : Nat → List Bool → Nat → Decoded} (h : ∀ v r, TokensLocal (next v r (u + n))) :
    TokensLocal (readField o n bits u next) := by
  rcases readField_cases o n bits u next with ⟨_, he⟩ | ⟨f, r, _, _, _, _, he⟩ <;> rw [he]
  · exact nofun
  · exact h _ r

theorem tokensLocal_value {o : BitOrder} {n : Nat} {mk : Nat → Instr} {bits : List Bool} {u : Nat}
    (h : ∀ v, AuLocal (exec (mk v))) : TokensLocal (decodeValue o n mk bits u) :=
  tokensLocal_readField fun v _ => tokensLocal_ok (h v)

theorem tokensLocal_tiers {o : BitOrder} {near : BitVec 1 → Instr} {far : BitVec 2 → Instr} {bits : List Bool} {u : Nat}
    (hn : ∀ v, AuLocal (exec (near v))) (hf : ∀ v, AuLocal (exec (far v))) :
    TokensLocal (decodeTiers o near far bits u) := by
  refine tokensLocal_readField fun b r => ?_
  split_ifs
  · exact tokensLocal_value fun v => hn _
  · exact tokensLocal_value fun v => hf _

theorem tokensLocal_oneZero {o : BitOrder} {z1 : Instr} {value : List Bool → Nat → Decoded} {bits : List Bool}
    (h1 : AuLocal (exec z1)) (hv : ∀ r u, TokensLocal (value r u)) : TokensLocal (decodeOneZero o z1 value bits) := by
  refine tokensLocal_readField fun b r => ?_
  split_ifs
  · exact tokensLocal_ok h1
  · exact hv r _

theorem tokensLocal_twoZero {o : BitOrder} {z2 z1 : Instr} {value : List Bool → Nat → Decoded} {bits : List Bool}
    (h2 : AuLocal (exec z2)) (h1 : AuLocal (exec z1)) (hv : ∀ r u, TokensLocal (value r u)) :
    TokensLocal (decodeTwoZero o z2 z1 value bits) := by
  refine tokensLocal_readField fun b r => ?_
  split_ifs
  · exact tokensLocal_ok h2
  · refine tokensLocal_readField fun b r => ?_
    split_ifs
    · exact tokensLocal_ok h1
    · exact hv r _

/-- The code words mean something of ACU only: each is samples for the slots, or an index into a table. -/
theorem tokensLocal_code (o : BitOrder) (d : Decoder) (sel : BitVec 5) (bits : List Bool) :
    TokensLocal (decodeCode o d sel bits) := by
  unfold decodeCode
  cases d with
  | zero => exact tokensLocal_reject _ _
  | bad => exact tokensLocal_reject _ _
  | linear =>
    dsimp only
    split_ifs
    · exact tokensLocal_reject _ _
    · exact tokensLocal_value fun _ s => emitRaws_alone _ s
  | k13 =>
    exact tokensLocal_twoZero (emitRaws_alone _) (emitRaws_alone _) fun _ _ =>
      tokensLocal_value fun _ s => emitRaws_alone _ s
  | k24 =>
    exact tokensLocal_twoZero (emitRaws_alone _) (emitRaws_alone _) fun _ _ =>
      tokensLocal_value fun _ s => emitRaws_alone _ s
  | k45 =>
    exact tokensLocal_twoZero (emitRaws_alone _) (emitRaws_alone _) fun _ _ =>
      tokensLocal_value fun _ s => emitRaws_alone _ s
  | k35 =>
    exact tokensLocal_twoZero (emitRaws_alone _) (emitRaws_alone _) fun _ _ =>
      tokensLocal_tiers (fun _ s => emitRaws_alone _ s) fun _ s => emitRaws_alone _ s
  | k12 =>
    exact tokensLocal_oneZero (emitRaws_alone _) fun _ _ => tokensLocal_value fun _ s => emitRaws_alone _ s
  | k23 =>
    exact tokensLocal_oneZero (emitRaws_alone _) fun _ _ => tokensLocal_value fun _ s => emitRaws_alone _ s
  | k44 =>
    exact tokensLocal_oneZero (emitRaws_alone _) fun _ _ => tokensLocal_value fun _ s => emitRaws_alone _ s
  | k34 =>
    exact tokensLocal_oneZero (emitRaws_alone _) fun _ _ =>
      tokensLocal_tiers (fun _ s => emitRaws_alone _ s) fun _ s => emitRaws_alone _ s
  | t15 => exact tokensLocal_value fun _ s => emitTable_alone _ s
  | t27 => exact tokensLocal_value fun _ s => emitTable_alone _ s
  | t37 => exact tokensLocal_value fun _ s => emitTable_alone _ s

/-- The tokens of ACU's stream mean something of ACU only. -/
theorem exec_auToken_local (c : Config) (x : AuCtx) (bits : List Bool) (i : Instr) (n : Nat)
    (h : decodeAu c x bits = .ok i n) : AuLocal (exec i) := by
  cases x with
  | header =>
    rcases decodeAu_header c bits i n h with ⟨rfl, _⟩ | ⟨_, _, _, _, _, _, rfl, _⟩ <;> exact fun s => rfl
  | block =>
    obtain ⟨_, _, rfl, _⟩ := decodeAu_block c bits i n h
    exact fun s => rfl
  | selector =>
    obtain ⟨v, hv, rfl, _⟩ := decodeAu_selector c bits i n h
    intro s
    rw [exec_selectorInstr v hv, exec_selectorInstr v hv]
    exact beginSubband_local _ s
  | code d sel => exact tokensLocal_code _ d sel bits i n h

/-- A token of ACU whose bits are all there, and its meaning. -/
theorem exec_auToken_alone (c : Config) (x : AuCtx) (bits : List Bool) (i : Instr) (n : Nat)
    (h : decodeAu c x bits = .ok i n) (s : State) (u v : Acu) :
    exec i (s.withAu u) = onAu s (exec i ((auAlone s.cfg v).withAu u)) :=
  calc exec i (s.withAu u) = onAu (s.withAu u) (exec i (auAlone s.cfg u)) := exec_auToken_local c x bits i n h _
    _ = onAu s (exec i ((auAlone s.cfg v).withAu u)) := onAu_withAu _ _ _

/-- The header parse. -/
theorem finish_auHeader_local : AuLocal fun s => finish (auHeader s) := by
  intro s
  simp only [auHeader, auAlone]
  cases hd : decodeAu s.cfg .header (bitsAhead s.cfg.bitOrder s.au) with
  | ok i n => exact exec_auToken_alone _ _ _ _ _ hd _ _ _
  | short n => rfl
  | reject why n => rfl

/-- A token of the body. -/
theorem finish_auBody_local (x : AuCtx) : AuLocal fun s => finish (auBody x s) := by
  intro s
  simp only [auBody, auAlone]
  cases hd : decodeAu s.cfg x (bitsAhead s.cfg.bitOrder s.au) with
  | ok i n => exact exec_auToken_alone _ _ _ _ _ hd _ _ _
  | short n => rfl
  | reject why n => rfl

/-- The turn of ACU. -/
theorem finish_auNext_local : AuLocal fun s => finish (auNext s) := by
  intro s
  simp only [auNext, auAlone]
  cases s.au.phase with
  | header => exact finish_auHeader_local s
  | block => exact finish_auBody_local _ s
  | selector => exact finish_auBody_local _ s
  | code => exact finish_auBody_local _ s
  | merge => rfl
  | output => rfl

/-- A step of a BUSY ACU, LZU not BUSY, is the step of ACU alone. -/
theorem step_au_alone (s : State) (hr : resetPending s.ops = false) (hl : s.lz.status ≠ .busy) (hb : s.au.status = .busy) :
    step s = onAu s (step (auAlone s.cfg s.au)) := by
  rw [step_eq_finish, fetch_au s hr hl hb, step_eq_finish, fetch_au (auAlone s.cfg s.au) rfl nofun hb]
  exact finish_auNext_local s

theorem onLz_next (s t : State) (o : Host.Outcome State Fault Refusal) (h : onLz s o = .next t) :
    ∃ u, o = .next u ∧ t = s.withLz u.lz := by
  cases o <;> cases h
  exact ⟨_, rfl, rfl⟩

theorem onAu_next (s t : State) (o : Host.Outcome State Fault Refusal) (h : onAu s o = .next t) :
    ∃ u, o = .next u ∧ t = s.withAu u.au := by
  cases o <;> cases h
  exact ⟨_, rfl, rfl⟩

/-- Settles O53: two states that agree on the parameters and on the unit that runs take the step of that unit alone. -/
theorem unitsBlindToEachOther : Obligations.UnitsBlindToEachOther := by
  constructor
  · intro s s' t hr hr' hb hc hu h
    rw [step_lz_alone s hr hb] at h
    obtain ⟨v, hv, rfl⟩ := onLz_next s t _ h
    have h' : step s' = .next (s'.withLz v.lz) := by
      rw [step_lz_alone s' hr' (hu ▸ hb), ← hc, ← hu, hv]
      rfl
    exact ⟨_, h', rfl, rfl, rfl⟩
  · intro s s' t hr hr' hl hl' hb hc hu h
    rw [step_au_alone s hr hl hb] at h
    obtain ⟨v, hv, rfl⟩ := onAu_next s t _ h
    have h' : step s' = .next (s'.withAu v.au) := by
      rw [step_au_alone s' hr' hl' (hu ▸ hb), ← hc, ← hu, hv]
      rfl
    exact ⟨_, h', rfl, rfl, rfl⟩

end Sys2Proof.Machine

namespace Sys2Proof.Machine

/-! ## ACU's invariant -/

theorem AuCause.code_ne_zero (f : AuCause) : f.code ≠ 0 := by cases f <;> decide

/-- ACU after fault entry meets the invariant (60_exceptions.md R250): the cursor that is recorded fits its register. -/
theorem auInv_raise (c : Config) (f : AuCause) (u : Acu) (hf : auFits c u) : AuInv c (auRaise f u) := by
  obtain ⟨hin, hpos, hbit, hstart⟩ := hf
  refine ⟨iff_of_true rfl f.code_ne_zero, nofun, ?_, nofun, nofun, nofun, hin, ?_, hbit, hstart⟩
  · rintro (h | ⟨h, _⟩) <;> cases h
  · rw [auRaise_faultPos]
    split_ifs
    · exact hpos
    · exact hbit

/-- ACU after either reset meets the invariant (44_audio_merge_output.md R228; 70_reset_and_hazards.md R271). -/
theorem auInv_initial (c : Config) (n : Nat) (force : BitVec 2) (inp : Memory 8) (pcm : Memory 16) (ctr : Nat)
    (hn : n < 2 ^ c.aw) :
    AuInv c { Acu.initial with inLen := n, chForce := force, inp := inp, pcm := pcm, freeCtr := ctr } := by
  have h0 : 0 < 2 ^ (c.aw + 3) := Nat.two_pow_pos _
  refine ⟨by simp [Acu.initial], nofun, ?_, nofun, nofun, nofun, hn, h0, h0, h0⟩
  rintro (h | ⟨h, _⟩) <;> cases h

/-- ACU at the start of the header parse meets the invariant (42_audio_header.md R150). -/
theorem auInv_begin (c : Config) (u : Acu) (hf : auFits c u) : AuInv c (auBegin u) := by
  obtain ⟨hin, _, _, hstart⟩ := hf
  have h0 : 0 < 2 ^ (c.aw + 3) := Nat.two_pow_pos _
  refine ⟨iff_of_false nofun (not_not.mpr rfl), fun _ => rfl, ?_, nofun, nofun, fun _ => ⟨rfl, rfl, rfl, rfl⟩,
    hin, h0, h0, hstart⟩
  rintro (h | ⟨_, h⟩)
  · cases h
  · exact absurd rfl h

/-- The bits of a token that is all there keep every register inside its width. -/
theorem auFits_advance (c : Config) (u : Acu) (n : Nat) (hn : n ≤ bitsLeft u) (h : auFits c u) :
    auFits c (advance n u) := by
  obtain ⟨hin, hpos, hbit, hstart⟩ := h
  exact ⟨hin, hpos, advance_bitpos_lt c.aw n u hn hin hbit, hstart⟩

/-- What the invariant asks wherever a header has been accepted. -/
structure AuStream (c : Config) (u : Acu) : Prop where
  fault : u.fault = 0
  rate : 4096 ≤ u.rate.toNat
  rows : u.rows ≠ 0
  channels : u.channels = 1 ∨ u.channels = 2
  dataStart : u.dataStart = 112
  emitted : u.emitted.toNat ≤ u.samples.toNat
  fits : auFits c u

theorem AuInv.fits {c : Config} {u : Acu} (h : AuInv c u) : auFits c u := by
  obtain ⟨_, _, _, _, _, _, h⟩ := h
  exact h

theorem AuInv.fault_eq_zero {c : Config} {u : Acu} (h : AuInv c u) (hs : u.status ≠ .fault) : u.fault = 0 := by
  obtain ⟨hf, _⟩ := h
  by_contra h0
  exact hs (hf.mpr h0)

theorem AuInv.stream {c : Config} {u : Acu} (h : AuInv c u) (hs : inStream u) : AuStream c u := by
  have h0 : u.fault = 0 := h.fault_eq_zero fun hf => by
    rcases hs with hs | ⟨hs, _⟩ <;> rw [hf] at hs <;> cases hs
  obtain ⟨_, _, hhdr, _, _, _, hfits⟩ := h
  obtain ⟨hrate, hrows, hch, hstart, hem⟩ := hhdr hs
  exact ⟨h0, hrate, hrows, hch, hstart, hem, hfits⟩

/-- Between blocks the invariant asks for the header, and tells the two ends apart by the count. -/
theorem AuStream.inv {c : Config} {u : Acu} (h : AuStream c u) (hs : u.status.hasStream = true)
    (hc : u.status = .endComplete → u.emitted = u.samples)
    (ht : u.status = .endTruncated → u.emitted.toNat < u.samples.toNat) : AuInv c u := by
  have hb : u.status ≠ .busy := fun hb => by rw [hb] at hs; cases hs
  have hf : u.status ≠ .fault := fun hf => by rw [hf] at hs; cases hs
  exact ⟨iff_of_false hf (not_not.mpr h.fault), fun h => absurd h hb,
    fun _ => ⟨h.rate, h.rows, h.channels, h.dataStart, h.emitted⟩, hc, ht, fun h => absurd h hb, h.fits⟩

theorem AuStream.inv_of_ready {c : Config} {u : Acu} (h : AuStream c u) (hs : u.status = .ready) : AuInv c u :=
  h.inv (by rw [hs]; rfl) (fun he => by rw [hs] at he; cases he) fun he => by rw [hs] at he; cases he

/-- What the invariant asks in a block, wherever in it ACU stands. -/
structure AuBlock (c : Config) (u : Acu) : Prop extends AuStream c u where
  status : u.status = .busy
  lastN : u.lastN = 0
  owed : u.emitted.toNat < u.samples.toNat

/-- The column and the row under way at a place of the block (43_audio_block_decode.md R172). -/
def blockPlace (c : Config) (u : Acu) : Prop :=
  match u.phase with
  | .header => False
  | .block => True
  | .selector => u.col.toNat < cols u
  | .code => u.col.toNat < cols u ∧ u.row < rowCount u ∧ hasCodeWords (decoderOf c u.sel)
  | .merge => u.col.toNat = cols u
  | .output => u.col.toNat = cols u

theorem blockPlace_selector {c : Config} {u : Acu} (hp : u.phase = .selector) :
    blockPlace c u ↔ u.col.toNat < cols u := by
  unfold blockPlace; rw [hp]

theorem blockPlace_code {c : Config} {u : Acu} (hp : u.phase = .code) :
    blockPlace c u ↔ u.col.toNat < cols u ∧ u.row < rowCount u ∧ hasCodeWords (decoderOf c u.sel) := by
  unfold blockPlace; rw [hp]

theorem blockPlace_merge {c : Config} {u : Acu} (hp : u.phase = .merge) : blockPlace c u ↔ u.col.toNat = cols u := by
  unfold blockPlace; rw [hp]

theorem AuBlock.inv {c : Config} {u : Acu} (h : AuBlock c u) (hp : blockPlace c u) : AuInv c u := by
  have hs := h.status
  refine ⟨iff_of_false (by simp [hs]) (not_not.mpr h.fault), fun _ => h.lastN,
    fun _ => ⟨h.rate, h.rows, h.channels, h.dataStart, h.emitted⟩, by simp [hs], by simp [hs], fun _ => ?_, h.fits⟩
  have howed := h.owed
  unfold blockPlace at hp
  cases hph : u.phase <;> simp only [hph] at hp ⊢
  case block => exact howed
  all_goals exact ⟨howed, hp⟩

/-- The header parse stands at the first bit, with nothing delivered (42_audio_header.md R150). -/
theorem AuInv.header {c : Config} {u : Acu} (h : AuInv c u) (hb : u.status = .busy) (hp : u.phase = .header) :
    u.bitpos = 0 ∧ u.emitted = 0 := by
  obtain ⟨_, _, _, _, _, hbusy, _⟩ := h
  have hplace := hbusy hb
  simp only [hp] at hplace
  obtain ⟨hpos, hem, _, _⟩ := hplace
  exact ⟨hpos, hem⟩

theorem AuInv.block {c : Config} {u : Acu} (h : AuInv c u) (hb : u.status = .busy) (hh : u.phase ≠ .header) :
    AuBlock c u ∧ blockPlace c u := by
  have hs := h.stream (.inr ⟨hb, hh⟩)
  obtain ⟨_, hlast, _, _, _, hbusy, _⟩ := h
  have hbusy := hbusy hb
  unfold blockPlace
  cases hp : u.phase <;> simp only [hp] at hbusy <;> dsimp only
  case header => exact absurd hp hh
  case block => exact ⟨⟨hs, hb, hlast hb, hbusy⟩, trivial⟩
  all_goals exact ⟨⟨hs, hb, hlast hb, hbusy.1⟩, hbusy.2⟩

/-! ### Inside a block -/

/-- The bits of a token that is all there. -/
theorem AuBlock.advance {c : Config} {u : Acu} (h : AuBlock c u) (n : Nat) (hn : n ≤ bitsLeft u) :
    AuBlock c (advance n u) :=
  { h with fits := auFits_advance c u n hn h.fits }

/-- The samples of a code word. -/
theorem AuBlock.putRaws {c : Config} {u : Acu} (h : AuBlock c u) (raws : List Int) : AuBlock c (putRaws raws u) := by
  rw [putRaws_eq]
  exact { h with }

/-- The end of a column: the next one exists, or all are written. -/
theorem AuBlock.endSubband_inv {c : Config} {u : Acu} (h : AuBlock c u) (hc : u.col.toNat < cols u) :
    AuInv c (endSubband u) := by
  have hb : AuBlock c (endSubband u) := { h with }
  rcases endSubband_cases u hc with ⟨hp, hcol⟩ | ⟨hp, hcol⟩
  · exact hb.inv ((blockPlace_selector hp).mpr hcol)
  · exact hb.inv ((blockPlace_merge hp).mpr hcol)

/-- After a code word: the row under way exists, or the column ends. -/
theorem AuBlock.closeSubband_inv {c : Config} {u : Acu} (h : AuBlock c u) (hc : u.col.toNat < cols u)
    (hp : u.phase = .code) (hd : hasCodeWords (decoderOf c u.sel)) : AuInv c (closeSubband u) := by
  rcases closeSubband_cases u with ⟨hr, he⟩ | ⟨_, he⟩ <;> rw [he]
  · exact h.inv ((blockPlace_code hp).mpr ⟨hc, hr, hd⟩)
  · exact h.endSubband_inv hc

/-- The output delivers no more than the header declares (44_audio_merge_output.md R221). -/
theorem outputStep_emitted_le (c : Config) (u : Acu) (h : u.emitted.toNat ≤ u.samples.toNat) :
    (outputStep c u).emitted.toNat ≤ u.samples.toNat := by
  have hn : deliverCount u ≤ u.samples.toNat - u.emitted.toNat := Nat.min_le_right _ _
  change (u.emitted + BitVec.ofNat 32 (deliverCount u)).toNat ≤ _
  rw [BitVec.toNat_add, BitVec.toNat_ofNat, Nat.add_mod_mod]
  exact (Nat.mod_le _ _).trans (by omega)

/-! ### The steps and the acts -/

/-- The header parse, which stands at bit 0, keeps the invariant: an accepted header took 112 bits. -/
theorem headerCheck_inv (c : Config) (v : BitVec 8) (u : Acu) (h0 : u.fault = 0) (hfits : auFits c u)
    (hpos : u.bitpos = 112) (hem : u.emitted = 0) : AuInv c (headerCheck v u) := by
  obtain ⟨hin, hfpos, hbit, hstart⟩ := hfits
  rcases headerCheck_cases v u with ⟨f, ch, he⟩ | ⟨ch, hch, hrate, hrows, he⟩ <;> rw [he]
  · exact auInv_raise c f _ ⟨hin, hfpos, hbit, hstart⟩
  · refine AuStream.inv_of_ready ⟨h0, hrate, hrows, hch, hpos, ?_, hin, hfpos, hbit, hbit⟩ rfl
    change u.emitted.toNat ≤ _
    rw [hem]
    exact Nat.zero_le _

/-- A step of ACU keeps ACU's invariant. -/
theorem auStepKind_keeps_inv (s : State) (u : Acu) (hb : s.au.status = .busy) (hi : AuInv s.cfg s.au)
    (hk : AuStepKind s u) : AuInv s.cfg u := by
  have hfits := hi.fits
  have block (hp : s.au.phase ≠ .header) := hi.block hb hp
  cases hk with
  | headerRaise f n _ _ hn => exact auInv_raise _ f _ (auFits_advance _ _ n hn hfits)
  | header v a b d l r hp hn =>
    obtain ⟨hpos, hem⟩ := hi.header hb hp
    exact headerCheck_inv _ v _ (hi.fault_eq_zero (by simp [hb])) (auFits_advance _ _ 112 hn hfits)
      (by simp [hpos]) hem
  | truncated n hp hn =>
    obtain ⟨h, _⟩ := block (by rcases hp with hp | hp | hp <;> simp [hp])
    have h := h.advance n hn
    exact AuStream.inv { h with } rfl nofun fun _ => h.owed
  | block p sc hp hn =>
    obtain ⟨h, _⟩ := block (by simp [hp])
    exact AuBlock.inv { h.advance 20 hn with } (cols_pos _)
  | bad sel hp hn => exact auInv_raise _ _ _ (auFits_advance _ _ 5 hn hfits)
  | zero sel hp hn hc =>
    obtain ⟨h, _⟩ := block (by simp [hp])
    have h : AuBlock s.cfg { advance 5 s.au with sel := sel, row := 0 } := { h.advance 5 hn with }
    exact (h.putRaws _).endSubband_inv (by rw [putRaws_eq]; exact hc)
  | sel sel hp hn hc hd =>
    obtain ⟨h, _⟩ := block (by simp [hp])
    exact AuBlock.closeSubband_inv { h.advance 5 hn with } hc rfl hd
  | word n raws hp _ hn _ hc hr =>
    obtain ⟨h, hplace⟩ := block (by simp [hp])
    obtain ⟨_, _, hd⟩ := (blockPlace_code hp).mp hplace
    refine ((h.advance n hn).putRaws raws).closeSubband_inv ?_ ?_ ?_ <;> rw [putRaws_eq]
    · exact hc
    · exact hp
    · exact hd
  | index n hp _ hn => exact auInv_raise _ _ _ (auFits_advance _ _ n hn hfits)
  | merge hp =>
    obtain ⟨h, hplace⟩ := block (by simp [hp])
    rw [wrapMerge_eq]
    exact AuBlock.inv { h with } ((blockPlace_merge hp).mp hplace)
  | output hp =>
    obtain ⟨h, _⟩ := block (by simp [hp])
    exact AuStream.inv_of_ready { h with emitted := outputStep_emitted_le _ _ h.emitted } rfl

/-- An act of the host keeps ACU's invariant. -/
theorem auActKind_keeps_inv (c : Config) (u v : Acu) (hb : u.status ≠ .busy) (hi : AuInv c u) (hk : AuActKind c u v) :
    AuInv c v := by
  have hstream (hs : u.status.hasStream = true) : AuStream c u := hi.stream (.inl hs)
  obtain ⟨hf, _, hhdr, hc, ht, _, hin, hfpos, hbit, hstart⟩ := hi
  cases hk with
  | usage => exact auInv_raise c _ u ⟨hin, hfpos, hbit, hstart⟩
  | init => exact auInv_begin c u ⟨hin, hfpos, hbit, hstart⟩
  | endAgain he =>
    have hs : u.status.hasStream = true := by rcases he with he | he <;> rw [he] <;> rfl
    exact AuStream.inv { hstream hs with } hs hc ht
  | complete hr he => exact AuStream.inv { hstream (by rw [hr]; rfl) with } rfl (fun _ => he) nofun
  | block hr he =>
    have h := hstream (by rw [hr]; rfl)
    have howed : u.emitted.toNat < u.samples.toNat :=
      lt_of_le_of_ne h.emitted fun e => he (BitVec.eq_of_toNat_eq e)
    exact AuBlock.inv { h with status := rfl, lastN := rfl, owed := howed } trivial
  | restart hs =>
    exact AuStream.inv_of_ready
      { hstream hs with emitted := Nat.zero_le _, fits := ⟨hin, hfpos, hstart, hstart⟩ } rfl
  | clearWrap m hs => exact AuStream.inv { hstream hs with } hs hc ht
  | reset => exact auInv_initial c _ _ _ _ _ hin
  | inLen n =>
    exact ⟨hf, fun h => absurd h hb, hhdr, hc, ht, fun h => absurd h hb, fit_lt c n, hfpos, hbit, hstart⟩
  | chForce v => exact ⟨hf, fun h => absurd h hb, hhdr, hc, ht, fun h => absurd h hb, hin, hfpos, hbit, hstart⟩
  | inp m x => exact ⟨hf, fun h => absurd h hb, hhdr, hc, ht, fun h => absurd h hb, hin, hfpos, hbit, hstart⟩
  | pcm m => exact ⟨hf, fun h => absurd h hb, hhdr, hc, ht, fun h => absurd h hb, hin, hfpos, hbit, hstart⟩

/-- Settles O57, by the kinds of step: a run of ACU and an act for ACU keep the invariant, the platform's reset sets it up,
and every other step leaves ACU as it was. -/
theorem stepKeepsAuInvariant : Obligations.StepKeepsAuInvariant := by
  intro s t hi h
  cases step_kind s t h with
  | reset rest ho => exact auInv_initial s.cfg _ _ _ _ _ (Nat.two_pow_pos _)
  | lzRun u _ _ _ => exact hi
  | auRun u _ _ hb hk => exact auStepKind_keeps_inv s u hb hi hk
  | rest _ _ _ => exact hi
  | lzAct a rest u _ _ _ _ _ => exact hi
  | auAct a rest u _ hb _ _ hk => exact auActKind_keeps_inv s.cfg s.au u hb hi hk

end Sys2Proof.Machine

namespace Sys2Proof.Machine

/-! ## The copy of a back-reference -/

/-- Which byte of a copy an address of `RING` belongs to: the one as many bytes past the write index. -/
theorem eq_add_ofNat_iff (x rp : BitVec 12) (k : Nat) (hk : k < 4096) :
    x = rp + BitVec.ofNat 12 k ↔ (x - rp).toNat = k := by
  constructor
  · rintro rfl
    rw [BitVec.add_comm, BitVec.add_sub_cancel, BitVec.toNat_ofNat]
    exact Nat.mod_eq_of_lt hk
  · rintro rfl
    rw [BitVec.ofNat_toNat, BitVec.setWidth_eq, BitVec.add_comm, BitVec.sub_add_cancel]

/-- What a copy of `n` bytes from address `a` that fits has put into `OUT` and `RING` (41_lzss.md R129; 20_memory.md R64). -/
structure Copied (n : Nat) (a : BitVec 12) (u : Lzu) (out ring : Memory 8) : Prop where
  byte : ∀ j, j < n → Memory.find out (u.op + j) =
    if (a + BitVec.ofNat 12 j - u.rp).toNat < j then Memory.find out (u.op + (a + BitVec.ofNat 12 j - u.rp).toNat)
    else some (ringCell u.ring (a + BitVec.ofNat 12 j))
  pushed : ∀ j, j < n → some (ringCell ring (u.rp + BitVec.ofNat 12 j)) = Memory.find out (u.op + j)
  kept : ∀ x, (∀ j, j < n → x ≠ u.rp + BitVec.ofNat 12 j) → ringCell ring x = ringCell u.ring x

/-- What the copy reads next: the byte it pushed to that address itself, or the cell as it stood before the copy. -/
theorem Copied.read {n : Nat} {a : BitVec 12} {u : Lzu} {out ring : Memory 8} (h : Copied n a u out ring)
    (hn : n < 4096) (x : BitVec 12) :
    some (ringCell ring x) =
      if (x - u.rp).toNat < n then Memory.find out (u.op + (x - u.rp).toNat) else some (ringCell u.ring x) := by
  split_ifs with hk
  · rw [← h.pushed _ hk, ← (eq_add_ofNat_iff x u.rp _ (hk.trans hn)).mpr rfl]
  · rw [h.kept x fun j hj hx => hk ?_]
    rw [(eq_add_ofNat_iff x u.rp j (hj.trans hn)).mp hx]
    exact hj

/-- One byte more: it is read after every byte before it was pushed. -/
theorem Copied.succ {n : Nat} {a : BitVec 12} {u : Lzu} {out ring : Memory 8} (h : Copied n a u out ring)
    (hn : n < 4096) (b : Byte) (hb : b = ringCell ring (a + BitVec.ofNat 12 n)) :
    Copied (n + 1) a u (Memory.put out (u.op + n) b) (ringWrite ring (u.rp + BitVec.ofNat 12 n) b) := by
  have hout (k : Nat) (hk : k < n) : Memory.find (Memory.put out (u.op + n) b) (u.op + k) = Memory.find out (u.op + k) :=
    Memory.find_put_other _ _ _ _ (by omega)
  refine ⟨fun j hj => ?_, fun j hj => ?_, fun x hx => ?_⟩
  · rcases Nat.lt_succ_iff_lt_or_eq.mp hj with hj | rfl
    · rw [hout j hj, h.byte j hj]
      split_ifs with hk
      · rw [hout _ (hk.trans hj)]
      · rfl
    · rw [Memory.find_put_same, hb, h.read hn]
      split_ifs with hk
      · rw [← hb, hout _ hk]
      · rfl
  · rw [ringCell_ringWrite]
    rcases Nat.lt_succ_iff_lt_or_eq.mp hj with hj | rfl
    · have hne : u.rp + BitVec.ofNat 12 j ≠ u.rp + BitVec.ofNat 12 n := by bv_omega
      rw [if_neg hne, hout j hj, h.pushed j hj]
    · rw [if_pos rfl, Memory.find_put_same]
  · rw [ringCell_ringWrite, if_neg (hx n n.lt_succ_self), h.kept x fun j hj => hx j (hj.trans n.lt_succ_self)]

/-- A copy that fits and does not go round `RING`, byte by byte. -/
theorem lzCopy_copied (n : Nat) (a : BitVec 12) (u t : Lzu) (hn : n ≤ 4096) (hfit : u.op + n ≤ u.outLen)
    (h : lzCopy n a u = .ok t) : Copied n a u t.out t.ring := by
  induction n generalizing t with
  | zero =>
    cases h
    exact ⟨nofun, nofun, fun _ _ => rfl⟩
  | succ n ih =>
    obtain ⟨out, ring, hc, _⟩ := lzCopy_fits n a u (by omega)
    rw [lzCopy_snoc, hc] at h
    dsimp only at h
    rw [lzCopy_succ 0 _ _ (by dsimp only; omega)] at h
    cases h
    exact (ih _ (by omega) (by omega) hc).succ hn _ rfl

/-- Settles O19. -/
theorem referenceCopiesByteByByte : Obligations.ReferenceCopiesByteByByte := by
  intro off lenM3 s len hfit
  have hlen : len ≤ 4096 := by have := lenM3.isLt; omega
  obtain ⟨out, ring, hc, hout⟩ := lzCopy_fits len off s.lz hfit
  have hcopied := lzCopy_copied len off s.lz _ hlen hfit hc
  refine ⟨s.withLz { s.lz with
    out := out, op := s.lz.op + len, ring := ring, rp := s.lz.rp + BitVec.ofNat 12 len }, ?_,
    hcopied.byte, hout, hcopied.pushed, hcopied.kept, rfl⟩
  change Host.Outcome.next (s.withLz (settle (lzCopy len off s.lz))) = _
  rw [hc]
  rfl

end Sys2Proof.Machine

namespace Sys2Proof.Machine

/-! ## What an operation keeps of one memory -/

/-- What a run of writes below `n` keeps of a memory: its canonical form, and that its cells lie below `n`. -/
structure Memory.KeptBelow {w : Nat} (n : Nat) (m m' : Memory w) : Prop where
  wf : Memory.wf none m → Memory.wf none m'
  bounded : (∀ c ∈ m, c.1 < n) → ∀ c ∈ m', c.1 < n

theorem Memory.KeptBelow.refl {w : Nat} (n : Nat) (m : Memory w) : Memory.KeptBelow n m m := ⟨id, id⟩

theorem Memory.KeptBelow.trans {w n : Nat} {m m' m'' : Memory w} (h : Memory.KeptBelow n m m')
    (h' : Memory.KeptBelow n m' m'') : Memory.KeptBelow n m m'' := ⟨h'.wf ∘ h.wf, h'.bounded ∘ h.bounded⟩

theorem Memory.KeptBelow.put {w n : Nat} (m : Memory w) (a : Nat) (v : BitVec w) (ha : a < n) :
    Memory.KeptBelow n m (Memory.put m a v) := ⟨Memory.wf_put_none m a v, Memory.bounded_put n m a v ha⟩

/-- A group of butterflies, also one without a pair. -/
theorem butterflies_kept (ctr stride n p : Nat) (r0 r1 : Cell32) (block : Memory 32) (size : Nat)
    (h : 0 < n → p + (2 * n - 1) * stride < size) :
    Memory.KeptBelow size block (butterflies ctr stride n p r0 r1 block).1 := by
  obtain ⟨hw, hb⟩ := butterflies_keeps ctr stride n p r0 r1 block size
  rcases Nat.eq_zero_or_pos n with rfl | hn
  · exact .refl _ _
  · exact ⟨hw, hb (h hn)⟩

/-- The plus-one step, also on no cell. -/
theorem plusOne_kept (ctr stride n a : Nat) (block : Memory 32) (size : Nat)
    (h : 0 < n → a + (n - 1) * stride < size) : Memory.KeptBelow size block (plusOne ctr stride n a block) := by
  obtain ⟨hw, hb⟩ := plusOne_keeps ctr stride n a block size
  rcases Nat.eq_zero_or_pos n with rfl | hn
  · exact .refl _ _
  · exact ⟨hw, hb (h hn)⟩

/-! ## The wrap-merge -/

/-- The same of `BLOCK` and `WRAP` together, with `b` and `w` cells. -/
structure MergeKept (b w : Nat) (m m' : Memory 32 × Memory 32) : Prop where
  block : Memory.KeptBelow b m.1 m'.1
  wrap : Memory.KeptBelow w m.2 m'.2

theorem MergeKept.refl (b w : Nat) (m : Memory 32 × Memory 32) : MergeKept b w m m := ⟨.refl _ _, .refl _ _⟩

theorem MergeKept.trans {b w : Nat} {m m' m'' : Memory 32 × Memory 32} (h : MergeKept b w m m')
    (h' : MergeKept b w m' m'') : MergeKept b w m m'' := ⟨h.block.trans h'.block, h.wrap.trans h'.wrap⟩

/-- One group of `Juggle` stays inside the `subCount * subLen` cells of `BLOCK` and the `2 * subLen` of `WRAP` it is given. -/
theorem juggleGroup_kept (ctr wb bb subLen subCount i b w : Nat) (m : Memory 32 × Memory 32) (hi : i < subLen)
    (hb : bb + subCount * subLen ≤ b) (hw : wb + 2 * subLen ≤ w) :
    MergeKept b w m (juggleGroup ctr wb bb subLen subCount i m) := by
  refine ⟨butterflies_kept _ _ _ _ _ _ _ _ fun hn => ?_,
    (Memory.KeptBelow.put _ _ _ (by omega)).trans (.put _ _ _ (by omega))⟩
  have hle : (2 * (subCount / 2) - 1 + 1) * subLen ≤ subCount * subLen := Nat.mul_le_mul_right _ (by omega)
  rw [Nat.add_mul] at hle
  omega

theorem juggleFrom_kept (ctr wb bb subLen subCount b w : Nat) (hb : bb + subCount * subLen ≤ b)
    (hw : wb + 2 * subLen ≤ w) (n i : Nat) (m : Memory 32 × Memory 32) (hi : i + n ≤ subLen) :
    MergeKept b w m (juggleFrom ctr wb bb subLen subCount n i m) := by
  induction n generalizing i m with
  | zero => exact .refl _ _ _
  | succ n ih =>
    exact (juggleGroup_kept ctr wb bb subLen subCount i b w m (by omega) hb hw).trans (ih (i + 1) _ (by omega))

theorem juggle_kept (ctr wb bb subLen subCount b w : Nat) (m : Memory 32 × Memory 32)
    (hb : bb + subCount * subLen ≤ b) (hw : wb + 2 * subLen ≤ w) :
    MergeKept b w m (juggle ctr wb bb subLen subCount m) :=
  juggleFrom_kept ctr wb bb subLen subCount b w hb hw subLen 0 m (Nat.zero_add _).le

/-- The passes of group length `2^k / 2`, ..., 1 use `2 * 2^k - 2` cells of `WRAP` (44_audio_merge_output.md R214). -/
theorem laterPasses_kept (ctr bb b w k wb n : Nat) (m : Memory 32 × Memory 32) (hb : bb + n * 2 ^ k ≤ b)
    (hw : wb + 2 * 2 ^ k ≤ w + 2) : MergeKept b w m (laterPasses ctr bb k wb n m) := by
  induction k generalizing wb n m with
  | zero => exact .refl _ _ _
  | succ k ih =>
    have hpos := Nat.two_pow_pos k
    have hb' : bb + 2 * n * 2 ^ k ≤ b := by
      calc bb + 2 * n * 2 ^ k = bb + n * 2 ^ (k + 1) := by ring
        _ ≤ b := hb
    rw [Nat.pow_succ] at hw
    exact (juggle_kept ctr wb bb (2 ^ k) (2 * n) b w m hb' (by omega)).trans (ih _ _ _ hb' (by omega))

/-- A chunk of `cnt` rows of `2 * 2^k` cells each. -/
theorem mergeChunk_kept (ctr : Nat) (onePlus : Bool) (k bb cnt b w : Nat) (m : Memory 32 × Memory 32)
    (hb : bb + cnt * (2 * 2 ^ k) ≤ b) (hw : 4 * 2 ^ k ≤ w + 2) :
    MergeKept b w m (mergeChunk ctr onePlus k bb cnt m) := by
  have hpos := Nat.two_pow_pos k
  have hb' : bb + 2 * cnt * 2 ^ k ≤ b := by
    calc bb + 2 * cnt * 2 ^ k = bb + cnt * (2 * 2 ^ k) := by ring
      _ ≤ b := hb
  have hfirst := juggle_kept ctr 0 bb (2 ^ k) (2 * cnt) b w m hb' (by omega)
  refine MergeKept.trans ?_ (laterPasses_kept ctr bb b w k (2 * 2 ^ k) (2 * cnt) _ hb' (by omega))
  split_ifs
  · refine hfirst.trans ⟨plusOne_kept _ _ _ _ _ _ fun hn => ?_, .refl _ _⟩
    have hlast : (2 * cnt - 1 + 1) * 2 ^ k = 2 * cnt * 2 ^ k := by rw [Nat.sub_add_cancel hn]
    rw [Nat.add_mul] at hlast
    omega
  · exact hfirst

theorem mergeChunks_kept (ctr : Nat) (onePlus : Bool) (k chunk b w fuel todo bb : Nat) (m : Memory 32 × Memory 32)
    (hb : bb + todo * (2 * 2 ^ k) ≤ b) (hw : 4 * 2 ^ k ≤ w + 2) :
    MergeKept b w m (mergeChunks ctr onePlus k chunk (2 * 2 ^ k) fuel todo bb m) := by
  induction fuel generalizing todo bb m with
  | zero => exact .refl _ _ _
  | succ fuel ih =>
    have hmin : min chunk todo * (2 * 2 ^ k) ≤ todo * (2 * 2 ^ k) := Nat.mul_le_mul_right _ (Nat.min_le_right _ _)
    have hchunk := mergeChunk_kept ctr onePlus k bb (min chunk todo) b w m (by omega) hw
    unfold mergeChunks
    dsimp only
    split_ifs with h
    · exact hchunk
    · refine hchunk.trans (ih _ _ _ ?_)
      rw [Nat.add_assoc, ← Nat.add_mul, Nat.add_sub_cancel' (by omega)]
      exact hb

/-- The wrap-merge keeps both memories canonical and inside their spaces, in every state of ACU. -/
theorem wrapMerge_kept (c : Config) (u : Acu) :
    Memory.KeptBelow (blocklen u) u.block (wrapMerge c u).block ∧
    Memory.KeptBelow (wraplen u) u.wrap (wrapMerge c u).wrap := by
  unfold wrapMerge
  split
  next => exact ⟨.refl _ _, .refl _ _⟩
  next k hk =>
    have hcols : cols u = 2 * 2 ^ k := by rw [cols, hk, Nat.pow_succ, Nat.mul_comm]
    have hb : 0 + rowCount u * (2 * 2 ^ k) ≤ blocklen u := by rw [Nat.zero_add, blocklen, hcols, Nat.mul_comm]
    have hw : 4 * 2 ^ k ≤ wraplen u + 2 := by unfold wraplen; omega
    rw [hcols]
    obtain ⟨hblock, hwrap⟩ := mergeChunks_kept u.freeCtr c.mergePlusOne k (chunkRows u) (blocklen u) (wraplen u)
      (rowCount u) (rowCount u) 0 (u.block, u.wrap) hb hw
    exact ⟨hblock, hwrap⟩

/-! ## The memories of the units -/

/-- The memories of LZU are in canonical form (20_memory.md R50 to R52). -/
def LzCanonical (u : Lzu) : Prop := Memory.wf none u.inp ∧ Memory.wf none u.out ∧ Memory.wf (some ringFill) u.ring

/-- The listed cells of `RING` are cells of `RING` (20_memory.md R52). -/
def LzInSpace (u : Lzu) : Prop := ∀ c ∈ u.ring, c.1 < 4096

/-- The memories of ACU are in canonical form (20_memory.md R54 to R57). -/
def AuCanonical (u : Acu) : Prop :=
  Memory.wf none u.inp ∧ Memory.wf none u.pcm ∧ Memory.wf none u.block ∧ Memory.wf none u.wrap

/-- The listed cells of `BLOCK` and of `WRAP` are cells of theirs (20_memory.md R56). -/
def AuInSpace (u : Acu) : Prop := (∀ c ∈ u.block, c.1 < blocklen u) ∧ ∀ c ∈ u.wrap, c.1 < wraplen u

theorem memCanonical_iff (s : State) : MemCanonical s ↔ LzCanonical s.lz ∧ AuCanonical s.au := by
  simp only [MemCanonical, LzCanonical, AuCanonical, and_assoc]

theorem memInBounds_iff (s : State) : MemInBounds s ↔ LzInSpace s.lz ∧ AuInSpace s.au := Iff.rfl

/-- LZU's memories stay canonical and inside their spaces. -/
structure LzMemoriesKept (u v : Lzu) : Prop where
  canonical : LzCanonical u → LzCanonical v
  inSpace : LzInSpace u → LzInSpace v

/-- ACU's memories stay canonical and inside their spaces. -/
structure AuMemoriesKept (u v : Acu) : Prop where
  canonical : AuCanonical u → AuCanonical v
  inSpace : AuInSpace u → AuInSpace v

/-! ### The acts of the host -/

/-- LZU after either reset: `IN` and `OUT` as they were, `RING` without a listed cell. -/
theorem lzInitial_kept (u : Lzu) (n m : Nat) :
    LzMemoriesKept u { Lzu.initial with inLen := n, outLen := m, inp := u.inp, out := u.out } :=
  ⟨fun ⟨hi, ho, _⟩ => ⟨hi, ho, Memory.wf_nil _⟩, fun _ => nofun⟩

/-- ACU after either reset: `IN` and `PCM` as they were, `BLOCK` and `WRAP` without a value. -/
theorem auInitial_kept (u : Acu) (n : Nat) (force : BitVec 2) (ctr : Nat) :
    AuMemoriesKept u { Acu.initial with inLen := n, chForce := force, inp := u.inp, pcm := u.pcm, freeCtr := ctr } :=
  ⟨fun ⟨hi, hp, _, _⟩ => ⟨hi, hp, Memory.wf_nil _, Memory.wf_nil _⟩, fun _ => ⟨nofun, nofun⟩⟩

/-- The cells of `Memory.zeros` from address 0 up lie below their number. -/
theorem Memory.zeros_inSpace {w : Nat} (n : Nat) : ∀ c ∈ (Memory.zeros 0 n : Memory w), c.1 < n := by
  intro c hc
  obtain ⟨_, h⟩ := Memory.mem_zeros n 0 c hc
  rwa [Nat.zero_add] at h

/-- Every cell of `WRAP` zero, as AU_CLEAR_WRAP leaves it. -/
theorem zeroWrap_kept (u : Acu) : AuMemoriesKept u { u with wrap := Memory.zeros 0 (wraplen u) } :=
  ⟨fun ⟨hi, hp, hb, _⟩ => ⟨hi, hp, hb, Memory.wf_zeros _ _⟩, fun ⟨hb, _⟩ => ⟨hb, Memory.zeros_inSpace _⟩⟩

/-- The block with the usage fault of a unit raised (60_exceptions.md R247). -/
def usageRaised (s : State) : UnitId → State
  | .lzu => s.withLz (lzRaise .usage s.lz)
  | .acu => s.withAu (auRaise .usage s.au)

/-- A command code runs the command it names, or raises the usage fault of its unit. -/
theorem hostCommand_cases (unit : UnitId) (code : Byte) (s t : State) (h : finish (hostCommand unit code s) = .next t) :
    (∃ i, decodeCommand unit code = .ok i 1 ∧ exec i s = .next t) ∨ t = usageRaised s unit := by
  unfold hostCommand at h
  rcases decodeCommand_cases unit code with ⟨i, hd⟩ | hd <;> rw [hd] at h
  · exact .inl ⟨i, hd, h⟩
  · cases unit <;> cases h <;> exact .inr rfl

/-- The commands of LZU (30_encoding.md R104). -/
theorem decodeCommand_lzu (code : Byte) (i : Instr) (h : decodeCommand .lzu code = .ok i 1) :
    i = .lzStart ∨ i = .lzReset := by
  unfold decodeCommand at h
  split at h <;> cases h <;> simp_all

/-- The commands of ACU (30_encoding.md R104). -/
theorem decodeCommand_acu (code : Byte) (i : Instr) (h : decodeCommand .acu code = .ok i 1) :
    i = .auInit ∨ i = .auNext ∨ i = .auRestart ∨ i = .auClearWrap ∨ i = .auReset := by
  unfold decodeCommand at h
  split at h <;> cases h <;> simp_all

/-- A code written to `LZ_CMD`. -/
theorem lzCommand_kept (code : Byte) (s t : State) (h : finish (hostCommand .lzu code s) = .next t) :
    LzMemoriesKept s.lz t.lz := by
  rcases hostCommand_cases .lzu code s t h with ⟨i, hd, he⟩ | rfl
  · rcases decodeCommand_lzu code i hd with rfl | rfl
    · rw [exec_lzStart_cases s t he]
      exact ⟨id, id⟩
    · rw [exec_lzReset_cases s t he]
      exact lzInitial_kept _ _ _
  · exact ⟨id, id⟩

/-- AU_INIT: `BLOCK` and `WRAP` hold no value until the parse succeeds (42_audio_header.md R150). -/
theorem exec_auInit_kept (s t : State) (h : exec .auInit s = .next t) : AuMemoriesKept s.au t.au := by
  simp only [exec, execAuInit] at h
  split_ifs at h <;> cases h
  · exact ⟨id, id⟩
  · exact ⟨fun ⟨hi, hp, _, _⟩ => ⟨hi, hp, Memory.wf_nil _, Memory.wf_nil _⟩, fun _ => ⟨nofun, nofun⟩⟩

/-- AU_NEXT writes registers only. -/
theorem exec_auNext_kept (s t : State) (h : exec .auNext s = .next t) : AuMemoriesKept s.au t.au := by
  simp only [exec, execAuNext] at h
  repeat' split at h
  all_goals cases h <;> exact ⟨id, id⟩

/-- AU_RESTART writes registers only. -/
theorem exec_auRestart_kept (s t : State) (h : exec .auRestart s = .next t) : AuMemoriesKept s.au t.au := by
  simp only [exec, execAuRestart] at h
  split_ifs at h <;> cases h <;> exact ⟨id, id⟩

theorem exec_auClearWrap_kept (s t : State) (h : exec .auClearWrap s = .next t) : AuMemoriesKept s.au t.au := by
  simp only [exec, execAuClearWrap] at h
  split_ifs at h <;> cases h
  · exact zeroWrap_kept s.au
  · exact ⟨id, id⟩

theorem exec_auReset_kept (s t : State) (h : exec .auReset s = .next t) : AuMemoriesKept s.au t.au := by
  simp only [exec, execAuReset] at h
  split_ifs at h
  cases h
  exact auInitial_kept _ _ _ _

/-- A code written to `AU_CMD`. -/
theorem auCommand_kept (code : Byte) (s t : State) (h : finish (hostCommand .acu code s) = .next t) :
    AuMemoriesKept s.au t.au := by
  rcases hostCommand_cases .acu code s t h with ⟨i, hd, he⟩ | rfl
  · rcases decodeCommand_acu code i hd with rfl | rfl | rfl | rfl | rfl
    · exact exec_auInit_kept s t he
    · exact exec_auNext_kept s t he
    · exact exec_auRestart_kept s t he
    · exact exec_auClearWrap_kept s t he
    · exact exec_auReset_kept s t he
  · exact ⟨id, id⟩

/-- An act for LZU. -/
theorem hostAct_lzu_kept (a : HostAct) (s t : State) (ha : actUnit a = some .lzu)
    (h : finish (hostAct a s) = .next t) : LzMemoriesKept s.lz t.lz := by
  cases a <;> cases ha
  case lzCommand code => exact lzCommand_kept code s t h
  all_goals cases h
  case writeLzInLen => exact ⟨id, id⟩
  case writeLzOutLen => exact ⟨id, id⟩
  case placeLzIn => exact ⟨fun ⟨hi, ho, hr⟩ => ⟨Memory.wf_put_none _ _ _ hi, ho, hr⟩, id⟩
  case placeOut => exact ⟨fun ⟨hi, ho, hr⟩ => ⟨hi, Memory.wf_put_none _ _ _ ho, hr⟩, id⟩

/-- An act for ACU. -/
theorem hostAct_acu_kept (a : HostAct) (s t : State) (ha : actUnit a = some .acu)
    (h : finish (hostAct a s) = .next t) : AuMemoriesKept s.au t.au := by
  cases a <;> cases ha
  case auCommand code => exact auCommand_kept code s t h
  all_goals cases h
  case writeAuInLen => exact ⟨id, id⟩
  case writeAuChForce => exact ⟨id, id⟩
  case placeAuIn => exact ⟨fun ⟨hi, hp, hb, hw⟩ => ⟨Memory.wf_put_none _ _ _ hi, hp, hb, hw⟩, id⟩
  case placePcm => exact ⟨fun ⟨hi, hp, hb, hw⟩ => ⟨hi, Memory.wf_put_none _ _ _ hp, hb, hw⟩, id⟩

/-! ### The runs -/

/-- A step of LZU's run. -/
theorem lzStepKind_kept (s : State) (u : Lzu) (h : LzStepKind s u) : LzMemoriesKept s.lz u := by
  cases h with
  | raise f v _ hv _ _ => rw [hv]; exact ⟨id, id⟩
  | coded w _ _ _ _ => exact ⟨fun ⟨hi, ho, _⟩ => ⟨hi, ho, Memory.wf_nil _⟩, fun _ => nofun⟩
  | data d _ _ _ _ => exact ⟨fun ⟨hi, ho, hr⟩ => ⟨hi, Memory.wf_put_none _ _ _ ho, hr⟩, id⟩
  | lit d _ _ _ _ _ =>
    exact ⟨fun ⟨hi, ho, hr⟩ => ⟨hi, Memory.wf_put_none _ _ _ ho, Memory.wf_putFilled _ _ _ _ hr⟩,
      Memory.bounded_putFilled _ _ _ _ _ s.lz.rp.isLt⟩
  | ref n a _ _ _ _ =>
    obtain ⟨hout, hring, hspace, hframe⟩ := lzCopy_keeps n a
      { s.lz with ip := s.lz.ip + 2, blkUsed := s.lz.blkUsed + 2, ctlK := s.lz.ctlK + 1 }
    rw [hframe]
    exact ⟨fun ⟨hi, ho, hr⟩ => ⟨hi, hout ho, hring hr⟩, hspace⟩
  | _ => exact ⟨id, id⟩

/-- A step of ACU's run keeps its memories canonical. -/
theorem auStepKind_keeps_canonical (s : State) (u : Acu) (h : AuStepKind s u) (hs : AuCanonical s.au) :
    AuCanonical u := by
  obtain ⟨hi, hp, hb, hw⟩ := hs
  cases h with
  | headerRaise f n _ _ _ => exact ⟨hi, hp, hb, hw⟩
  | header v a b d l r _ _ =>
    rcases headerCheck_cases v
        { advance 112 s.au with samples := a, chStored := b, rate := d, level := l, rows := r } with
      ⟨f, ch, he⟩ | ⟨ch, _, _, _, he⟩ <;> rw [he]
    · exact ⟨hi, hp, hb, hw⟩
    · exact ⟨hi, hp, hb, Memory.wf_zeros _ _⟩
  | truncated n _ _ => exact ⟨hi, hp, Memory.wf_nil _, hw⟩
  | block p sc _ _ => exact ⟨hi, hp, Memory.wf_nil _, hw⟩
  | bad sel _ _ => exact ⟨hi, hp, hb, hw⟩
  | zero sel _ _ _ =>
    rw [putRaws_eq]
    exact ⟨hi, hp, (putRaws_keeps _ _).1 hb, hw⟩
  | sel sel _ _ _ _ =>
    rw [closeSubband_eq]
    exact ⟨hi, hp, hb, hw⟩
  | word n raws _ _ _ _ _ _ =>
    rw [closeSubband_eq, putRaws_eq]
    exact ⟨hi, hp, (putRaws_keeps _ _).1 hb, hw⟩
  | index n _ _ _ => exact ⟨hi, hp, hb, hw⟩
  | merge _ =>
    obtain ⟨hblock, hwrap⟩ := wrapMerge_kept s.cfg s.au
    rw [wrapMerge_eq]
    exact ⟨hi, hp, hblock.wf hb, hwrap.wf hw⟩
  | output _ => exact ⟨hi, deliver_wf _ _ _ _ _ _ hp, hb, hw⟩

/-- While the header is parsed no cell of `BLOCK` or `WRAP` is listed, so that its sizes can be written. -/
theorem AuInv.header_memories {c : Config} {u : Acu} (h : AuInv c u) (hb : u.status = .busy) (hp : u.phase = .header) :
    u.block = [] ∧ u.wrap = [] := by
  obtain ⟨_, _, _, _, _, hbusy, _⟩ := h
  have hplace := hbusy hb
  simp only [hp] at hplace
  obtain ⟨_, _, hblock, hwrap⟩ := hplace
  exact ⟨hblock, hwrap⟩

/-- A step of ACU's run keeps `BLOCK` and `WRAP` inside their spaces: only a header changes the sizes, with both empty, and a
sample goes to a slot of a column that exists. -/
theorem auStepKind_keeps_inSpace (s : State) (u : Acu) (hbusy : s.au.status = .busy) (hinv : AuInv s.cfg s.au)
    (h : AuStepKind s u) (hs : AuInSpace s.au) : AuInSpace u := by
  obtain ⟨hb, hw⟩ := hs
  cases h with
  | headerRaise f n _ _ _ => exact ⟨hb, hw⟩
  | header v a b d l r hp _ =>
    obtain ⟨hblock, hwrap⟩ := hinv.header_memories hbusy hp
    have hblock_lt (n : Nat) : ∀ c ∈ s.au.block, c.1 < n := by rw [hblock]; nofun
    have hwrap_lt (n : Nat) : ∀ c ∈ s.au.wrap, c.1 < n := by rw [hwrap]; nofun
    rcases headerCheck_cases v
        { advance 112 s.au with samples := a, chStored := b, rate := d, level := l, rows := r } with
      ⟨f, ch, he⟩ | ⟨ch, _, _, _, he⟩ <;> rw [he]
    · exact ⟨hblock_lt _, hwrap_lt _⟩
    · exact ⟨hblock_lt _, Memory.zeros_inSpace _⟩
  | truncated n _ _ => exact ⟨nofun, hw⟩
  | block p sc _ _ => exact ⟨nofun, hw⟩
  | bad sel _ _ => exact ⟨hb, hw⟩
  | zero sel _ _ hc =>
    rw [putRaws_eq]
    exact ⟨(putRaws_keeps _ { advance 5 s.au with sel := sel, row := 0 }).2 hc hb, hw⟩
  | sel sel _ _ _ _ =>
    rw [closeSubband_eq]
    exact ⟨hb, hw⟩
  | word n raws _ _ _ _ hc _ =>
    rw [closeSubband_eq, putRaws_eq]
    exact ⟨(putRaws_keeps raws (advance n s.au)).2 hc hb, hw⟩
  | index n _ _ _ => exact ⟨hb, hw⟩
  | merge _ =>
    obtain ⟨hblock, hwrap⟩ := wrapMerge_kept s.cfg s.au
    rw [wrapMerge_eq]
    exact ⟨hblock.bounded hb, hwrap.bounded hw⟩
  | output _ => exact ⟨hb, hw⟩

/-! ### A step -/

/-- Every step keeps LZU's memories. -/
theorem step_keeps_lz_memories (s t : State) (h : step s = .next t) : LzMemoriesKept s.lz t.lz := by
  cases step_kind s t h with
  | reset rest _ => exact lzInitial_kept _ _ _
  | lzRun u _ _ hk => exact lzStepKind_kept s u hk
  | auRun u _ _ _ _ => exact ⟨id, id⟩
  | rest _ _ _ => exact ⟨id, id⟩
  | lzAct a rest u hl hb ho ha _ =>
    rw [step_act s a rest ho hl hb] at h
    exact hostAct_lzu_kept a (s.withOps rest) _ ha h
  | auAct a rest u _ _ _ _ _ => exact ⟨id, id⟩

/-- Every step keeps ACU's memories, in a run inside their spaces where the invariant holds. -/
theorem step_keeps_au_memories (s t : State) (h : step s = .next t) :
    (AuCanonical s.au → AuCanonical t.au) ∧ (AuInv s.cfg s.au → AuInSpace s.au → AuInSpace t.au) := by
  have of_kept (hk : AuMemoriesKept s.au t.au) :
      (AuCanonical s.au → AuCanonical t.au) ∧ (AuInv s.cfg s.au → AuInSpace s.au → AuInSpace t.au) :=
    ⟨hk.canonical, fun _ => hk.inSpace⟩
  cases step_kind s t h with
  | reset rest _ => exact of_kept (auInitial_kept _ _ _ _)
  | lzRun u _ _ _ => exact of_kept ⟨id, id⟩
  | auRun u _ _ hb hk => exact ⟨auStepKind_keeps_canonical s u hk, fun hi => auStepKind_keeps_inSpace s u hb hi hk⟩
  | rest _ _ _ => exact of_kept ⟨id, id⟩
  | lzAct a rest u _ _ _ _ _ => exact of_kept ⟨id, id⟩
  | auAct a rest u hl hb ho ha _ =>
    rw [step_act s a rest ho hl hb] at h
    exact of_kept (hostAct_acu_kept a (s.withOps rest) _ ha h)

/-- Settles O58, from what a step keeps of the memories of each unit. -/
theorem stepKeepsMemories : Obligations.StepKeepsMemories := by
  refine ⟨fun s t hm h => ?_, fun s t hi hm h => ?_⟩
  · obtain ⟨hl, ha⟩ := (memCanonical_iff s).mp hm
    exact (memCanonical_iff t).mpr
      ⟨(step_keeps_lz_memories s t h).canonical hl, (step_keeps_au_memories s t h).1 ha⟩
  · obtain ⟨hl, ha⟩ := (memInBounds_iff s).mp hm
    exact (memInBounds_iff t).mpr
      ⟨(step_keeps_lz_memories s t h).inSpace hl, (step_keeps_au_memories s t h).2 hi ha⟩

end Sys2Proof.Machine

namespace Sys2Proof

/-! ## The LZSS tokens, read back (30_encoding.md R80 to R85) -/

theorem prefixInstr_raw (w : BitVec 16) (h : w.msb = true) : prefixInstr w = .lzRaw w := by
  have hw : w ≠ 0 := by rintro rfl; cases h
  rw [prefixInstr, if_neg hw, if_pos h]

theorem prefixInstr_coded (w : BitVec 16) (hm : w.msb = false) (hw : w ≠ 0) : prefixInstr w = .lzCoded w := by
  rw [prefixInstr, if_neg hw, if_neg (by simp [hm])]

theorem decodeLz_prefixBytes (c : Config) (w : BitVec 16) (rest : List Byte) :
    decodeLz c .blockPrefix (prefixBytes c.prefixOrder w ++ rest) =
      .ok (prefixInstr w) (prefixBytes c.prefixOrder w).length := by
  obtain ⟨b0, b1, hb, hw⟩ := prefixBytes_eq c.prefixOrder w
  rw [hb, ← hw]
  rfl

theorem decodeLz_refBytes (c : Config) (off : BitVec 12) (lenM3 : BitVec 4) (rest : List Byte) :
    decodeLz c (.item false) (refBytes off lenM3 ++ rest) = .ok (.lzRef off lenM3) (refBytes off lenM3).length := by
  obtain ⟨b1, b2, hb, hoff, hlen⟩ := refBytes_eq off lenM3
  rw [hb, ← hoff, ← hlen]
  rfl

/-- The prefix word 0 has the same bytes in either order. -/
theorem prefixBytes_zero (o : ByteOrder) : prefixBytes o 0 = [0, 0] := by cases o <;> rfl

/-- Settles O2, token by token: a prefix and a back-reference by what their bytes give back, the tokens of one byte as
they stand. -/
theorem lzDecodeEncode : Obligations.LzDecodeEncode := by
  intro c i x b rest hw hx hb
  cases i <;> cases hx <;> cases hb
  case lzRaw w =>
    rw [decodeLz_prefixBytes, prefixInstr_raw w hw]
  case lzCoded w =>
    obtain ⟨hm, h0⟩ : w.msb = false ∧ w ≠ 0 := by simpa [Instr.wellFormed] using hw
    rw [decodeLz_prefixBytes, prefixInstr_coded w hm h0]
  case lzZeroPfx =>
    rw [← prefixBytes_zero c.prefixOrder, decodeLz_prefixBytes]
    rfl
  case lzData d => rfl
  case lzCtl d => rfl
  case lzLit d => rfl
  case lzRef off lenM3 => exact decodeLz_refBytes c off lenM3 rest

/-! ## The fields of an audio token, read back (40_bit_reader.md R111) -/

/-- A read of an operand's field. -/
@[simp] theorem readField_operand (o : BitOrder) (n : Nat) (v : BitVec n) (r : List Bool) (u : Nat)
    (next : Nat → List Bool → Nat → Decoded) :
    readField o n (fieldBits o n v.toNat ++ r) u next = next v.toNat r (u + n) :=
  readField_fieldBits o n v.toNat v.isLt r u next

theorem decodeValue_fieldBits (o : BitOrder) (n v : Nat) (hv : v < 2 ^ n) (mk : Nat → Instr) (r : List Bool) (u : Nat) :
    decodeValue o n mk (fieldBits o n v ++ r) u = .ok (mk v) (u + n) :=
  readField_fieldBits o n v hv r u _

@[simp] theorem decodeValue_operand (o : BitOrder) (n : Nat) (v : BitVec n) (mk : Nat → Instr) (r : List Bool) (u : Nat) :
    decodeValue o n mk (fieldBits o n v.toNat ++ r) u = .ok (mk v.toNat) (u + n) :=
  decodeValue_fieldBits o n v.toNat v.isLt mk r u

/-! ## The escapes of the code words, bit by bit (30_encoding.md R90) -/

section
variable (o : BitOrder) (z2 z1 : Instr) (value : List Bool → Nat → Decoded) (r : List Bool)

@[simp] theorem decodeTwoZero_bit0 : decodeTwoZero o z2 z1 value (false :: r) = .ok z2 1 :=
  readField_bit o false r 0 _

@[simp] theorem decodeTwoZero_bits10 : decodeTwoZero o z2 z1 value (true :: false :: r) = .ok z1 2 := by
  simp [decodeTwoZero, readField_bit]

@[simp] theorem decodeTwoZero_bits11 : decodeTwoZero o z2 z1 value (true :: true :: r) = value r 2 := by
  simp [decodeTwoZero, readField_bit]

@[simp] theorem decodeOneZero_bit0 : decodeOneZero o z1 value (false :: r) = .ok z1 1 :=
  readField_bit o false r 0 _

@[simp] theorem decodeOneZero_bit1 : decodeOneZero o z1 value (true :: r) = value r 1 :=
  readField_bit o true r 0 _

variable (near : BitVec 1 → Instr) (far : BitVec 2 → Instr) (u : Nat)

@[simp] theorem decodeTiers_near (v : BitVec 1) :
    decodeTiers o near far (false :: (fieldBits o 1 v.toNat ++ r)) u = .ok (near v) (u + 2) := by
  simp [decodeTiers, readField_bit]

@[simp] theorem decodeTiers_far (v : BitVec 2) :
    decodeTiers o near far (true :: (fieldBits o 2 v.toNat ++ r)) u = .ok (far v) (u + 3) := by
  simp [decodeTiers, readField_bit]

end

/-! ## The audio tokens, read back (30_encoding.md R86 to R90) -/

theorem decodeHeader_headerBits (o : BitOrder) (version : BitVec 8) (samples : BitVec 32) (channels rate : BitVec 16)
    (level : BitVec 4) (rows : BitVec 12) (rest : List Bool) :
    decodeHeader o (headerBits o version samples channels rate level rows ++ rest) =
      .ok (.auHdr version samples channels rate level rows) 112 := by
  have hne : auMagic ≠ auWrapperMagic := by decide
  simp [decodeHeader, headerBits, readField_fieldBits o 24 auMagic (by decide), hne]

theorem decodeHeader_wrapperMagic (o : BitOrder) (rest : List Bool) :
    decodeHeader o (fieldBits o 24 auWrapperMagic ++ rest) = .ok .auHdrWrapper 24 := by
  simp [decodeHeader, readField_fieldBits o 24 auWrapperMagic (by decide)]

theorem decodeBlock_fields (o : BitOrder) (pwr : BitVec 4) (scale : BitVec 16) (rest : List Bool) :
    decodeBlock o (fieldBits o 4 pwr.toNat ++ fieldBits o 16 scale.toNat ++ rest) = .ok (.auBlk pwr scale) 20 := by
  simp [decodeBlock]

theorem decodeSelector_fieldBits (o : BitOrder) (n : Nat) (hn : n < 32) (rest : List Bool) :
    decodeSelector o (fieldBits o 5 n ++ rest) = .ok (selectorInstr n) 5 :=
  readField_fieldBits o 5 n hn rest 0 _

/-- A LINEAR code word, whose width is the selector (43_audio_block_decode.md R178). -/
theorem decodeCode_linear (o : BitOrder) (w : BitVec 5) (v : BitVec 32) (hw : 1 ≤ w.toNat) (hv : v.toNat < 2 ^ w.toNat)
    (rest : List Bool) :
    decodeCode o .linear w (fieldBits o w.toNat v.toNat ++ rest) = .ok (.auLinearV w v) w.toNat := by
  have hw0 : w ≠ 0 := by rintro rfl; cases hw
  unfold decodeCode
  simp only [if_neg hw0, decodeValue_fieldBits o w.toNat v.toNat hv, BitVec.ofNat_toNat, BitVec.setWidth_eq, Nat.zero_add]

/-- Every selector is the five bits of its value (30_encoding.md R89). -/
theorem selector_encoding (c : Config) (i : Instr) (h : contextOf i = .au .selector) :
    ∃ n, encode c i = .bits (fieldBits c.bitOrder 5 n) ∧ n < 32 ∧ selectorInstr n = i := by
  cases i <;> cases h <;> exact ⟨_, rfl, by decide, rfl⟩

section
variable (c : Config) (i : Instr) (b rest : List Bool)

theorem decodeAu_encode_header (hx : contextOf i = .au .header) (hb : encode c i = .bits b) :
    decodeAu c .header (b ++ rest) = .ok i b.length := by
  cases i <;> cases hx <;> cases hb
  case auHdr version samples channels rate level rows =>
    simpa [decodeAu, headerBits] using decodeHeader_headerBits c.bitOrder version samples channels rate level rows rest
  case auHdrWrapper => simpa [decodeAu] using decodeHeader_wrapperMagic c.bitOrder rest

theorem decodeAu_encode_block (hx : contextOf i = .au .block) (hb : encode c i = .bits b) :
    decodeAu c .block (b ++ rest) = .ok i b.length := by
  cases i <;> cases hx; cases hb
  case auBlk pwr scale => simpa [decodeAu] using decodeBlock_fields c.bitOrder pwr scale rest

theorem decodeAu_encode_selector (hx : contextOf i = .au .selector) (hb : encode c i = .bits b) :
    decodeAu c .selector (b ++ rest) = .ok i b.length := by
  obtain ⟨n, hbn, hn, rfl⟩ := selector_encoding c i hx
  cases hbn.symm.trans hb
  rw [length_fieldBits]
  exact decodeSelector_fieldBits c.bitOrder n hn rest

/-- The code words: LINEAR by the width its selector gives it, all others by their escapes and value fields. -/
theorem decodeAu_encode_code (d : Decoder) (sel : BitVec 5) (hw : i.wellFormed = true)
    (hx : contextOf i = .au (.code d sel)) (hb : encode c i = .bits b) :
    decodeAu c (.code d sel) (b ++ rest) = .ok i b.length := by
  cases i <;> cases hx <;> cases hb
  case auLinearV v =>
    obtain ⟨hw1, hv⟩ : 1 ≤ sel.toNat ∧ v.toNat < 2 ^ sel.toNat := by simpa [Instr.wellFormed] using hw
    rw [length_fieldBits]
    exact decodeCode_linear c.bitOrder sel v hw1 hv rest
  all_goals simp [decodeAu, decodeCode]

end

/-- Settles O3, place by place of the grammar. -/
theorem auDecodeEncode : Obligations.AuDecodeEncode := by
  intro c i x b rest hw hx hb
  cases x with
  | header => exact decodeAu_encode_header c i b rest hx hb
  | block => exact decodeAu_encode_block c i b rest hx hb
  | selector => exact decodeAu_encode_selector c i b rest hx hb
  | code d sel => exact decodeAu_encode_code c i b rest d sel hw hx hb

end Sys2Proof

namespace Sys2Proof

/-! ## Words written out, and the command codes -/

/-- Settles O1: each word is the encoding of its instruction, so the round trip decodes it; the command code is looked up. -/
theorem writtenWordsDecode : Obligations.WrittenWordsDecode := by
  have lz (i : Instr) (x : LzCtx) (b : List Byte) (hw : i.wellFormed = true) (hx : contextOf i = .lz x)
      (hb : encode Config.default i = .bytes b) : decodeLz Config.default x b = .ok i b.length := by
    simpa using lzDecodeEncode Config.default i x b [] hw hx hb
  have au (i : Instr) (x : AuCtx) (b : List Bool) (hw : i.wellFormed = true) (hx : contextOf i = .au x)
      (hb : encode Config.default i = .bits b) : decodeAu Config.default x b = .ok i b.length := by
    simpa using auDecodeEncode Config.default i x b [] hw hx hb
  exact ⟨lz _ _ _ rfl rfl rfl, lz _ _ _ rfl rfl rfl, lz _ _ _ rfl rfl rfl, lz _ _ _ rfl rfl rfl,
    au _ _ _ rfl rfl rfl, au _ _ _ rfl rfl rfl, au _ _ _ rfl rfl rfl, au _ _ _ rfl rfl rfl, au _ _ _ rfl rfl rfl, rfl⟩

/-- Settles O5: one row of the table for each branch of the decoder, and back by evaluating each row. -/
theorem commandCodesOfTable : Obligations.CommandCodesOfTable := by
  intro unit code i
  constructor
  · intro h
    have code_eq (n : Byte) (hn : code.toNat = n.toNat) : code = n := BitVec.eq_of_toNat_eq hn
    unfold decodeCommand at h
    split at h <;> cases h
    next hc => simp [code_eq 0x01 hc]
    next hc => simp [code_eq 0x02 hc]
    next hc => simp [code_eq 0x01 hc]
    next hc => simp [code_eq 0x02 hc]
    next hc => simp [code_eq 0x03 hc]
    next hc => simp [code_eq 0x04 hc]
    next hc => simp [code_eq 0x05 hc]
  · rintro (⟨rfl, rfl, rfl⟩ | ⟨rfl, rfl, rfl⟩ | ⟨rfl, rfl, rfl⟩ | ⟨rfl, rfl, rfl⟩ | ⟨rfl, rfl, rfl⟩ | ⟨rfl, rfl, rfl⟩ |
      ⟨rfl, rfl, rfl⟩) <;> rfl

end Sys2Proof

namespace Sys2Proof.Machine

/-! ## What the host's oldest act does -/

theorem finish_hostCommand_legal (unit : UnitId) (code : Byte) (i : Instr) (s : State)
    (h : decodeCommand unit code = .ok i 1) : finish (hostCommand unit code s) = exec i s := by
  simp only [hostCommand, h, finish]

/-- A code that names no command (60_exceptions.md R247). -/
theorem finish_hostCommand_illegal (unit : UnitId) (code : Byte) (s : State)
    (h : ∀ j, decodeCommand unit code ≠ .ok j 1) : finish (hostCommand unit code s) = .next (usageRaised s unit) := by
  rcases decodeCommand_cases unit code with ⟨i, hi⟩ | hr
  · exact absurd hi (h i)
  · cases unit <;> simp only [hostCommand, hr, finish, usageRaised]

/-- Settles O9, act by act: the step is the act's own effect, and a placement reads back as `Memory.find_put` says. -/
theorem stepRunsHostCommand : Obligations.StepRunsHostCommand := by
  intro s code rest i hl hb
  have act (a : HostAct) (ho : s.ops = a :: rest) : step s = finish (hostAct a (s.withOps rest)) :=
    step_act s a rest ho hl hb
  refine ⟨fun ho => ⟨fun hd => ?_, fun hd => ?_⟩, fun ho => ⟨fun hd => ?_, fun hd => ?_⟩, fun v => act _, fun v => act _,
    fun v => act _, fun v => act _, fun a b ho => ?_, fun a b ho => ?_, fun a b ho => ?_, fun a v ho => ?_⟩
  · exact (act _ ho).trans (finish_hostCommand_legal .lzu code i _ hd)
  · exact (act _ ho).trans (finish_hostCommand_illegal .lzu code _ hd)
  · exact (act _ ho).trans (finish_hostCommand_legal .acu code i _ hd)
  · exact (act _ ho).trans (finish_hostCommand_illegal .acu code _ hd)
  · exact ⟨_, act _ ho, fun x => Memory.find_put _ _ x b, rfl⟩
  · exact ⟨_, act _ ho, fun x => Memory.find_put _ _ x b, rfl⟩
  · exact ⟨_, act _ ho, fun x => Memory.find_put _ _ x b, rfl⟩
  · exact ⟨_, act _ ho, fun x => Memory.find_put _ _ x v, rfl⟩

end Sys2Proof.Machine

namespace Sys2Proof.Machine

/-! ## The value of a stretch of bits in both orders (40_bit_reader.md R111) -/

theorem testBit_fieldValue_lsbFirst (f : List Bool) (i : Nat) :
    (fieldValue .lsbFirst f).testBit i = (f[i]?).getD false :=
  testBit_lsbValue f i

theorem testBit_fieldValue_msbFirst (f : List Bool) (i : Nat) (h : i < f.length) :
    (fieldValue .msbFirst f).testBit i = (f[f.length - 1 - i]?).getD false := by
  rw [fieldValue, testBit_lsbValue, List.getElem?_reverse h]

theorem fieldValue_append_lsbFirst (f r : List Bool) :
    fieldValue .lsbFirst (f ++ r) = fieldValue .lsbFirst f + fieldValue .lsbFirst r * 2 ^ f.length :=
  lsbValue_append f r

theorem fieldValue_append_msbFirst (f r : List Bool) :
    fieldValue .msbFirst (f ++ r) = fieldValue .msbFirst f * 2 ^ r.length + fieldValue .msbFirst r := by
  simp only [fieldValue, List.reverse_append, lsbValue_append, List.length_reverse]
  exact Nat.add_comm _ _

/-! ## The bits the reader sees -/

@[simp] theorem auView_advance (n : Nat) (u : Acu) : auView (advance n u) = auView u := rfl

theorem advance_add (n m : Nat) (u : Acu) : advance (n + m) u = advance m (advance n u) := by
  simp only [advance, Nat.add_assoc]

/-- A stream bit depends on its own byte of `IN` only. -/
theorem streamBit_congr (o : BitOrder) (m m' : Memory 8) (p : Nat) (h : auInByte m (p / 8) = auInByte m' (p / 8)) :
    streamBit o m p = streamBit o m' p := by
  cases o <;> simp only [streamBit, h]

/-- A stream bit is that of `IN` as it stands, but for those of the byte the host changed under the cursor. -/
theorem streamBit_auView (o : BitOrder) (u : Acu) (p : Nat) (h : u.changedAt ≠ some (p / 8)) :
    streamBit o (auView u) p = streamBit o u.inp p :=
  streamBit_congr o _ _ p (auInByte_auView u (p / 8) h)

/-- Reading the next `n` bits leaves the bits ahead of the cursor moved on by `n`. -/
theorem splitBits_bitsAhead (o : BitOrder) (n : Nat) (u : Acu) (h : n ≤ bitsLeft u) :
    splitBits n (bitsAhead o u) =
      some (streamBits o (auView u) u.bitpos n, bitsAhead o (advance n u)) := by
  have hsplit := streamBits_add o (auView u) u.bitpos n (bitsLeft u - n)
  rw [Nat.add_sub_cancel' h] at hsplit
  rw [splitBits_eq_some, bitsAhead, bitsAhead, bitsLeft_advance, auView_advance, advance_bitpos]
  exact ⟨hsplit, length_streamBits _ _ _ _⟩

/-! ## One bit read (R112, R113) -/

/-- With enough bits left: the value of the next `n` and the cursor `n` on. -/
theorem bitRead_of_le (o : BitOrder) (n : Nat) (u : Acu) (h1 : 1 ≤ n) (h32 : n ≤ 32)
    (h : u.bitpos + n ≤ 8 * u.inLen) :
    bitRead o n u = .value (fieldValue o (streamBits o (auView u) u.bitpos n)) (advance n u) := by
  have hwidth : ¬ (n < 1 ∨ 32 < n) := by omega
  have hleft : n ≤ bitsLeft u := by unfold bitsLeft; omega
  simp only [bitRead, if_neg hwidth, splitBits_bitsAhead o n u hleft]

/-- With fewer bits left: EndOfInput, and the unit as it was. -/
theorem bitRead_of_lt (o : BitOrder) (n : Nat) (u : Acu) (h1 : 1 ≤ n) (h32 : n ≤ 32)
    (h : 8 * u.inLen < u.bitpos + n) : bitRead o n u = .endOfInput u := by
  have hwidth : ¬ (n < 1 ∨ 32 < n) := by omega
  have hnone : splitBits n (bitsAhead o u) = none := by
    rw [splitBits_eq_none, length_bitsAhead, bitsLeft]; omega
  simp only [bitRead, if_neg hwidth, hnone]

/-- Settles O29: the value is that of the stretch of the stream under the cursor, whose bits are read off order by order. -/
theorem bitReadValue : Obligations.BitReadValue := by
  intro o n u h1 h32
  refine ⟨fun h => ⟨_, bitRead_of_le o n u h1 h32 h, ?_, fun i hi => ?_⟩, bitRead_of_lt o n u h1 h32⟩
  · have hlt := fieldValue_lt o (streamBits o (auView u) u.bitpos n)
    rwa [length_streamBits] at hlt
  · cases o with
    | lsbFirst =>
      intro p hp
      rw [testBit_fieldValue_lsbFirst, getElem?_streamBits _ _ _ _ _ hi, Option.getD_some]
      exact streamBit_auView .lsbFirst u _ hp
    | msbFirst =>
      intro p hp
      have hmirror : n - 1 - i < n := by omega
      have hlen : i < (streamBits .msbFirst (auView u) u.bitpos n).length := by rwa [length_streamBits]
      rw [testBit_fieldValue_msbFirst _ _ hlen, length_streamBits, getElem?_streamBits _ _ _ _ _ hmirror,
        Option.getD_some]
      exact streamBit_auView .msbFirst u _ hp

/-- Settles O30: the stretch of `n + m` bits is the stretch of `n` followed by that of `m`. -/
theorem bitReadSplits : Obligations.BitReadSplits := by
  intro o n m u hn hm hnm h
  have first := bitRead_of_le o n u hn (by omega) (by omega)
  have second := bitRead_of_le o m (advance n u) hm (by omega) (by rw [advance_bitpos, advance_inLen]; omega)
  have whole := bitRead_of_le o (n + m) u (by omega) hnm h
  rw [auView_advance, advance_bitpos] at second
  rw [streamBits_add, advance_add] at whole
  refine ⟨_, _, _, _, first, second, ?_⟩
  cases o with
  | lsbFirst => rw [whole, fieldValue_append_lsbFirst, length_streamBits]
  | msbFirst => rw [whole, fieldValue_append_msbFirst, length_streamBits]

end Sys2Proof.Machine

namespace Sys2Proof.Machine

/-! ## The meanings of the LZSS tokens (41_lzss.md R123 to R130) -/

theorem exec_lzData_room (d : Byte) (s : State) (h : s.lz.op < s.lz.outLen) :
    exec (.lzData d) s = .next (s.withLz { s.lz with
      out := Memory.put s.lz.out s.lz.op d, op := s.lz.op + 1, rawLeft := s.lz.rawLeft - 1 }) := by
  rw [exec, execLzData, lzEmit_room d s.lz h]
  rfl

theorem exec_lzData_full (d : Byte) (s : State) (h : s.lz.outLen ≤ s.lz.op) :
    exec (.lzData d) s = .next (s.withLz (lzRaise .outputOverflow s.lz)) := by
  rw [exec, execLzData, lzEmit_full d s.lz h]
  rfl

theorem exec_lzLit_room (d : Byte) (s : State) (h : s.lz.op < s.lz.outLen) :
    exec (.lzLit d) s = .next (s.withLz { s.lz with
      out := Memory.put s.lz.out s.lz.op d, op := s.lz.op + 1
      ring := ringWrite s.lz.ring s.lz.rp d, rp := s.lz.rp + 1 }) := by
  rw [exec, execLzLit, lzEmit_room d s.lz h]
  rfl

theorem exec_lzLit_full (d : Byte) (s : State) (h : s.lz.outLen ≤ s.lz.op) :
    exec (.lzLit d) s = .next (s.withLz (lzRaise .outputOverflow s.lz)) := by
  rw [exec, execLzLit, lzEmit_full d s.lz h]
  rfl

theorem exec_lzRef (off : BitVec 12) (lenM3 : BitVec 4) (s : State) :
    exec (.lzRef off lenM3) s = .next (s.withLz (settle (lzCopy (lenM3.toNat + 3) off s.lz))) := rfl

/-- The magnitude in closed form (R133): 0x8000 gives 0x8000. -/
theorem rawMagnitude_eq (w : BitVec 16) : rawMagnitude w = BitVec.ofNat 16 (65536 - w.toNat) :=
  BitVec.eq_of_toNat_eq (by rw [rawMagnitude, BitVec.toNat_neg, BitVec.toNat_ofNat])

theorem toNat_rawMagnitude (w : BitVec 16) (h : w.msb = true) : (rawMagnitude w).toNat = 65536 - w.toNat := by
  have hw : 2 ^ 16 ≤ 2 * w.toNat := BitVec.msb_eq_true_iff_two_mul_ge.mp h
  rw [rawMagnitude_eq, BitVec.toNat_ofNat]
  omega

/-- TRIM is the only flag there is. -/
theorem setTrim_eq_one (flags : BitVec 1) : setTrim flags = 1 := by
  revert flags
  decide

/-- Settles O13: the magnitude is the one that R123 computes, and TRIM fills `LZ_FLAGS`. -/
theorem rawPrefixOpensBlock : Obligations.RawPrefixOpensBlock := by
  intro w s hw n left
  rw [exec, execLzRaw, toNat_rawMagnitude w hw, rawMagnitude_eq, setTrim_eq_one]

/-- Settles O14: a `RING` with nothing listed reads as 0x20 everywhere. -/
theorem codedPrefixResetsDictionary : Obligations.CodedPrefixResetsDictionary :=
  fun _ _ => ⟨_, rfl, ringCell_nil, rfl⟩

/-- Settles O15, reading by reading of `LZ_ZERO_PREFIX`. -/
theorem zeroPrefixFaultsOrSkips : Obligations.ZeroPrefixFaultsOrSkips := by
  intro s
  constructor
  · intro hz
    rw [exec, execLzZeroPfx, hz]
    rfl
  · intro hz
    rw [exec, execLzZeroPfx, hz]

/-- Settles O16. -/
theorem rawByteGoesToOut : Obligations.RawByteGoesToOut := fun d s h =>
  ⟨_, exec_lzData_room d s h, Memory.find_put_same _ _ _, fun _ ha => Memory.find_put_other _ _ _ _ ha, rfl⟩

/-- Settles O17. -/
theorem controlByteOpensGroup : Obligations.ControlByteOpensGroup := fun _ _ => rfl

/-- Settles O18. -/
theorem literalGoesToOutAndRing : Obligations.LiteralGoesToOutAndRing := by
  intro d s h
  refine ⟨_, exec_lzLit_room d s h, Memory.find_put_same _ _ _, fun a ha => Memory.find_put_other _ _ _ _ ha, ?_,
    fun a ha => ?_, BitVec.toNat_add _ _, rfl⟩
  · exact (ringCell_ringWrite _ _ _ _).trans (if_pos rfl)
  · exact (ringCell_ringWrite _ _ _ _).trans (if_neg ha)

/-- Settles O20: the byte that does not fit is the first that each of the three tokens produces. -/
theorem outputOverflowFaults : Obligations.OutputOverflowFaults := by
  intro d off lenM3 s h t
  refine ⟨exec_lzData_full d s h, exec_lzLit_full d s h, ?_⟩
  rw [exec_lzRef, lzCopy_full _ _ _ h]
  rfl

/-! ## A copy that does not fit -/

/-- A copy whose first `m` bytes complete the output raises at the next (41_lzss.md R129, R130). -/
theorem lzCopy_overflow (m n : Nat) (a : BitVec 12) (u t : Lzu) (hc : lzCopy m a u = .ok t) (ht : t.outLen ≤ t.op)
    (hn : m < n) : lzCopy n a u = .error (lzRaise .outputOverflow t) := by
  obtain ⟨k, rfl⟩ : ∃ k, n = m + (k + 1) := ⟨n - m - 1, by omega⟩
  rw [lzCopy_add, hc]
  exact lzCopy_full k _ _ ht

/-- Settles O21: the bytes that fit are a copy of their own, and the next byte raises. -/
theorem referenceOverflowsInsideCopy : Obligations.ReferenceOverflowsInsideCopy := by
  intro off lenM3 s hop room hroom
  have hfull : s.lz.op + room = s.lz.outLen := by omega
  have hlen : room ≤ 4096 := by have := lenM3.isLt; omega
  obtain ⟨out, ring, hc, hout⟩ := lzCopy_fits room off s.lz hfull.le
  have hcopied := lzCopy_copied room off s.lz _ hlen hfull.le hc
  have hexec := exec_lzRef off lenM3 s
  rw [lzCopy_overflow room _ off s.lz _ hc hfull.ge hroom, hfull] at hexec
  rw [hfull] at hout
  exact ⟨_, hexec, hcopied.byte, hout, hcopied.pushed, hcopied.kept, rfl⟩

/-! ## The commands -/

theorem exec_lzStart (s : State) (h : s.lz.status ≠ .busy) : exec .lzStart s = .next (s.withLz (lzBegin s.lz)) := by
  rw [exec, execLzStart, if_neg h]

theorem exec_lzReset (s : State) (h : s.lz.status ≠ .busy) :
    exec .lzReset s = .next (s.withLz (lzResetUnit s.lz)) := by
  rw [exec, execLzReset, if_neg h]

/-- Settles O25. -/
theorem lzStartBeginsRun : Obligations.LzStartBeginsRun := exec_lzStart

/-- Settles O26. -/
theorem lzResetClears : Obligations.LzResetClears := fun s h =>
  ⟨_, exec_lzReset s h, rfl, rfl, rfl, rfl, rfl, rfl, rfl, rfl, rfl, rfl, rfl, rfl, rfl, rfl, rfl⟩

/-! ## The branches of LZU's fetch (41_lzss.md R122, R126, R127) -/

theorem lzNext_rawData (s : State) (hp : s.lz.phase = .top) (hl : s.lz.rawLeft ≠ 0) :
    lzNext s = lzToken .rawData false 1 s s.lz := by
  rw [lzNext_top s hp, lzTop, if_pos hl]

theorem lzNext_complete (s : State) (hp : s.lz.phase = .top) (hl : s.lz.rawLeft = 0) (ho : s.lz.op = s.lz.outLen) :
    lzNext s = .done (s.withLz { s.lz with status := .done }) := by
  rw [lzNext_top s hp, lzTop, if_neg (not_not.mpr hl), if_pos ho]

theorem lzNext_blockPrefix_short (s : State) (hp : s.lz.phase = .top) (hl : s.lz.rawLeft = 0)
    (ho : s.lz.op ≠ s.lz.outLen) (hi : s.lz.inLen < s.lz.ip + 2) :
    lzNext s = .done (s.withLz (lzRaise .inputExhausted s.lz)) := by
  rw [lzNext_top s hp, lzTop, if_neg (not_not.mpr hl), if_neg ho, if_pos (by omega)]

theorem lzNext_blockPrefix (s : State) (hp : s.lz.phase = .top) (hl : s.lz.rawLeft = 0) (ho : s.lz.op ≠ s.lz.outLen)
    (hi : s.lz.ip + 2 ≤ s.lz.inLen) : lzNext s = lzToken .blockPrefix false 2 s s.lz := by
  rw [lzNext_top s hp, lzTop, if_neg (not_not.mpr hl), if_neg ho, if_neg (by omega)]

/-- The end of the block is looked for in GROUP and in ITEM (R131). -/
theorem lzNext_blockEnd (s : State) (hp : s.lz.phase ≠ .top) (hu : s.lz.blkUsed = s.lz.blkLen) :
    lzNext s = .done (s.withLz { s.lz with phase := .top }) := by
  cases hq : s.lz.phase with
  | top => exact absurd hq hp
  | group => rw [lzNext_group s hq, lzGroup, if_pos hu]
  | item => rw [lzNext_item s hq, lzItem, if_pos hu]

theorem lzNext_control (s : State) (hp : s.lz.phase = .group) (hu : s.lz.blkUsed ≠ s.lz.blkLen) :
    lzNext s = lzToken .control true 1 s s.lz := by
  rw [lzNext_group s hp, lzGroup, if_neg hu]

theorem lzNext_groupEnd (s : State) (hp : s.lz.phase = .item) (hu : s.lz.blkUsed ≠ s.lz.blkLen) (hk : s.lz.ctlK = 8) :
    lzNext s = .done (s.withLz { s.lz with phase := .group }) := by
  rw [lzNext_item s hp, lzItem, if_neg hu, if_pos hk]

theorem lzNext_literal (s : State) (hp : s.lz.phase = .item) (hu : s.lz.blkUsed ≠ s.lz.blkLen) (hk : s.lz.ctlK ≠ 8)
    (hc : controlBit s.cfg.flagOrder s.lz.ctl s.lz.ctlK = true) :
    lzNext s = lzToken (.item true) true 1 s { s.lz with ctlK := s.lz.ctlK + 1 } := by
  rw [lzNext_item s hp, lzItem_item s hu hk, if_pos hc]

theorem lzNext_reference (s : State) (hp : s.lz.phase = .item) (hu : s.lz.blkUsed ≠ s.lz.blkLen)
    (hk : s.lz.ctlK ≠ 8) (hc : controlBit s.cfg.flagOrder s.lz.ctl s.lz.ctlK = false) :
    lzNext s = lzToken (.item false) true 2 s { s.lz with ctlK := s.lz.ctlK + 1 } := by
  rw [lzNext_item s hp, lzItem_item s hu hk, if_neg (by simp [hc])]

/-- A block that declares more than it has used is not at its end. -/
theorem blkUsed_ne_blkLen (u : Lzu) (h : u.blkUsed.toNat < u.blkLen.toNat) : u.blkUsed ≠ u.blkLen :=
  fun he => h.ne (congrArg BitVec.toNat he)

/-! ## Tokens that the input or the block cuts short (41_lzss.md R121; 60_exceptions.md R249) -/

/-- With no byte left a token of any length raises LZ_INPUT_EXHAUSTED at once. -/
theorem lzToken_exhausted (x : LzCtx) (coded : Bool) (n : Nat) (s : State) (u : Lzu)
    (hb : coded = true → u.blkUsed.toNat < u.blkLen.toNat) (hi : u.inLen ≤ u.ip) :
    lzToken x coded (n + 1) s u = .done (s.withLz (lzRaise .inputExhausted u)) :=
  lzToken_error x coded (n + 1) s u _ (by rw [lzFetchMany, lzFetch_exhausted coded u hb hi])

/-- A token of a coded block whose first byte is there faults where the fetch of its second byte does. -/
theorem lzToken_second_error (x : LzCtx) (s : State) (u v : Lzu) (hb : u.blkUsed.toNat < u.blkLen.toNat)
    (hi : u.ip < u.inLen) (h : lzFetch true { u with ip := u.ip + 1, blkUsed := u.blkUsed + 1 } = .error v) :
    lzToken x true 2 s u = .done (s.withLz v) := by
  refine lzToken_error x true 2 s u v ?_
  rw [lzFetchMany, lzFetch_ok true u (fun _ => hb) hi]
  simp only [if_true, lzFetchMany, h]

/-! ## The steps of a BUSY LZU, place by place -/

theorem step_lz_run (s t : State) (i : Instr) (hr : resetPending s.ops = false) (hb : s.lz.status = .busy)
    (h : lzNext s = .run i t) : step s = exec i t :=
  step_run s t i ((fetch_lz s hr hb).trans h)

theorem step_lz_done (s t : State) (hr : resetPending s.ops = false) (hb : s.lz.status = .busy)
    (h : lzNext s = .done t) : step s = .next t :=
  step_done s t ((fetch_lz s hr hb).trans h)

/-- Settles O7, place by place: the branch of the fetch, and the token of one or two bytes that it reads. -/
theorem stepRunsLzToken : Obligations.StepRunsLzToken := by
  intro s i hr hb ip b0 b1 used
  have runs (t : State) (h : lzNext s = .run i t) : step s = exec i t := step_lz_run s t i hr hb h
  refine ⟨fun hp hl ho hi hd => runs _ ?_, fun hp hl hi hd => runs _ ?_, fun hp hu hi hd => runs _ ?_,
    fun hp hu hi hk hc hd => runs _ ?_, fun hp hu hi hk hc hd => runs _ ?_⟩
  · rw [lzNext_blockPrefix s hp hl ho hi]
    exact lzToken_two _ false s s.lz i 2 nofun hi hd
  · rw [lzNext_rawData s hp hl]
    exact lzToken_one _ false s s.lz i 1 nofun hi hd
  · rw [lzNext_control s hp (blkUsed_ne_blkLen _ hu)]
    exact lzToken_one _ true s s.lz i 1 (fun _ => hu) hi hd
  · rw [lzNext_literal s hp (blkUsed_ne_blkLen _ hu) hk hc]
    exact lzToken_one _ true s _ i 1 (fun _ => hu) hi hd
  · rw [lzNext_reference s hp (blkUsed_ne_blkLen _ (by omega)) hk hc]
    exact lzToken_two _ true s _ i 2 (fun _ => hu) hi hd

/-- Settles O22, test by test of GROUP. -/
theorem groupStep : Obligations.GroupStep := by
  intro s hr hb hp
  refine ⟨fun hu => step_lz_done s _ hr hb (lzNext_blockEnd s (by simp [hp]) hu), fun hu hi => ?_, fun hu hi => ?_⟩
  · have hrun := (lzNext_control s hp (blkUsed_ne_blkLen _ hu)).trans
      (lzToken_one _ true s s.lz (.lzCtl _) 1 (fun _ => hu) hi rfl)
    exact step_lz_run s _ _ hr hb hrun
  · have hdone := (lzNext_control s hp (blkUsed_ne_blkLen _ hu)).trans
      (lzToken_exhausted _ true 0 s s.lz (fun _ => hu) hi)
    exact step_lz_done s _ hr hb hdone

/-- An item with no byte of `IN` left, literal or back-reference. -/
theorem lzNext_item_exhausted (s : State) (hp : s.lz.phase = .item) (hu : s.lz.blkUsed.toNat < s.lz.blkLen.toNat)
    (hk : s.lz.ctlK ≠ 8) (hi : s.lz.inLen ≤ s.lz.ip) :
    lzNext s = .done (s.withLz (lzRaise .inputExhausted { s.lz with ctlK := s.lz.ctlK + 1 })) := by
  cases hc : controlBit s.cfg.flagOrder s.lz.ctl s.lz.ctlK with
  | true =>
    rw [lzNext_literal s hp (blkUsed_ne_blkLen _ hu) hk hc]
    exact lzToken_exhausted _ true 0 s _ (fun _ => hu) hi
  | false =>
    rw [lzNext_reference s hp (blkUsed_ne_blkLen _ hu) hk hc]
    exact lzToken_exhausted _ true 1 s _ (fun _ => hu) hi

/-- LZU past the first byte of an item (41_lzss.md R121, R127). -/
def itemByteRead (u : Lzu) : Lzu := { u with ip := u.ip + 1, blkUsed := u.blkUsed + 1, ctlK := u.ctlK + 1 }

/-- Inside a block the count goes up by one without going round. -/
theorem itemByteRead_used (u : Lzu) (h : u.blkUsed.toNat < u.blkLen.toNat) :
    (itemByteRead u).blkUsed.toNat = u.blkUsed.toNat + 1 := by
  have := u.blkLen.isLt
  unfold itemByteRead
  bv_omega

/-- A back-reference whose first byte is there faults past it, where the fetch of its second byte does. -/
theorem lzNext_reference_cut (s : State) (f : LzCause) (hp : s.lz.phase = .item)
    (hu : s.lz.blkUsed.toNat < s.lz.blkLen.toNat) (hk : s.lz.ctlK ≠ 8)
    (hc : controlBit s.cfg.flagOrder s.lz.ctl s.lz.ctlK = false) (hi : s.lz.ip < s.lz.inLen)
    (hf : lzFetch true (itemByteRead s.lz) = .error (lzRaise f (itemByteRead s.lz))) :
    lzNext s = .done (s.withLz (lzRaise f (itemByteRead s.lz))) := by
  rw [lzNext_reference s hp (blkUsed_ne_blkLen _ hu) hk hc]
  exact lzToken_second_error _ s _ _ hu hi hf

/-- Settles O23, test by test of TOP and of ITEM. -/
theorem topAndItemStepsWithoutToken : Obligations.TopAndItemStepsWithoutToken := by
  intro s hr hb
  have answers (t : State) (h : lzNext s = .done t) : step s = .next t := step_lz_done s t hr hb h
  refine ⟨fun hp hl => ⟨fun ho => ?_, fun ho hi => ?_⟩,
    fun hp => ⟨fun hu => ?_, fun hu hk => ?_, fun hu hk hi => ?_, fun hu hk hc hi => ?_⟩⟩
  · exact answers _ (lzNext_complete s hp hl ho)
  · exact answers _ (lzNext_blockPrefix_short s hp hl ho hi)
  · exact answers _ (lzNext_blockEnd s (by simp [hp]) hu)
  · exact answers _ (lzNext_groupEnd s hp hu hk)
  · exact answers _ (lzNext_item_exhausted s hp hu hk hi)
  · have hu1 : s.lz.blkUsed.toNat < s.lz.blkLen.toNat := by omega
    have hused : (itemByteRead s.lz).blkUsed.toNat < s.lz.blkLen.toNat := by
      rw [itemByteRead_used _ hu1]
      exact hu
    exact answers _ (lzNext_reference_cut s .inputExhausted hp hu1 hk hc hi.le
      (lzFetch_exhausted true _ (fun _ => hused) hi.ge))

/-- Settles O24: the second fetch tests the block's count before the end of `IN`. -/
theorem cutReferenceOverrunsBlock : Obligations.CutReferenceOverrunsBlock := by
  intro s hr hb hp hk hc hu hi
  have hu1 : s.lz.blkUsed.toNat < s.lz.blkLen.toNat := by omega
  have hused : s.lz.blkLen.toNat ≤ (itemByteRead s.lz).blkUsed.toNat := by
    rw [itemByteRead_used _ hu1]
    exact hu.ge
  exact step_lz_done s _ hr hb
    (lzNext_reference_cut s .blockOverrun hp hu1 hk hc hi (lzFetch_overrun _ hused))

/-! ## Runs of LZU (41_lzss.md R120, R132) -/

/-- A copy, whether it fits or not, writes no cell of `OUT` at or past `LZ_OUT_LEN` (20_memory.md R51), and leaves LZU
running or in FAULT. -/
theorem settle_lzCopy_cases (n : Nat) (a : BitVec 12) (u : Lzu) :
    ∃ out op ring rp, (∀ x, u.outLen ≤ x → Memory.find out x = Memory.find u.out x) ∧
      (settle (lzCopy n a u) = { u with out := out, op := op, ring := ring, rp := rp } ∨
        settle (lzCopy n a u) =
          lzRaise .outputOverflow { u with out := out, op := op, ring := ring, rp := rp }) := by
  induction n generalizing a u with
  | zero => exact ⟨u.out, u.op, u.ring, u.rp, fun _ _ => rfl, .inl rfl⟩
  | succ n ih =>
    by_cases h : u.op < u.outLen
    · rw [lzCopy_succ n a u h]
      obtain ⟨out, op, ring, rp, hout, hc⟩ := ih (a + 1) { u with
        out := Memory.put u.out u.op (ringCell u.ring a), op := u.op + 1
        ring := ringWrite u.ring u.rp (ringCell u.ring a), rp := u.rp + 1 }
      exact ⟨out, op, ring, rp,
        fun x hx => (hout x hx).trans (Memory.find_put_other _ _ _ _ (h.trans_le hx).ne'), hc⟩
    · rw [lzCopy_full n a u (by omega)]
      exact ⟨u.out, u.op, u.ring, u.rp, fun _ _ => rfl, .inr rfl⟩

/-- A step of LZU ends DONE only with the output complete. -/
theorem lzStepKind_done_complete (s : State) (u : Lzu) (hb : s.lz.status = .busy) (hk : LzStepKind s u)
    (hd : u.status = .done) : u.op = u.outLen := by
  have hne : s.lz.status ≠ .done := by simp [hb]
  cases hk with
  | done _ _ ho => exact ho
  | raise f v _ _ _ _ => cases hd
  | ref n a _ _ _ _ =>
    obtain ⟨out, op, ring, rp, _, hc | hc⟩ := settle_lzCopy_cases n a
      { s.lz with ip := s.lz.ip + 2, blkUsed := s.lz.blkUsed + 2, ctlK := s.lz.ctlK + 1 }
    · rw [hc] at hd
      exact absurd hd hne
    · rw [hc] at hd
      cases hd
  | _ => exact absurd hd hne

/-- A step of LZU leaves `OUT` at and past `LZ_OUT_LEN` as it was (20_memory.md R51). -/
theorem lzStepKind_out_beyond (s : State) (u : Lzu) (hk : LzStepKind s u) (a : Nat) (ha : s.lz.outLen ≤ a) :
    Memory.find u.out a = Memory.find s.lz.out a := by
  cases hk with
  | raise f v _ hv _ _ => rw [hv]; rfl
  | data d _ _ _ ho => exact Memory.find_put_other _ _ _ _ (ho.trans_le ha).ne'
  | lit d _ _ _ _ ho => exact Memory.find_put_other _ _ _ _ (ho.trans_le ha).ne'
  | ref n b _ _ _ _ =>
    obtain ⟨out, op, ring, rp, hout, hc | hc⟩ := settle_lzCopy_cases n b
      { s.lz with ip := s.lz.ip + 2, blkUsed := s.lz.blkUsed + 2, ctlK := s.lz.ctlK + 1 }
    · rw [hc]
      exact hout a ha
    · rw [hc]
      exact hout a ha
  | _ => rfl

/-- Settles O27, by the kinds of step of a BUSY LZU. -/
theorem doneOnlyWhenOutputComplete : Obligations.DoneOnlyWhenOutputComplete := by
  intro s t hr hb h
  obtain ⟨u, hu, hk⟩ := lz_step_cases s hr hb
  obtain rfl := Host.Outcome.next.inj (h.symm.trans hu)
  obtain ⟨_, hout, _⟩ := lzStepKind_keeps_inputs s u hk
  exact ⟨lzStepKind_done_complete s u hb hk, hout, lzStepKind_out_beyond s u hk⟩

/-- The order of the places is worth less than a byte of input. -/
theorem lzMeasure_bounds (u : Lzu) :
    4 * (u.inLen - u.ip) ≤ lzMeasure u ∧ lzMeasure u < 4 * (u.inLen - u.ip) + 4 := by
  unfold lzMeasure
  cases u.phase <;> simp

/-- A step that reads at least one byte lowers the measure, whatever the place it goes to. -/
theorem lzMeasure_lt_of_ip (u v : Lzu) (hlen : v.inLen = u.inLen) (hip : u.ip < v.ip) (hle : v.ip ≤ v.inLen) :
    lzMeasure v < lzMeasure u := by
  have hu := lzMeasure_bounds u
  have hv := lzMeasure_bounds v
  omega

/-- A step of LZU ends the run, or leaves it running with a smaller measure (70_reset_and_hazards.md R286). -/
theorem lzStepKind_ends_or_lowers (s : State) (u : Lzu) (hb : s.lz.status = .busy) (hk : LzStepKind s u) :
    (u.status = .done ∨ u.status = .fault) ∨ (u.status = .busy ∧ lzMeasure u < lzMeasure s.lz) := by
  cases hk with
  | done _ _ _ => exact .inl (.inl rfl)
  | raise f v _ _ _ _ => exact .inl (.inr rfl)
  | blockEnd hp _ =>
    refine .inr ⟨hb, ?_⟩
    cases hq : s.lz.phase with
    | top => exact absurd hq hp
    | group => simp [lzMeasure, hq]
    | item => simp [lzMeasure, hq]
  | groupEnd hp _ => exact .inr ⟨hb, by simp [lzMeasure, hp]⟩
  | raw w _ _ hi => exact .inr ⟨hb, lzMeasure_lt_of_ip _ _ rfl (by simp) hi⟩
  | skip _ _ hi => exact .inr ⟨hb, lzMeasure_lt_of_ip _ _ rfl (by simp) hi⟩
  | coded w _ _ _ hi => exact .inr ⟨hb, lzMeasure_lt_of_ip _ _ rfl (by simp) hi⟩
  | data d _ _ hi _ => exact .inr ⟨hb, lzMeasure_lt_of_ip _ _ rfl (by simp) hi⟩
  | ctl d _ hi _ => exact .inr ⟨hb, lzMeasure_lt_of_ip _ _ rfl (by simp) hi⟩
  | lit d _ hi _ _ _ => exact .inr ⟨hb, lzMeasure_lt_of_ip _ _ rfl (by simp) hi⟩
  | ref n a _ hi _ _ =>
    obtain ⟨out, op, ring, rp, _, hc | hc⟩ := settle_lzCopy_cases n a
      { s.lz with ip := s.lz.ip + 2, blkUsed := s.lz.blkUsed + 2, ctlK := s.lz.ctlK + 1 }
    · rw [hc]
      exact .inr ⟨hb, lzMeasure_lt_of_ip _ _ rfl (by simp) hi⟩
    · rw [hc]
      exact .inl (.inr rfl)

/-- A run whose first step answers goes on from there. -/
theorem core_run_succ (n : Nat) (s t : State) (h : step s = .next t) :
    Host.Core.run Sys2Proof.core (n + 1) s = Host.Core.run Sys2Proof.core n t := by
  have hstep : Sys2Proof.core.step s = .next t := h
  simp only [Host.Core.run, hstep]

/-- Settles O28, by strong induction on the measure: a step either ends the run, or leads to a BUSY LZU with a smaller
measure. -/
theorem lzRunEnds : Obligations.LzRunEnds := by
  intro s
  induction hm : lzMeasure s.lz using Nat.strong_induction_on generalizing s with
  | _ m ih =>
    intro hr hb
    obtain ⟨u, hu, hk⟩ := lz_step_cases s hr hb
    rcases lzStepKind_ends_or_lowers s u hb hk with hend | ⟨hbusy, hlt⟩
    · exact ⟨1, s.withLz u, by omega, core_run_succ 0 s _ hu, hend⟩
    · obtain ⟨n, t, hn, hrun, hend⟩ := ih (lzMeasure u) (hm ▸ hlt) (s.withLz u) rfl hr hbusy
      exact ⟨n + 1, t, by omega, (core_run_succ n s _ hu).trans hrun, hend⟩

end Sys2Proof.Machine

namespace Sys2Proof

/-! ## One read of a token, by the bits that are left (40_bit_reader.md R112, R113) -/

theorem readField_of_le (o : BitOrder) (n : Nat) (bits : List Bool) (u : Nat) (next : Nat → List Bool → Nat → Decoded)
    (h : n ≤ bits.length) :
    readField o n bits u next = next (fieldValue o (bits.take n)) (bits.drop n) (u + n) := by
  have hs : splitBits n bits = some (bits.take n, bits.drop n) :=
    (splitBits_eq_some _ _ _ _).mpr ⟨(List.take_append_drop n bits).symm, List.length_take_of_le h⟩
  simp only [readField, hs]

theorem readField_of_lt (o : BitOrder) (n : Nat) (bits : List Bool) (u : Nat) (next : Nat → List Bool → Nat → Decoded)
    (h : bits.length < n) : readField o n bits u next = .short u := by
  simp only [readField, (splitBits_eq_none n bits).mpr h]

/-- The two ends of one read in a chain of reads: what the whole answers is `D` if `D` is the input's end at this field when
the bits run out in it, and what the rest of the chain answers otherwise. -/
theorem readField_eq_of (o : BitOrder) (n : Nat) (bits : List Bool) (u : Nat) (next : Nat → List Bool → Nat → Decoded)
    (D : Decoded) (hshort : bits.length < n → D = .short u)
    (hread : n ≤ bits.length → ∀ v, next v (bits.drop n) (u + n) = D) : readField o n bits u next = D := by
  rcases Nat.lt_or_ge bits.length n with h | h
  · rw [readField_of_lt o n bits u next h, hshort h]
  · rw [readField_of_le o n bits u next h, hread h]

/-! ## The header, by its magic and its length (42_audio_header.md R151 to R153) -/

theorem decodeHeader_noMagic (o : BitOrder) (bits : List Bool) (h : bits.length < 24) :
    decodeHeader o bits = .short 0 :=
  readField_of_lt o 24 bits 0 _ h

theorem decodeHeader_wrapper (o : BitOrder) (bits : List Bool) (h : 24 ≤ bits.length)
    (hm : fieldValue o (bits.take 24) = auWrapperMagic) : decodeHeader o bits = .ok .auHdrWrapper 24 := by
  rw [decodeHeader, readField_of_le o 24 bits 0 _ h, if_pos hm]

theorem decodeHeader_badMagic (o : BitOrder) (bits : List Bool) (h : 24 ≤ bits.length)
    (hm : fieldValue o (bits.take 24) ≠ auMagic) (hw : fieldValue o (bits.take 24) ≠ auWrapperMagic) :
    decodeHeader o bits = .reject .badMagic 24 := by
  rw [decodeHeader, readField_of_le o 24 bits 0 _ h, if_neg hw, if_pos hm]

/-- Where the first field after the magic begins that `left` bits of header do not hold, for fewer than 112 of them: the
fields end at bits 32, 64, 80, 96, 100 and 112 (R153). -/
def headerFieldCut (left : Nat) : Nat :=
  if left < 32 then 24 else if left < 64 then 32 else if left < 80 then 64 else if left < 96 then 80 else
    if left < 100 then 96 else 100

/-- The magic is there and a field after it is not: field by field, either the input ends in it, or the next is read. -/
theorem decodeHeader_truncated (o : BitOrder) (bits : List Bool) (h : 24 ≤ bits.length) (hlt : bits.length < 112)
    (hm : fieldValue o (bits.take 24) = auMagic) : decodeHeader o bits = .short (headerFieldCut bits.length) := by
  have hw : auMagic ≠ auWrapperMagic := by decide
  rw [decodeHeader, readField_of_le o 24 bits 0 _ h, hm, if_neg hw, if_neg (not_not_intro rfl)]
  refine readField_eq_of _ _ _ _ _ _ (fun _ => congrArg Decoded.short ?_) fun _ _ =>
    readField_eq_of _ _ _ _ _ _ (fun _ => congrArg Decoded.short ?_) fun _ _ =>
    readField_eq_of _ _ _ _ _ _ (fun _ => congrArg Decoded.short ?_) fun _ _ =>
    readField_eq_of _ _ _ _ _ _ (fun _ => congrArg Decoded.short ?_) fun _ _ =>
    readField_eq_of _ _ _ _ _ _ (fun _ => congrArg Decoded.short ?_) fun _ _ =>
    readField_eq_of _ _ _ _ _ _ (fun _ => congrArg Decoded.short ?_) fun hle _ =>
      absurd hlt (by simp only [List.length_drop] at hle; omega)
  all_goals
    simp only [List.length_drop, headerFieldCut] at *
    split_ifs <;> omega

end Sys2Proof

namespace Sys2Proof.Machine

/-! ## The steps of a BUSY ACU, place by place -/

theorem auContext_of_place (s : State) (x : AuCtx)
    (h : s.au.phase = .header ∧ x = .header ∨ s.au.phase = .block ∧ x = .block ∨
      s.au.phase = .selector ∧ x = .selector ∨
      s.au.phase = .code ∧ x = .code (decoderOf s.cfg s.au.sel) s.au.sel) : auContext s = some x := by
  rcases h with ⟨hp, rfl⟩ | ⟨hp, rfl⟩ | ⟨hp, rfl⟩ | ⟨hp, rfl⟩ <;> simp only [auContext, hp]

/-- Settles O8: the place fixes the context, and the fetch hands the token over with the cursor past it. -/
theorem stepRunsAuToken : Obligations.StepRunsAuToken := by
  intro s x i n hr hl hb hx hd
  have hnext := auNext_token s x i n (auContext_of_place s x hx) hd
  exact step_run s _ i ((fetch_au s hr hl hb).trans hnext)

theorem auNext_header (s : State) (hp : s.au.phase = .header) : auNext s = auHeader s := by
  rw [auNext, hp]

/-- A header parse that the input cuts short (42_audio_header.md R161). -/
theorem step_header_truncated (s : State) (n : Nat) (hr : resetPending s.ops = false) (hl : s.lz.status ≠ .busy)
    (hb : s.au.status = .busy) (hp : s.au.phase = .header)
    (hd : decodeAu s.cfg .header (bitsAhead s.cfg.bitOrder s.au) = .short n) :
    step s = .next (s.withAu (auRaise .headerTruncated (advance n s.au))) := by
  refine step_done s _ ((fetch_au s hr hl hb).trans ?_)
  rw [auNext_header s hp, auHeader, hd]

/-- A header parse that meets neither magic (R151). -/
theorem step_header_badMagic (s : State) (n : Nat) (hr : resetPending s.ops = false) (hl : s.lz.status ≠ .busy)
    (hb : s.au.status = .busy) (hp : s.au.phase = .header)
    (hd : decodeAu s.cfg .header (bitsAhead s.cfg.bitOrder s.au) = .reject .badMagic n) :
    step s = .next (s.withAu (auRaise .badMagic (advance n s.au))) := by
  refine step_done s _ ((fetch_au s hr hl hb).trans ?_)
  rw [auNext_header s hp, auHeader, hd]

/-! ## Faults of the header parse (42_audio_header.md R151, R152, R161) -/

theorem auRaise_eq (f : AuCause) (u : Acu) (hf : f ≠ .usage) :
    auRaise f u = { u with fault := f.code, faultPos := u.bitpos, status := .fault } := by
  rw [auRaise, if_neg hf]

/-- A fault raised `n` bits past the start of `IN`. -/
theorem auRaise_advance_start (f : AuCause) (n : Nat) (u : Acu) (hf : f ≠ .usage) (hz : u.bitpos = 0) :
    auRaise f (advance n u) = { u with fault := f.code, bitpos := n, faultPos := n, status := .fault } := by
  rw [auRaise_eq f _ hf, advance, hz, Nat.zero_add]

theorem length_bitsAhead_start (o : BitOrder) (u : Acu) (hz : u.bitpos = 0) :
    (bitsAhead o u).length = 8 * u.inLen := by
  rw [length_bitsAhead, bitsLeft, hz, Nat.sub_zero]

theorem exec_auHdrWrapper (s : State) : exec .auHdrWrapper s = .next (s.withAu (auRaise .wrapperUnimplemented s.au)) :=
  rfl

/-- Settles O34: the length and the magic of what lies ahead decide what the decoder answers, and that the fault. -/
theorem headerParseFaults : Obligations.HeaderParseFaults := by
  intro s hr hl hb hp hz left magic raised
  have hlen : (bitsAhead s.cfg.bitOrder s.au).length = left := length_bitsAhead_start _ _ hz
  have raised_eq (f : AuCause) (n : Nat) (hf : f ≠ .usage) :
      s.withAu (auRaise f (advance n s.au)) = raised f.code n :=
    congrArg s.withAu (auRaise_advance_start f n s.au hf hz)
  refine ⟨fun hlt => ?_, fun hle hm hw => ?_, fun hle hlt hm => ?_⟩
  · have hd := decodeHeader_noMagic s.cfg.bitOrder _ (hlen.trans_lt hlt)
    rw [step_header_truncated s 0 hr hl hb hp hd, raised_eq .headerTruncated _ (by decide), AuCause.code]
  · have hd := decodeHeader_badMagic s.cfg.bitOrder _ (hle.trans_eq hlen.symm) hm hw
    rw [step_header_badMagic s 24 hr hl hb hp hd, raised_eq .badMagic _ (by decide), AuCause.code]
  · have hd := decodeHeader_truncated s.cfg.bitOrder _ (hle.trans_eq hlen.symm) (hlen.trans_lt hlt) hm
    rw [step_header_truncated s _ hr hl hb hp hd, raised_eq .headerTruncated _ (by decide), hlen, headerFieldCut,
      AuCause.code]

/-- Settles O33: the meaning of the token; and the wrapper magic decodes to it, with the cursor at bit 24. -/
theorem wrapperHeaderFaults : Obligations.WrapperHeaderFaults := by
  refine ⟨exec_auHdrWrapper, fun s hr hl hb hp hz hle hm => ?_⟩
  have hd := decodeHeader_wrapper s.cfg.bitOrder _ (hle.trans_eq (length_bitsAhead_start _ _ hz).symm) hm
  calc step s
    _ = exec .auHdrWrapper (s.withAu (advance 24 s.au)) :=
        stepRunsAuToken s .header .auHdrWrapper 24 hr hl hb (.inl ⟨hp, rfl⟩) hd
    _ = .next (s.withAu (auRaise .wrapperUnimplemented (advance 24 s.au))) := exec_auHdrWrapper _
    _ = _ := by rw [auRaise_advance_start _ 24 s.au (by decide) hz, AuCause.code]

/-! ## The checks on the header (42_audio_header.md R154 to R161) -/

section
variable {v : BitVec 8} (u : Acu)

theorem headerCheck_badVersion (h : v ≠ 1) : headerCheck v u = auRaise .badVersion u := by
  rw [headerCheck, if_pos h]

theorem headerCheck_badChannels (hv : v = 1) (h1 : effectiveChannels u.chForce u.chStored ≠ 1)
    (h2 : effectiveChannels u.chForce u.chStored ≠ 2) : headerCheck v u = auRaise .badChannels u := by
  rw [headerCheck, if_neg (not_not_intro hv), if_pos ⟨h1, h2⟩]

/-- A unit whose effective count of channels is latched (R156). -/
def latchChannels : Acu := { u with channels := (effectiveChannels u.chForce u.chStored).setWidth 2 }

/-- Past the checks of the version and of the channels, the count is latched, and the rate and the rows are checked. -/
theorem headerCheck_channels (hv : v = 1)
    (h : effectiveChannels u.chForce u.chStored = 1 ∨ effectiveChannels u.chForce u.chStored = 2) :
    headerCheck v u =
      if u.rate.toNat < 4096 then auRaise .lowRate (latchChannels u)
      else if u.rows = 0 then auRaise .zeroBlock (latchChannels u)
      else headerAccept (latchChannels u) := by
  have hc : ¬ (effectiveChannels u.chForce u.chStored ≠ 1 ∧ effectiveChannels u.chForce u.chStored ≠ 2) := by tauto
  rw [headerCheck, if_neg (not_not_intro hv), if_neg hc]
  rfl

theorem find_headerAccept_wrap (a : Nat) :
    Memory.find (headerAccept u).wrap a = if a < wraplen u then some 0 else none := by
  simp [headerAccept, Memory.find_zeros]

end

/-- ACU with the header registers written (R153). -/
def writeHeader (samples : BitVec 32) (channels rate : BitVec 16) (level : BitVec 4) (rows : BitVec 12) (u : Acu) : Acu :=
  { u with samples := samples, chStored := channels, rate := rate, level := level, rows := rows }

/-- AU.HDR is what the checks make of the written header registers. -/
theorem exec_auHdr_of_check {version : BitVec 8} {samples : BitVec 32} {channels rate : BitVec 16} {level : BitVec 4}
    {rows : BitVec 12} {s : State} {w : Acu}
    (h : headerCheck version (writeHeader samples channels rate level rows s.au) = w) :
    exec (.auHdr version samples channels rate level rows) s = .next (s.withAu w) := by
  subst h
  rfl

/-- Settles O32, check by check in the order of R161. -/
theorem headerChecksInOrder : Obligations.HeaderChecksInOrder := by
  intro version samples channels rate level rows s eff u raised
  have raises (f : AuCause) (w : Acu) (hf : f ≠ .usage) (hw : w.bitpos = s.au.bitpos)
      (h : headerCheck version u = auRaise f w) :
      exec (.auHdr version samples channels rate level rows) s = .next (raised w f.code) :=
    exec_auHdr_of_check (h.trans (by rw [auRaise_eq f w hf, hw]))
  refine ⟨fun hv => raises .badVersion u (by decide) rfl (headerCheck_badVersion u hv),
    fun hv h1 h2 => raises .badChannels u (by decide) rfl (headerCheck_badChannels u hv h1 h2),
    fun hv hc hr => raises .lowRate (latchChannels u) (by decide) rfl ?_,
    fun hv hc hr h0 => raises .zeroBlock (latchChannels u) (by decide) rfl ?_⟩
  · exact (headerCheck_channels u hv hc).trans (if_pos hr)
  · exact (headerCheck_channels u hv hc).trans ((if_neg (Nat.not_lt.mpr hr)).trans (if_pos h0))

/-- A legal count of channels, forced, or stored and none forced, is the effective one (R156). -/
theorem effectiveChannels_eq (force k : BitVec 2) (stored : BitVec 16) (hk : k = 1 ∨ k = 2)
    (h : force = k ∨ (force ≠ 1 ∧ force ≠ 2 ∧ stored = k.setWidth 16)) :
    effectiveChannels force stored = k.setWidth 16 := by
  rcases h with rfl | ⟨h1, h2, rfl⟩
  · exact if_pos hk
  · exact if_neg (not_or.mpr ⟨h1, h2⟩)

/-- Settles O31: every check passes, so what `headerCheck` does is latch the count and set the stream up. -/
theorem headerAccepted : Obligations.HeaderAccepted := by
  intro samples channels rate level rows s k hk heff hrate hrows
  let u := writeHeader samples channels rate level rows s.au
  have hcount : effectiveChannels u.chForce u.chStored = k.setWidth 16 :=
    effectiveChannels_eq s.au.chForce k channels hk heff
  have hlegal : k.setWidth 16 = (1 : BitVec 16) ∨ k.setWidth 16 = (2 : BitVec 16) := by
    rcases hk with rfl | rfl <;> decide
  have hlatch : latchChannels u = { u with channels := k } := by
    rw [latchChannels, hcount, BitVec.setWidth_setWidth_of_le k (by decide), BitVec.setWidth_eq]
  have hhigh : ¬ u.rate.toNat < 4096 := Nat.not_lt.mpr hrate
  have hfilled : u.rows ≠ 0 := hrows
  have hcheck : headerCheck 1 u = headerAccept { u with channels := k } := by
    rw [headerCheck_channels u rfl (hcount ▸ hlegal), if_neg hhigh, if_neg hfilled, hlatch]
  exact ⟨_, exec_auHdr_of_check hcheck, find_headerAccept_wrap _, rfl⟩

/-! ## AU_INIT (42_audio_header.md R150) -/

theorem exec_auInit (s : State) (hb : s.au.status ≠ .busy) (hf : s.au.chForce ≠ 3) :
    exec .auInit s = .next (s.withAu (auBegin s.au)) := by
  rw [exec, execAuInit, if_neg hb, if_neg hf]

/-- Settles O46: with neither refusal nor usage fault left, AU_INIT is `auBegin`. -/
theorem auInitBeginsParse : Obligations.AuInitBeginsParse := fun s hb hf =>
  ⟨_, exec_auInit s hb hf, Memory.find_nil, Memory.find_nil, rfl⟩

end Sys2Proof.Machine

namespace Sys2Proof.Machine

/-! ## The block header and AU_NEXT (43_audio_block_decode.md R170, R171) -/

/-- Settles O35: the latched registers, over a `BLOCK` with nothing listed. -/
theorem blockHeaderLatched : Obligations.BlockHeaderLatched := fun _ _ _ => ⟨_, rfl, Memory.find_nil, rfl⟩

/-- Settles O47, status by status. -/
theorem auNextBeginsOrEnds : Obligations.AuNextBeginsOrEnds := by
  intro s
  refine ⟨fun hr he => ?_, fun hr he => ?_, fun hend => ?_⟩
  · simp only [exec, execAuNext, hr, if_neg he]
  · simp only [exec, execAuNext, hr, if_pos he]
  · rcases hend with h | h <;> simp only [exec, execAuNext, h]

/-! ## Selectors (43_audio_block_decode.md R172, R175 to R177, R192) -/

/-- The instructions that have a selector value are those of the 32 selectors (30_encoding.md R89). -/
theorem selectorValue_eq_some {i : Instr} {n : Nat} (h : selectorValue i = some n) : n < 32 ∧ i = selectorInstr n := by
  cases i <;> cases h <;> exact ⟨by decide, rfl⟩

theorem exec_of_selectorValue {i : Instr} {n : Nat} (s : State) (h : selectorValue i = some n) :
    exec i s = beginSubband (BitVec.ofNat 5 n) s := by
  obtain ⟨hn, rfl⟩ := selectorValue_eq_some h
  exact exec_selectorInstr n hn s

/-- Settles O36. -/
theorem selectorBeginsDecoder : Obligations.SelectorBeginsDecoder := by
  intro i n s hi ⟨hzero, hbad⟩ hcol hrows
  have hrow : rowCount s.au ≠ 0 := fun h => hrows (BitVec.eq_of_toNat_eq h)
  rw [exec_of_selectorValue s hi, beginSubband_code _ s hzero hbad hcol hrow]

/-- Settles O38: fault entry over the unit whose selector is latched. -/
theorem badSelectorFaults : Obligations.BadSelectorFaults := by
  intro i n s hi hd
  rw [exec_of_selectorValue s hi, beginSubband_bad _ s hd, auRaise_eq _ _ (by decide), AuCause.code]

@[simp] theorem scaledRaw_zero (scale : BitVec 16) : scaledRaw 0 scale = 0 := by simp [scaledRaw, wrap32]

/-- A column filled with zeros from row 0 (R177): its slots, the other cells, and the registers. -/
theorem putRaws_zeros (u : Acu) (h0 : u.row = 0) :
    (∀ r, r < rowCount u →
      Memory.find (putRaws (List.replicate (rowCount u) 0) u).block (r * cols u + u.col.toNat) = some 0) ∧
    (∀ a, (∀ r, r < rowCount u → a ≠ r * cols u + u.col.toNat) →
      Memory.find (putRaws (List.replicate (rowCount u) 0) u).block a = Memory.find u.block a) ∧
    putRaws (List.replicate (rowCount u) 0) u =
      { u with block := (putRaws (List.replicate (rowCount u) 0) u).block, row := rowCount u } := by
  refine ⟨fun r hr => ?_, fun a ha => putRaws_other _ _ _ fun k hk => ?_, ?_⟩
  · have hslot := putRaws_slot (List.replicate (rowCount u) 0) u r (by simpa using hr) (by omega)
    simpa [h0] using hslot
  · rw [h0, Nat.zero_add]
    exact ha k (by rw [List.length_replicate] at hk; omega)
  · conv_lhs => rw [putRaws_eq, h0, List.length_replicate, Nat.zero_add, Nat.sub_zero, Nat.min_self]

/-- Settles O37: selector 0 by the fixed row of the map; the rest is a column of zeros and the end of the subband. -/
theorem zeroSelectorFillsColumn : Obligations.ZeroSelectorFillsColumn := by
  refine ⟨fun _ => if_pos rfl, fun i n s hi hd hcol => ?_⟩
  obtain ⟨hslots, hother, hregs⟩ := putRaws_zeros { s.au with sel := BitVec.ofNat 5 n, row := 0 } rfl
  refine ⟨_, (exec_of_selectorValue s hi).trans (beginSubband_zero _ s hd hcol), hslots, hother, ?_⟩
  exact congrArg (fun u => s.withAu (endSubband u)) hregs

/-! ## Code words (R173, R178 to R191) -/

section
variable (e : BitVec 12) (bias : Int)

theorem nibbleRaw_zero : nibbleRaw e 0 bias = ((e.extractLsb' 0 4).toNat : Int) - bias := by
  simp [nibbleRaw]

theorem nibbleRaw_one : nibbleRaw e 1 bias = ((e.extractLsb' 4 4).toNat : Int) - bias := by
  simp [nibbleRaw, Nat.shiftRight_eq_div_pow]

theorem nibbleRaw_two : nibbleRaw e 2 bias = ((e.extractLsb' 8 4).toNat : Int) - bias := by
  simp [nibbleRaw, Nat.shiftRight_eq_div_pow]

end

theorem wordSamples_t15_of_entry {c : Config} {v : BitVec 5} {e : BitVec 12} (h : c.tab3x3[v.toNat]? = some e) :
    wordSamples c (.auT15Idx v) = some [nibbleRaw e 0 c.bias3x3, nibbleRaw e 1 c.bias3x3, nibbleRaw e 2 c.bias3x3] := by
  change Option.map _ c.tab3x3[v.toNat]? = _
  rw [h, Option.map_some, nibbleRaw_zero, nibbleRaw_one, nibbleRaw_two]

/-- The samples of a T15 word are what the model reads from the table (R188). -/
theorem wordSamples_t15 (c : Config) (v : BitVec 5) : wordSamples c (.auT15Idx v) = t15Raws c v := by
  rw [t15Raws]
  split_ifs with h
  · exact wordSamples_t15_of_entry (Vector.getElem?_eq_getElem h)
  · exact congrArg (Option.map _) (Vector.getElem?_eq_none (Nat.not_lt.mp h))

theorem wordSamples_t27_of_entry {c : Config} {v : BitVec 7} {e : BitVec 12} (h : c.tab3x5[v.toNat]? = some e) :
    wordSamples c (.auT27Idx v) = some [nibbleRaw e 0 c.bias3x5, nibbleRaw e 1 c.bias3x5, nibbleRaw e 2 c.bias3x5] := by
  change Option.map _ c.tab3x5[v.toNat]? = _
  rw [h, Option.map_some, nibbleRaw_zero, nibbleRaw_one, nibbleRaw_two]

/-- The samples of a T27 word are what the model reads from the table (R189). -/
theorem wordSamples_t27 (c : Config) (v : BitVec 7) : wordSamples c (.auT27Idx v) = t27Raws c v := by
  rw [t27Raws]
  split_ifs with h
  · exact wordSamples_t27_of_entry (Vector.getElem?_eq_getElem h)
  · exact congrArg (Option.map _) (Vector.getElem?_eq_none (Nat.not_lt.mp h))

theorem wordSamples_t37_of_entry {c : Config} {v : BitVec 7} {e : BitVec 12} (h : c.tab2x11[v.toNat]? = some e) :
    wordSamples c (.auT37Idx v) = some [nibbleRaw e 0 c.bias2x11, nibbleRaw e 1 c.bias2x11] := by
  change Option.map _ c.tab2x11[v.toNat]? = _
  rw [h, Option.map_some, nibbleRaw_zero, nibbleRaw_one]

/-- The samples of a T37 word are what the model reads from the table (R191). -/
theorem wordSamples_t37 (c : Config) (v : BitVec 7) : wordSamples c (.auT37Idx v) = t37Raws c v := by
  rw [t37Raws]
  split_ifs with h
  · exact wordSamples_t37_of_entry (Vector.getElem?_eq_getElem h)
  · exact congrArg (Option.map _) (Vector.getElem?_eq_none (Nat.not_lt.mp h))

/-- A code word with samples is these samples for the slots: the table words through their tables, any other as it is read. -/
theorem exec_of_wordSamples {i : Instr} {raws : List Int} {s : State} (h : wordSamples s.cfg i = some raws) :
    exec i s = emitRaws raws s := by
  have table {samples : Option (List Int)} (hs : samples = some raws) : emitTable samples s = emitRaws raws s := by
    rw [hs, emitTable]
  cases i
  case auT15Idx v => exact table ((wordSamples_t15 s.cfg v).symm.trans h)
  case auT27Idx v => exact table ((wordSamples_t27 s.cfg v).symm.trans h)
  case auT37Idx v => exact table ((wordSamples_t37 s.cfg v).symm.trans h)
  all_goals cases h <;> rfl

@[simp] theorem closeSubband_block (u : Acu) : (closeSubband u).block = u.block := by rw [closeSubband_eq]

/-- All that a code word does to the registers: the row goes on, and the subband ends exactly when that fills it (R179). -/
theorem closeSubband_putRaws (raws : List Int) (u : Acu) (hrow : u.row < rowCount u) :
    let n := min raws.length (rowCount u - u.row)
    let full := u.row + n = rowCount u
    closeSubband (putRaws raws u) = { u with
      block := (putRaws raws u).block
      row := u.row + n
      col := if full then u.col + 1 else u.col
      phase := if full then (if u.col.toNat + 1 = cols u then .merge else .selector) else u.phase } := by
  intro n full
  have hregs : putRaws raws u = { u with block := (putRaws raws u).block, row := u.row + n } := putRaws_eq raws u
  have hrows : rowCount (putRaws raws u) = rowCount u := by rw [hregs]; rfl
  have hnext : (putRaws raws u).row = u.row + n := by rw [hregs]
  have hn : n ≤ rowCount u - u.row := Nat.min_le_right _ _
  by_cases hf : full
  · simp only [if_pos hf]
    rw [closeSubband, if_pos (by rw [hrows, hnext]; exact hf.ge)]
    exact congrArg endSubband hregs
  · simp only [if_neg hf]
    rw [closeSubband, if_neg (by rw [hrows, hnext]; change ¬ u.row + n = rowCount u at hf; omega)]
    exact hregs

/-- Settles O39: what a code word's samples do to the cells and to the registers, once the word is its samples. -/
theorem codeWordFillsSlots : Obligations.CodeWordFillsSlots := by
  intro i raws s hw hcol hrow n slot full
  refine ⟨_, (exec_of_wordSamples hw).trans (emitRaws_slot raws s hcol hrow), fun k hk hkn => ?_, fun a ha => ?_, ?_⟩
  · rw [State.withAu_au, closeSubband_block]
    exact putRaws_slot raws s.au k hk (by omega)
  · rw [State.withAu_au, closeSubband_block]
    exact putRaws_other raws s.au a ha
  · rw [State.withAu_au, closeSubband_block]
    exact congrArg s.withAu (closeSubband_putRaws raws s.au hrow)

/-- An index that its table does not have (R188, R189, R191). -/
theorem emitTable_none (s : State) :
    emitTable none s = .next (s.withAu { s.au with fault := 24, faultPos := s.au.bitpos, status := .fault }) := by
  rw [emitTable, auRaise_eq _ _ (by decide), AuCause.code]

/-- Settles O40, table by table. -/
theorem tableIndexBeyondFaults : Obligations.TableIndexBeyondFaults := by
  intro v5 v7 s t
  have faults {samples : Option (List Int)} (h : samples = none) : emitTable samples s = .next t := by
    rw [h, emitTable_none]
  exact ⟨fun h => faults (dif_neg (by omega)), fun h => faults (dif_neg (by omega)), fun h => faults (dif_neg (by omega))⟩

/-! ## The default tables (R176, R190) -/

theorem packDigits_three (m b : Nat) :
    Config.packDigits m 3 b = BitVec.ofNat 12 (b % m + (b / m % m) * 16 + (b / (m * m) % m) * 256) := rfl

theorem packDigits_two (m b : Nat) : Config.packDigits m 2 b = BitVec.ofNat 12 (b % m + (b / m % m) * 16) := rfl

section
variable {m b : Nat} (hm : 0 < m) (h16 : m ≤ 16) (bias : Int)
include hm h16

/-- The nibbles of an entry that packs three digits are these digits. -/
theorem nibbleRaw_packDigits_three :
    nibbleRaw (Config.packDigits m 3 b) 0 bias = ((b % m : Nat) : Int) - bias ∧
    nibbleRaw (Config.packDigits m 3 b) 1 bias = ((b / m % m : Nat) : Int) - bias ∧
    nibbleRaw (Config.packDigits m 3 b) 2 bias = ((b / (m * m) % m : Nat) : Int) - bias := by
  have h0 := Nat.mod_lt b hm
  have h1 := Nat.mod_lt (b / m) hm
  have h2 := Nat.mod_lt (b / (m * m)) hm
  simp only [nibbleRaw, packDigits_three, BitVec.toNat_ofNat]
  omega

/-- The nibbles of an entry that packs two digits are these digits. -/
theorem nibbleRaw_packDigits_two :
    nibbleRaw (Config.packDigits m 2 b) 0 bias = ((b % m : Nat) : Int) - bias ∧
    nibbleRaw (Config.packDigits m 2 b) 1 bias = ((b / m % m : Nat) : Int) - bias := by
  have h0 := Nat.mod_lt b hm
  have h1 := Nat.mod_lt (b / m) hm
  simp only [nibbleRaw, packDigits_two, BitVec.toNat_ofNat]
  omega

end

theorem getElem?_defaultTab3x3 {b : Nat} (h : b < 27) :
    Config.default.tab3x3[b]? = some (Config.packDigits 3 3 b) := by
  simp [Config.default, Config.defaultTab3x3, h]

theorem getElem?_defaultTab3x5 {b : Nat} (h : b < 125) :
    Config.default.tab3x5[b]? = some (Config.packDigits 5 3 b) := by
  simp [Config.default, Config.defaultTab3x5, h]

theorem getElem?_defaultTab2x11 {b : Nat} (h : b < 121) :
    Config.default.tab2x11[b]? = some (Config.packDigits 11 2 b) := by
  simp [Config.default, Config.defaultTab2x11, h]

/-- Settles O6: the map row by row; the tables by the digits that an entry packs and that its nibbles give back. -/
theorem defaultSelectorsAndTables : Obligations.DefaultSelectorsAndTables := by
  refine ⟨by decide, fun x1 x2 x3 => ?_, fun x1 x2 x3 => ?_, fun x1 x2 => ?_, fun b => ?_, fun b => ?_, fun b => ?_⟩
  · rw [getElem?_defaultTab3x3 (by omega), packDigits_three]
    congr 2
    omega
  · rw [getElem?_defaultTab3x5 (by omega), packDigits_three]
    congr 2
    omega
  · rw [getElem?_defaultTab2x11 (by omega), packDigits_two]
    congr 2
    omega
  · obtain ⟨h0, h1, h2⟩ := nibbleRaw_packDigits_three (m := 3) (b := b) (by decide) (by decide) Config.default.bias3x3
    have hb : (BitVec.ofNat 5 b.val).toNat = b.val := by rw [BitVec.toNat_ofNat]; omega
    rw [wordSamples_t15_of_entry (hb ▸ getElem?_defaultTab3x3 b.isLt), hb, h0, h1, h2]
    rfl
  · obtain ⟨h0, h1, h2⟩ := nibbleRaw_packDigits_three (m := 5) (b := b) (by decide) (by decide) Config.default.bias3x5
    have hb : (BitVec.ofNat 7 b.val).toNat = b.val := by rw [BitVec.toNat_ofNat]; omega
    rw [wordSamples_t27_of_entry (hb ▸ getElem?_defaultTab3x5 b.isLt), hb, h0, h1, h2]
    rfl
  · obtain ⟨h0, h1⟩ := nibbleRaw_packDigits_two (m := 11) (b := b) (by decide) (by decide) Config.default.bias2x11
    have hb : (BitVec.ofNat 7 b.val).toNat = b.val := by rw [BitVec.toNat_ofNat]; omega
    rw [wordSamples_t37_of_entry (hb ▸ getElem?_defaultTab2x11 b.isLt), hb, h0, h1]
    rfl

/-! ## End of input in a block (R193) -/

/-- A token of the body that the input cuts short. -/
theorem auNext_truncated (s : State) (x : AuCtx) (n : Nat)
    (hx : s.au.phase = .block ∧ x = .block ∨ s.au.phase = .selector ∧ x = .selector ∨
      s.au.phase = .code ∧ x = .code (decoderOf s.cfg s.au.sel) s.au.sel)
    (hd : decodeAu s.cfg x (bitsAhead s.cfg.bitOrder s.au) = .short n) :
    auNext s = .done (s.withAu (endTruncated (advance n s.au))) := by
  rcases hx with ⟨hp, rfl⟩ | ⟨hp, rfl⟩ | ⟨hp, rfl⟩ <;> simp only [auNext, hp, auBody, hd]

/-- Settles O41. -/
theorem endOfInputTruncates : Obligations.EndOfInputTruncates := by
  intro s x n hr hl hb hx hd
  exact ⟨_, step_done s _ ((fetch_au s hr hl hb).trans (auNext_truncated s x n hx hd)), rfl⟩

/-! ## The wrap-merge and the output (R170; 44_audio_merge_output.md R210, R220, R221) -/

theorem auNext_merge (s : State) (hp : s.au.phase = .merge) :
    auNext s = .done (s.withAu { wrapMerge s.cfg s.au with phase := .output }) := by
  rw [auNext, hp]

theorem auNext_output (s : State) (hp : s.au.phase = .output) : auNext s = .done (s.withAu (outputStep s.cfg s.au)) := by
  rw [auNext, hp]

/-- Clipping is the nearer of the two bounds (R220). -/
theorem narrow16_saturate (x : Int) : narrow16 .saturate x = BitVec.ofInt 16 (max (-32768) (min 32767 x)) := by
  rw [narrow16]
  congr 1
  split_ifs <;> omega

/-- A block has fewer than 2^28 cells (10_state.md R21), so `AU_LAST_N` holds what it delivers. -/
theorem deliverCount_lt (u : Acu) : deliverCount u < 2 ^ 28 :=
  calc deliverCount u
    _ ≤ blocklen u := Nat.min_le_left _ _
    _ ≤ 32768 * 4096 := Nat.mul_le_mul (cols_le u) (rowCount_lt u).le
    _ < 2 ^ 28 := by decide

/-- The output moves `au.emitted` on by what it delivers, without a wrap: no more is delivered than is owed (R221). -/
theorem outputStep_emitted (c : Config) (u : Acu) :
    (outputStep c u).emitted.toNat = u.emitted.toNat + deliverCount u := by
  have hn : deliverCount u ≤ u.samples.toNat - u.emitted.toNat := Nat.min_le_right _ _
  change (u.emitted + BitVec.ofNat 32 (deliverCount u)).toNat = _
  rw [BitVec.toNat_add, BitVec.toNat_ofNat]
  have := u.samples.isLt
  have := u.emitted.isLt
  omega

/-- The output is a pass over the cells of `PCM` from `au.emitted` up (R220). -/
theorem find_outputStep_pcm (c : Config) (u : Acu) (a : Nat) :
    Memory.find (outputStep c u).pcm a =
      if u.emitted.toNat ≤ a ∧ a < u.emitted.toNat + deliverCount u then some (sampleOf c u (a - u.emitted.toNat))
      else Memory.find u.pcm a := deliver_find c u u.emitted.toNat (deliverCount u) 0 u.pcm a

/-- Settles O44: the two places of the grammar that read no token. -/
theorem outputDeliversBlock : Obligations.OutputDeliversBlock := by
  intro s hr hl hb
  have steps (t : State) (h : auNext s = .done t) : step s = .next t := step_done s t ((fetch_au s hr hl hb).trans h)
  refine ⟨fun hp => steps _ (auNext_merge s hp), fun hp => ?_⟩
  intro n
  refine ⟨_, steps _ (auNext_output s hp), .inl rfl, fun j hj => ⟨rfl, ?_⟩, fun j hj => ?_, fun a ha => ?_, ?_, rfl⟩
  · change _ < (outputStep s.cfg s.au).emitted.toNat
    rw [outputStep_emitted]
    exact Nat.add_lt_add_left hj _
  · refine (find_outputStep_pcm s.cfg s.au _).trans ?_
    rw [if_pos ⟨Nat.le_add_right _ _, Nat.add_lt_add_left hj _⟩, Nat.add_sub_cancel_left, sampleOf, shiftRight]
    cases s.cfg.narrow with
    | wrap => rfl
    | saturate => exact congrArg some (narrow16_saturate _)
  · refine (find_outputStep_pcm s.cfg s.au a).trans (if_neg fun h => ?_)
    change a < _ ∨ s.au.emitted.toNat + deliverCount s.au ≤ a at ha
    omega
  · exact (BitVec.toNat_ofNat ..).trans (Nat.mod_eq_of_lt (deliverCount_lt s.au))

end Sys2Proof.Machine

namespace Sys2Proof.Machine

/-! ## What a part of the wrap-merge leaves alone -/

/-- The cells of `BLOCK` in `P` and the cells of `WRAP` in `Q` are as they were. -/
structure Untouched (P Q : Nat → Prop) (m m' : Memory 32 × Memory 32) : Prop where
  block : ∀ x, P x → Memory.find m'.1 x = Memory.find m.1 x
  wrap : ∀ x, Q x → Memory.find m'.2 x = Memory.find m.2 x

section
variable {P Q : Nat → Prop}

theorem Untouched.refl (m : Memory 32 × Memory 32) : Untouched P Q m m := ⟨fun _ _ => rfl, fun _ _ => rfl⟩

theorem Untouched.trans {m m' m'' : Memory 32 × Memory 32} (h : Untouched P Q m m') (h' : Untouched P Q m' m'') :
    Untouched P Q m m'' :=
  ⟨fun x hx => (h'.block x hx).trans (h.block x hx), fun x hx => (h'.wrap x hx).trans (h.wrap x hx)⟩

theorem Untouched.mono {P' Q' : Nat → Prop} {m m' : Memory 32 × Memory 32} (h : Untouched P Q m m')
    (hP : ∀ x, P' x → P x) (hQ : ∀ x, Q' x → Q x) : Untouched P' Q' m m' :=
  ⟨fun x hx => h.block x (hP x hx), fun x hx => h.wrap x (hQ x hx)⟩

/-- A loop leaves alone what each of its rounds does. -/
theorem Untouched.foldl {f : Memory 32 × Memory 32 → Nat → Memory 32 × Memory 32} (l : List Nat)
    (h : ∀ i ∈ l, ∀ m, Untouched P Q m (f m i)) (m : Memory 32 × Memory 32) : Untouched P Q m (l.foldl f m) := by
  induction l generalizing m with
  | nil => exact .refl m
  | cons i l ih => exact (h i (by simp) m).trans (ih (fun j hj => h j (by simp [hj])) _)

/-- A group writes its own cells only: every `subLen`-th of `BLOCK` from `bb + i` up, and its two of `WRAP` (R211). -/
theorem juggleGroup_untouched (ctr wb bb subLen n i : Nat) (m : Memory 32 × Memory 32)
    (hP : ∀ x, P x → ∀ j, j < 2 * n → x ≠ bb + i + j * subLen)
    (hQ : ∀ x, Q x → x ≠ wb + 2 * i ∧ x ≠ wb + 2 * i + 1) :
    Untouched P Q m (juggleGroup ctr wb bb subLen (2 * n) i m) := by
  refine ⟨fun x hx => butterflies_other _ _ _ _ _ _ _ x fun j hj => hP x hx j (by omega), fun x hx => ?_⟩
  obtain ⟨h0, h1⟩ := hQ x hx
  exact (Memory.find_put_other _ _ _ _ h1).trans (Memory.find_put_other _ _ _ _ h0)

theorem juggleFrom_untouched (ctr wb bb subLen n c i : Nat) (m : Memory 32 × Memory 32)
    (hP : ∀ x, P x → ∀ g, i ≤ g → g < i + c → ∀ j, j < 2 * n → x ≠ bb + g + j * subLen)
    (hQ : ∀ x, Q x → ∀ g, i ≤ g → g < i + c → x ≠ wb + 2 * g ∧ x ≠ wb + 2 * g + 1) :
    Untouched P Q m (juggleFrom ctr wb bb subLen (2 * n) c i m) := by
  induction c generalizing i m with
  | zero => exact .refl m
  | succ c ih =>
    exact (juggleGroup_untouched ctr wb bb subLen n i m (fun x hx => hP x hx i le_rfl (by omega))
        fun x hx => hQ x hx i le_rfl (by omega)).trans
      (ih (i + 1) _ (fun x hx g hg hgc => hP x hx g (by omega) (by omega))
        fun x hx g hg hgc => hQ x hx g (by omega) (by omega))

end

/-- `Juggle` stays inside the `2 * n * subLen` cells of `BLOCK` and the `2 * subLen` cells of `WRAP` it is given (R214). -/
theorem juggle_untouched (ctr wb bb subLen n : Nat) (m : Memory 32 × Memory 32) :
    Untouched (fun x => x < bb ∨ bb + 2 * n * subLen ≤ x) (fun x => x < wb ∨ wb + 2 * subLen ≤ x)
      m (juggle ctr wb bb subLen (2 * n) m) := by
  refine juggleFrom_untouched ctr wb bb subLen n subLen 0 m (fun x hx g _ hg j hj => ?_) fun x hx g _ hg => by omega
  have hle : (j + 1) * subLen ≤ 2 * n * subLen := Nat.mul_le_mul_right _ hj
  rw [Nat.succ_mul] at hle
  omega

/-! ## Juggle in closed form (R211) -/

theorem blockCell_congr (ctr : Nat) {m m' : Memory 32} {a : Nat} (h : Memory.find m' a = Memory.find m a) :
    blockCell ctr m' a = blockCell ctr m a := by rw [blockCell, blockCell, h]

theorem wrapCell_congr (ctr : Nat) {m m' : Memory 32} {a : Nat} (h : Memory.find m' a = Memory.find m a) :
    wrapCell ctr m' a = wrapCell ctr m a := by rw [wrapCell, wrapCell, h]

section
variable (ctr wb bb subLen n i : Nat)

/-- The first source value of pair `j` of group `i`. -/
def sourceA (m : Memory 32 × Memory 32) (j : Nat) : Cell32 := blockCell ctr m.1 (bb + i + (2 * j) * subLen)

/-- The second source value of pair `j` of group `i`. -/
def sourceB (m : Memory 32 × Memory 32) (j : Nat) : Cell32 := blockCell ctr m.1 (bb + i + (2 * j + 1) * subLen)

/-- The first source value of the pair before pair `j`: the group's first cell of `WRAP` before the first pair. -/
def carriedA (m : Memory 32 × Memory 32) (j : Nat) : Cell32 :=
  if j = 0 then wrapCell ctr m.2 (wb + 2 * i) else sourceA ctr bb subLen i m (j - 1)

/-- The second source value of the pair before pair `j`. -/
def carriedB (m : Memory 32 × Memory 32) (j : Nat) : Cell32 :=
  if j = 0 then wrapCell ctr m.2 (wb + 2 * i + 1) else sourceB ctr bb subLen i m (j - 1)

/-- In `m'` the cells of group `i` are the butterflies of the source values they have in `m`, and its two cells of `WRAP`
the last pair's source values. -/
structure GroupMerged (m m' : Memory 32 × Memory 32) : Prop where
  pair : ∀ j, j < n →
    Memory.find m'.1 (bb + i + (2 * j) * subLen) =
      some (wrap32 (2 * (carriedB ctr wb bb subLen i m j).toInt +
        ((carriedA ctr wb bb subLen i m j).toInt + (sourceA ctr bb subLen i m j).toInt))) ∧
    Memory.find m'.1 (bb + i + (2 * j + 1) * subLen) =
      some (wrap32 (2 * (sourceA ctr bb subLen i m j).toInt -
        ((carriedB ctr wb bb subLen i m j).toInt + (sourceB ctr bb subLen i m j).toInt)))
  wrap : Memory.find m'.2 (wb + 2 * i) = some (carriedA ctr wb bb subLen i m n) ∧
    Memory.find m'.2 (wb + 2 * i + 1) = some (carriedB ctr wb bb subLen i m n)

/-- The cells of group `i` are as they were. -/
abbrev GroupUntouched : Memory 32 × Memory 32 → Memory 32 × Memory 32 → Prop :=
  Untouched (fun x => ∃ j, x = bb + i + j * subLen) (fun x => x = wb + 2 * i ∨ x = wb + 2 * i + 1)

end

section
variable {ctr wb bb subLen n i : Nat} {m m' m'' : Memory 32 × Memory 32}

/-- A group takes its source values from its own cells only. -/
theorem GroupMerged.of_untouched_before (h : GroupUntouched wb bb subLen i m m')
    (h' : GroupMerged ctr wb bb subLen n i m' m'') : GroupMerged ctr wb bb subLen n i m m'' := by
  have hA : sourceA ctr bb subLen i m' = sourceA ctr bb subLen i m :=
    funext fun j => blockCell_congr ctr (h.block _ ⟨_, rfl⟩)
  have hB : sourceB ctr bb subLen i m' = sourceB ctr bb subLen i m :=
    funext fun j => blockCell_congr ctr (h.block _ ⟨_, rfl⟩)
  have hcA : carriedA ctr wb bb subLen i m' = carriedA ctr wb bb subLen i m := by
    funext j
    rw [carriedA, carriedA, hA, wrapCell_congr ctr (h.wrap _ (.inl rfl))]
  have hcB : carriedB ctr wb bb subLen i m' = carriedB ctr wb bb subLen i m := by
    funext j
    rw [carriedB, carriedB, hB, wrapCell_congr ctr (h.wrap _ (.inr rfl))]
  obtain ⟨hpair, hwrap⟩ := h'
  rw [hA, hB, hcA, hcB] at hpair
  rw [hcA, hcB] at hwrap
  exact ⟨hpair, hwrap⟩

/-- What a group has written stays. -/
theorem GroupMerged.of_untouched_after (h : GroupMerged ctr wb bb subLen n i m m')
    (h' : GroupUntouched wb bb subLen i m' m'') : GroupMerged ctr wb bb subLen n i m m'' where
  pair j hj := (h.pair j hj).imp (h'.block _ ⟨_, rfl⟩).trans (h'.block _ ⟨_, rfl⟩).trans
  wrap := h.wrap.imp (h'.wrap _ (.inl rfl)).trans (h'.wrap _ (.inr rfl)).trans

end

section
variable (ctr wb bb subLen n : Nat)

/-- Two groups share no cell of `BLOCK`: their addresses differ modulo the group length. -/
theorem group_cell_ne {i g : Nat} (hi : i < subLen) (hg : g < subLen) (h : g ≠ i) (j k : Nat) :
    bb + g + k * subLen ≠ bb + i + j * subLen := by
  intro he
  have hmod := congrArg (· % subLen) (show g + k * subLen = i + j * subLen by omega)
  simp only [Nat.add_mul_mod_self_right, Nat.mod_eq_of_lt hi, Nat.mod_eq_of_lt hg] at hmod
  exact h hmod

/-- A group is left alone by the groups of other numbers. -/
theorem juggleFrom_group_untouched (c i g : Nat) (m : Memory 32 × Memory 32) (hg : g < subLen) (hc : i + c ≤ subLen)
    (h : g < i ∨ i + c ≤ g) : GroupUntouched wb bb subLen g m (juggleFrom ctr wb bb subLen (2 * n) c i m) := by
  refine juggleFrom_untouched ctr wb bb subLen n c i m ?_ fun x hx k hk hkc => by omega
  rintro x ⟨j', rfl⟩ k hk hkc j -
  exact group_cell_ne bb subLen (by omega) hg (by omega) j j'

/-- One group, by what its butterflies write and what they leave (R211). -/
theorem juggleGroup_merges (i : Nat) (m : Memory 32 × Memory 32) (hs : 1 ≤ subLen) :
    GroupMerged ctr wb bb subLen n i m (juggleGroup ctr wb bb subLen (2 * n) i m) := by
  have hlast := butterflies_last ctr subLen n (bb + i) (wrapCell ctr m.2 (wb + 2 * i))
    (wrapCell ctr m.2 (wb + 2 * i + 1)) m.1 hs
  rw [juggleGroup, Nat.mul_div_cancel_left n Nat.two_pos]
  refine ⟨fun j hj => butterflies_pair ctr subLen n (bb + i) _ _ m.1 hs j hj, ?_, ?_⟩
  · rw [Memory.find_put_other _ _ _ _ (by omega), Memory.find_put_same, hlast, carriedA]
    split_ifs <;> rfl
  · rw [Memory.find_put_same, hlast, carriedB]
    split_ifs <;> rfl

/-- Every group of a run of groups, none of which meets another. -/
theorem juggleFrom_merges (c i g : Nat) (m : Memory 32 × Memory 32) (hc : i + c ≤ subLen) (hi : i ≤ g) (hg : g < i + c) :
    GroupMerged ctr wb bb subLen n g m (juggleFrom ctr wb bb subLen (2 * n) c i m) := by
  induction c generalizing i m with
  | zero => omega
  | succ c ih =>
    rcases hi.eq_or_lt with rfl | hlt
    · exact (juggleGroup_merges ctr wb bb subLen n i m (by omega)).of_untouched_after
        (juggleFrom_group_untouched ctr wb bb subLen n c (i + 1) i _ (by omega) (by omega) (.inl (by omega)))
    · exact .of_untouched_before
        (juggleFrom_group_untouched ctr wb bb subLen n 1 i g m (by omega) (by omega) (.inr (by omega)))
        (ih (i + 1) _ (by omega) (by omega) (by omega))

end

/-- Settles O42: group by group, with what the groups together leave alone. -/
theorem juggleButterflies : Obligations.JuggleButterflies := by
  intro ctr wb bb subLen n block wrap m
  have hout := juggle_untouched ctr wb bb subLen n (block, wrap)
  refine ⟨fun i hi => ?_, hout.block, hout.wrap⟩
  have hgroup := juggleFrom_merges ctr wb bb subLen n subLen 0 i (block, wrap) (by omega) (by omega) (by omega)
  exact ⟨hgroup.pair, hgroup.wrap⟩

/-! ## The wrap-merge as a loop nest (R210, R212 to R214) -/

/-- Pass `j` of a chunk, with its addresses in closed form. -/
def mergePass (ctr k bb cnt j : Nat) (m : Memory 32 × Memory 32) : Memory 32 × Memory 32 :=
  juggle ctr (2 * 2 ^ (k + 1) - 2 * 2 ^ (k + 1 - j)) bb (2 ^ (k - j)) (2 ^ (j + 1) * cnt) m

/-- The plus-one step of a chunk as a loop over its cells (R213), where the parameter asks for it. -/
def plusOnes (ctr : Nat) (onePlus : Bool) (k bb cnt : Nat) (m : Memory 32 × Memory 32) : Memory 32 × Memory 32 :=
  if onePlus then
    ((List.range (2 * cnt)).foldl (fun block x => Memory.put block (bb + x * 2 ^ k)
      (BitVec.ofInt 32 ((blockCell ctr block (bb + x * 2 ^ k)).toInt + 1))) m.1, m.2)
  else m

/-- A chunk is its first pass, the plus-one step, and the other passes as a loop (R212). -/
theorem mergeChunk_eq_passes (ctr : Nat) (onePlus : Bool) (k bb cnt : Nat) (m : Memory 32 × Memory 32) :
    mergeChunk ctr onePlus k bb cnt m = (List.range k).foldl (fun m j => mergePass ctr k bb cnt (j + 1) m)
      (plusOnes ctr onePlus k bb cnt (mergePass ctr k bb cnt 0 m)) := by
  have hfirst : mergePass ctr k bb cnt 0 m = juggle ctr 0 bb (2 ^ k) (2 * cnt) m := by
    rw [mergePass, Nat.sub_zero, Nat.sub_self, Nat.sub_zero, Nat.zero_add, Nat.pow_one]
  have hlater (j : Nat) : mergePass ctr k bb cnt (j + 1) =
      juggle ctr (2 * 2 ^ k + 2 * 2 ^ k - 2 * 2 ^ (k - j)) bb (2 ^ (k - 1 - j)) (2 ^ (j + 1) * (2 * cnt)) := by
    funext m
    rw [mergePass, Nat.add_sub_add_right, Nat.sub_add_eq, Nat.sub_right_comm, Nat.pow_succ 2 k, Nat.pow_succ 2 (j + 1),
      Nat.mul_assoc _ 2 cnt, Nat.mul_comm (2 ^ k) 2, ← Nat.two_mul]
  simp only [hlater, hfirst]
  rw [mergeChunk, laterPasses_eq_foldl, plusOne_eq_foldl]
  rfl

/-- A pass stays inside the cells of its chunk and the `4 * 2^k - 2` cells of `WRAP` (R214). -/
theorem mergePass_untouched (ctr k bb cnt j : Nat) (m : Memory 32 × Memory 32) (hj : j ≤ k) :
    Untouched (bb + cnt * (2 * 2 ^ k) ≤ ·) (4 * 2 ^ k - 2 ≤ ·) m (mergePass ctr k bb cnt j m) := by
  have hlen : 2 ^ k = 2 ^ j * 2 ^ (k - j) := by rw [← Nat.pow_add, Nat.add_sub_cancel' hj]
  have hcount : 2 ^ (j + 1) * cnt = 2 * (2 ^ j * cnt) := by ring
  have hcells : 2 * (2 ^ j * cnt) * 2 ^ (k - j) = cnt * (2 * 2 ^ k) := by rw [hlen]; ring
  have hpow : 2 ^ (k + 1) = 2 * 2 ^ k := by ring
  have hhalf : 2 ^ (k + 1 - j) = 2 * 2 ^ (k - j) := by rw [Nat.sub_add_comm hj, Nat.pow_succ, Nat.mul_comm]
  have hle : 2 ^ (k - j) ≤ 2 ^ k := Nat.pow_le_pow_right Nat.two_pos (Nat.sub_le k j)
  have hpos := Nat.two_pow_pos (k - j)
  rw [mergePass, hcount]
  exact (juggle_untouched ctr _ bb (2 ^ (k - j)) (2 ^ j * cnt) m).mono (fun x hx => .inr (hcells ▸ hx))
    fun x hx => .inr (by omega)

theorem plusOnes_untouched (ctr : Nat) (onePlus : Bool) (k bb cnt b w : Nat) (m : Memory 32 × Memory 32)
    (hb : bb + cnt * (2 * 2 ^ k) ≤ b) :
    Untouched (b ≤ ·) (w ≤ ·) m (plusOnes ctr onePlus k bb cnt m) := by
  rw [plusOnes]
  split_ifs
  · refine ⟨fun x hx => ?_, fun _ _ => rfl⟩
    have hcell := plusOne_cell ctr (2 ^ k) (2 * cnt) bb m.1 (Nat.two_pow_pos k)
    rw [plusOne_eq_foldl] at hcell
    refine hcell.2 x fun j hj => ?_
    have hlt : j * 2 ^ k < 2 * cnt * 2 ^ k := Nat.mul_lt_mul_of_pos_right hj (Nat.two_pow_pos k)
    have hcells : 2 * cnt * 2 ^ k = cnt * (2 * 2 ^ k) := by ring
    omega
  · exact .refl m

/-- A chunk stays inside its rows and `WRAP` (R214). -/
theorem mergeChunk_untouched (ctr : Nat) (onePlus : Bool) (k bb cnt b w : Nat) (m : Memory 32 × Memory 32)
    (hb : bb + cnt * (2 * 2 ^ k) ≤ b) (hw : 4 * 2 ^ k - 2 ≤ w) :
    Untouched (b ≤ ·) (w ≤ ·) m (mergeChunk ctr onePlus k bb cnt m) := by
  have hpass (j : Nat) (hj : j ≤ k) (m : Memory 32 × Memory 32) :
      Untouched (b ≤ ·) (w ≤ ·) m (mergePass ctr k bb cnt j m) :=
    (mergePass_untouched ctr k bb cnt j m hj).mono (fun _ => hb.trans) fun _ => hw.trans
  rw [mergeChunk_eq_passes]
  exact ((hpass 0 (Nat.zero_le k) m).trans (plusOnes_untouched ctr onePlus k bb cnt b w _ hb)).trans
    (.foldl _ (fun j hj m => hpass (j + 1) (List.mem_range.mp hj) m) _)

section
variable (c : Config) (u : Acu)

/-- The two memories after the wrap-merge at level `k + 1`: the chunks in order (R212). -/
def mergedChunks (k : Nat) : Memory 32 × Memory 32 :=
  (List.range ((rowCount u + chunkRows u - 1) / chunkRows u)).foldl (fun m i =>
    mergeChunk u.freeCtr c.mergePlusOne k (i * (chunkRows u * cols u))
      (min (chunkRows u) (rowCount u - i * chunkRows u)) m) (u.block, u.wrap)

theorem wrapMerge_level_zero (h : u.level.toNat = 0) : wrapMerge c u = u := by
  unfold wrapMerge
  rw [h]

theorem wrapMerge_level_succ (k : Nat) (h : u.level.toNat = k + 1) :
    wrapMerge c u = { u with block := (mergedChunks c u k).1, wrap := (mergedChunks c u k).2 } := by
  have hchunks := mergeChunks_eq_foldl u.freeCtr c.mergePlusOne k (chunkRows u) (cols u) (le_max_left _ _) (rowCount u)
    (rowCount u) 0 le_rfl (u.block, u.wrap) (Nat.eq_zero_or_pos _)
  simp only [Nat.zero_add] at hchunks
  unfold wrapMerge
  rw [h]
  dsimp only
  rw [hchunks]
  rfl

/-- The rows of a chunk lie inside the block, so the chunks stay inside `BLOCK` and `WRAP` (R214). -/
theorem mergedChunks_untouched (k : Nat) (h : u.level.toNat = k + 1) :
    Untouched (blocklen u ≤ ·) (wraplen u ≤ ·) (u.block, u.wrap) (mergedChunks c u k) := by
  have hcols : cols u = 2 * 2 ^ k := by rw [cols, h, Nat.pow_succ, Nat.mul_comm]
  refine .foldl _ (fun i hi m => mergeChunk_untouched _ _ k _ _ _ _ m ?_ (by unfold wraplen; omega)) _
  have hstep : 1 ≤ chunkRows u := le_max_left _ _
  have hstart : i * chunkRows u ≤ rowCount u := by
    have hle := (Nat.le_div_iff_mul_le hstep).mp (List.mem_range.mp hi)
    rw [Nat.succ_mul] at hle
    omega
  calc i * (chunkRows u * cols u) + min (chunkRows u) (rowCount u - i * chunkRows u) * (2 * 2 ^ k)
    _ = (i * chunkRows u + min (chunkRows u) (rowCount u - i * chunkRows u)) * cols u := by rw [hcols]; ring
    _ ≤ rowCount u * cols u := Nat.mul_le_mul_right _ (by omega)
    _ = blocklen u := Nat.mul_comm _ _

/-- The wrap-merge stays inside `BLOCK` and `WRAP` at every level. -/
theorem wrapMerge_untouched :
    Untouched (blocklen u ≤ ·) (wraplen u ≤ ·) (u.block, u.wrap) ((wrapMerge c u).block, (wrapMerge c u).wrap) := by
  cases h : u.level.toNat with
  | zero => rw [wrapMerge_level_zero c u h]; exact .refl _
  | succ k => rw [wrapMerge_level_succ c u k h]; exact mergedChunks_untouched c u k h

end

/-- Settles O43: the two levels of the loop nest, and what every pass leaves alone. -/
theorem mergeStaysInsideSpaces : Obligations.MergeStaysInsideSpaces := by
  intro c u
  have hout := wrapMerge_untouched c u
  refine ⟨fun h => wrapMerge_level_zero c u (by rw [h]; rfl), fun k hk => ?_, wrapMerge_eq c u, hout.block, hout.wrap⟩
  rw [wrapMerge_level_succ c u k hk, mergedChunks]
  simp only [mergeChunk_eq_passes]
  rfl

end Sys2Proof.Machine

namespace Sys2Proof.Machine

/-! ## The commands of a stream at hand, and AU_RESET (R224, R225, R228) -/

theorem ne_busy_of_hasStream {st : AuStatus} (h : st.hasStream = true) : st ≠ .busy := by
  rintro rfl
  cases h

theorem exec_auRestart (s : State) (h : s.au.status.hasStream = true) :
    exec .auRestart s = .next (s.withAu
      { s.au with
        bitpos := s.au.dataStart, emitted := 0, col := 0, lastN := 0, status := .ready, changedAt := none }) := by
  rw [exec, execAuRestart, if_neg (ne_busy_of_hasStream h), if_pos h]

theorem exec_auClearWrap (s : State) (h : s.au.status.hasStream = true) :
    exec .auClearWrap s = .next (s.withAu { s.au with wrap := Memory.zeros 0 (wraplen s.au) }) := by
  rw [exec, execAuClearWrap, if_neg (ne_busy_of_hasStream h), if_pos h]

theorem exec_auReset (s : State) (h : s.au.status ≠ .busy) :
    exec .auReset s = .next (s.withAu (auResetUnit s.au)) := by
  rw [exec, execAuReset, if_neg h]

/-- Settles O48. -/
theorem auRestartRewinds : Obligations.AuRestartRewinds := exec_auRestart

/-- Settles O49: the zero cells from address 0 up. -/
theorem auClearWrapZeroes : Obligations.AuClearWrapZeroes := by
  intro s h
  refine ⟨_, exec_auClearWrap s h, fun a => ?_, rfl⟩
  rw [State.withAu_au, Memory.find_zeros, Nat.zero_add]
  exact if_congr (and_iff_right (Nat.zero_le a)) rfl rfl

/-- Settles O50: the registers of the reset unit, over a `BLOCK` and a `WRAP` with nothing listed. -/
theorem auResetClears : Obligations.AuResetClears := fun s h =>
  ⟨_, exec_auReset s h, rfl, rfl, rfl, rfl, rfl, rfl, Memory.find_nil, Memory.find_nil, rfl, rfl, rfl, rfl, rfl, rfl, rfl⟩

end Sys2Proof.Machine

namespace Sys2Proof.Machine

/-! ## The WAVE file (R227) -/

/-- Byte `k` of a number, low byte first, is the number over `256^k`. -/
theorem lowBytes_eq_map_range (n v : Nat) : lowBytes n v = (List.range n).map fun k => BitVec.ofNat 8 (v / 256 ^ k) := by
  induction n generalizing v with
  | zero => rfl
  | succ n ih =>
    rw [lowBytes, ih, List.range_succ_eq_map, List.map_cons, List.map_map, Nat.pow_zero, Nat.div_one]
    congr 2
    funext k
    rw [Function.comp_apply, Nat.div_div_eq_div_mul, ← Nat.pow_succ']

@[simp] theorem length_lowBytes (n v : Nat) : (lowBytes n v).length = n := by
  rw [lowBytes_eq_map_range, List.length_map, List.length_range]

theorem length_waveHeader (u : Acu) : (waveHeader u).length = 44 := by
  simp [waveHeader, le32, le16]

theorem pcmCell_of_find {m : Memory 16} {a : Nat} {v : Sample} (h : Memory.find m a = some v) : pcmCell m a = v := by
  rw [pcmCell, h, Option.getD_some]

/-- Settles O60: the header's numbers byte by byte, and the two bytes of a cell as its halves. -/
theorem waveHeaderFields : Obligations.WaveHeaderFields := by
  intro u le
  refine ⟨length_waveHeader u, ?_, rfl, fun n => ?_⟩
  · simp only [waveHeader, le32, le16, lowBytes_eq_map_range, Nat.mul_assoc]
    rfl
  · obtain ⟨hlen, hbytes⟩ := waveSamples_bytes u n
    refine ⟨hlen, fun j v hj hv => ?_⟩
    obtain ⟨hlow, hhigh⟩ := hbytes j hj
    rw [pcmCell_of_find hv] at hlow hhigh
    refine ⟨hlow.trans (congrArg some ?_), hhigh.trans (congrArg some ?_)⟩
    · simp [BitVec.extractLsb']
    · simp [BitVec.extractLsb', Nat.shiftRight_eq_div_pow]

end Sys2Proof.Machine

namespace Sys2Proof.Machine

/-! ## Fault entry (60_exceptions.md R250) -/

theorem lzRaise_eq (f : LzCause) (u : Lzu) (hf : f ≠ .usage) :
    lzRaise f u = { u with fault := f.code, faultIp := u.ip, faultOp := u.op, status := .fault } := by
  rw [lzRaise, if_neg hf, if_neg hf]

theorem lzRaise_usage (u : Lzu) : lzRaise .usage u = { u with fault := 5, status := .fault } := by
  rw [lzRaise, if_pos rfl, if_pos rfl, LzCause.code]

theorem auRaise_usage (u : Acu) : auRaise .usage u = { u with fault := 25, status := .fault } := by
  rw [auRaise, if_pos rfl, AuCause.code]

/-- Settles O12: a usage fault keeps the position registers, every other fault takes the cursors. -/
theorem faultEntryWrites : Obligations.FaultEntryWrites :=
  ⟨lzRaise_eq, lzRaise_usage, auRaise_eq, auRaise_usage⟩

/-! ## Commands that their status does not allow (60_exceptions.md R247) -/

/-- The two statuses that allow no command on a stream are neither BUSY nor one with a stream. -/
theorem ne_busy_and_not_hasStream {st : AuStatus} (h : st = .idle ∨ st = .fault) :
    st ≠ .busy ∧ ¬ st.hasStream = true := by
  rcases h with rfl | rfl <;> decide

theorem exec_auNext_usage (s : State) (h : s.au.status = .idle ∨ s.au.status = .fault) :
    exec .auNext s = .next (s.withAu (auRaise .usage s.au)) := by
  rcases h with h | h <;> simp only [exec, execAuNext, h]

theorem exec_auRestart_usage (s : State) (hb : s.au.status ≠ .busy) (hs : ¬ s.au.status.hasStream = true) :
    exec .auRestart s = .next (s.withAu (auRaise .usage s.au)) := by
  rw [exec, execAuRestart, if_neg hb, if_neg hs]

theorem exec_auClearWrap_usage (s : State) (hb : s.au.status ≠ .busy) (hs : ¬ s.au.status.hasStream = true) :
    exec .auClearWrap s = .next (s.withAu (auRaise .usage s.au)) := by
  rw [exec, execAuClearWrap, if_neg hb, if_neg hs]

theorem exec_auInit_usage (s : State) (hb : s.au.status ≠ .busy) (hf : s.au.chForce = 3) :
    exec .auInit s = .next (s.withAu (auRaise .usage s.au)) := by
  rw [exec, execAuInit, if_neg hb, if_pos hf]

/-! ## Commands while BUSY (notes/assumptions/18.md) -/

theorem exec_lzStart_busy (s : State) (h : s.lz.status = .busy) : exec .lzStart s = .refused .commandWhileBusy := by
  rw [exec, execLzStart, if_pos h]

theorem exec_lzReset_busy (s : State) (h : s.lz.status = .busy) : exec .lzReset s = .refused .commandWhileBusy := by
  rw [exec, execLzReset, if_pos h]

/-- Every command of ACU first asks whether the unit is BUSY. -/
theorem exec_auCommand_busy (s : State) (h : s.au.status = .busy) (i : Instr)
    (hi : i ∈ [Instr.auInit, .auNext, .auRestart, .auClearWrap, .auReset]) :
    exec i s = .refused .commandWhileBusy := by
  simp only [List.mem_cons, List.not_mem_nil, or_false] at hi
  rcases hi with rfl | rfl | rfl | rfl | rfl
  · rw [exec, execAuInit, if_pos h]
  · simp only [exec, execAuNext, h]
  · rw [exec, execAuRestart, if_pos h]
  · rw [exec, execAuClearWrap, if_pos h]
  · rw [exec, execAuReset, if_pos h]

/-- Settles O51: what is raised is fault entry with the usage cause; what is refused is refused by each command's first
test. -/
theorem commandLegality : Obligations.CommandLegality := by
  intro s usage
  have husage : s.withAu (auRaise .usage s.au) = usage := congrArg s.withAu (auRaise_usage s.au)
  refine ⟨fun hst => ?_, fun hb hf => ?_, fun hb => ⟨exec_lzStart_busy s hb, exec_lzReset_busy s hb⟩,
    exec_auCommand_busy s⟩
  · obtain ⟨hb, hs⟩ := ne_busy_and_not_hasStream hst
    rw [← husage]
    exact ⟨exec_auNext_usage s hst, exec_auRestart_usage s hb hs, exec_auClearWrap_usage s hb hs⟩
  · rw [← husage]
    exact exec_auInit_usage s hb hf

end Sys2Proof.Machine

namespace Sys2Proof.Machine

/-! ## The end of every run of ACU (70_reset_and_hazards.md R286) -/

/-- The command under way has written no sample yet (10_state.md R20). -/
theorem AuInv.lastN_eq_zero {c : Config} {u : Acu} (h : AuInv c u) (hb : u.status = .busy) : u.lastN = 0 := by
  obtain ⟨_, hlast, _⟩ := h
  exact hlast hb

/-- In a state that meets the invariant a BUSY ACU answers a next state: the place of the grammar is one from which the
model does not stop (43_audio_block_decode.md R172). -/
theorem au_step_answers (s : State) (hr : resetPending s.ops = false) (hl : s.lz.status ≠ .busy)
    (hb : s.au.status = .busy) (hi : AuInv s.cfg s.au) : ∃ u, step s = .next (s.withAu u) ∧ AuStepKind s u := by
  have place (hp : s.au.phase ≠ .header) : blockPlace s.cfg s.au := (hi.block hb hp).2
  rcases au_step_cases s hr hl hb with h | ⟨_, ⟨hp, hc⟩ | ⟨hp, hc⟩⟩ | ⟨_, hp, hd⟩
  · exact h
  · exact absurd ((blockPlace_selector hp).mp (place (by simp [hp]))) hc
  · obtain ⟨hcol, hrow, _⟩ := (blockPlace_code hp).mp (place (by simp [hp]))
    exact absurd hrow (hc.resolve_left (not_not.mpr hcol))
  · obtain ⟨_, _, hzero, hbad⟩ := (blockPlace_code hp).mp (place (by simp [hp]))
    rcases hd with (hd | hd) | hd
    · exact absurd hd hzero
    · exact absurd hd hbad
    · exact absurd (by rw [hd]; rfl) hzero

/-- ACU at the end of a run that passed through `u`: a fault leaves `AU_LAST_N` 0 (10_state.md R20), and only a run that
ends READY has delivered anything to `PCM` (60_exceptions.md R252). -/
structure AuRunEnded (u v : Acu) : Prop where
  status : v.status ≠ .busy
  lastN : v.status = .fault → v.lastN = 0
  pcm : v.status ≠ .ready → v.pcm = u.pcm

/-- ACU one step on in a run that has not ended. -/
structure AuRunGoesOn (u v : Acu) : Prop where
  status : v.status = .busy
  measure : auMeasure v < auMeasure u
  pcm : v.pcm = u.pcm

/-- A run that ends after a step that went on. -/
theorem AuRunGoesOn.trans_ended {u v w : Acu} (h : AuRunGoesOn u v) (he : AuRunEnded v w) : AuRunEnded u w :=
  ⟨he.status, he.lastN, fun hw => (he.pcm hw).trans h.pcm⟩

/-- Fault entry ends a run (60_exceptions.md R250). -/
theorem auRunEnded_raise (f : AuCause) {u v : Acu} (hlast : v.lastN = 0) (hpcm : v.pcm = u.pcm) :
    AuRunEnded u (auRaise f v) :=
  ⟨nofun, fun _ => hlast, fun _ => hpcm⟩

/-- The order of the places is worth less than a bit of input. -/
theorem auMeasure_bounds (u : Acu) : 3 * bitsLeft u ≤ auMeasure u ∧ auMeasure u < 3 * bitsLeft u + 3 := by
  unfold auMeasure
  cases u.phase <;> simp

/-- A token of at least one bit lowers the measure, whatever the place it leads to. -/
theorem auRunGoesOn_token (n : Nat) {u v : Acu} (h1 : 1 ≤ n) (hn : n ≤ bitsLeft u) (hb : v.status = .busy)
    (hlen : v.inLen = u.inLen) (hpos : v.bitpos = u.bitpos + n) (hpcm : v.pcm = u.pcm) : AuRunGoesOn u v := by
  have hu := auMeasure_bounds u
  have hv := auMeasure_bounds v
  have hleft : bitsLeft v = bitsLeft u - n := by unfold bitsLeft; omega
  exact ⟨hb, by omega, hpcm⟩

/-- The header's checks end the run, in a fault or READY (42_audio_header.md R161). -/
theorem auRunEnded_headerCheck (version : BitVec 8) {u v : Acu} (hlast : v.lastN = 0) (hpcm : v.pcm = u.pcm) :
    AuRunEnded u (headerCheck version v) := by
  rcases headerCheck_cases version v with ⟨f, ch, he⟩ | ⟨ch, _, _, _, he⟩ <;> rw [he]
  · exact auRunEnded_raise f hlast hpcm
  · exact ⟨nofun, nofun, fun _ => hpcm⟩

/-- A step of ACU ends the run, or leaves it running with a smaller measure. -/
theorem auStepKind_ends_or_goes_on (s : State) (u : Acu) (hb : s.au.status = .busy) (hlast : s.au.lastN = 0)
    (hk : AuStepKind s u) : AuRunEnded s.au u ∨ AuRunGoesOn s.au u := by
  cases hk with
  | headerRaise f n _ _ _ => exact .inl (auRunEnded_raise f hlast rfl)
  | header v a b d l r _ _ => exact .inl (auRunEnded_headerCheck v hlast rfl)
  | truncated n _ _ => exact .inl ⟨nofun, nofun, fun _ => rfl⟩
  | block p sc _ hn => exact .inr (auRunGoesOn_token 20 (by omega) hn hb rfl rfl rfl)
  | bad sel _ _ => exact .inl (auRunEnded_raise _ hlast rfl)
  | zero sel _ hn _ =>
    rw [putRaws_eq]
    exact .inr (auRunGoesOn_token 5 (by omega) hn hb rfl rfl rfl)
  | sel sel _ hn _ _ =>
    rw [closeSubband_eq]
    exact .inr (auRunGoesOn_token 5 (by omega) hn hb rfl rfl rfl)
  | word n raws _ h1 hn _ _ _ =>
    rw [closeSubband_eq, putRaws_eq]
    exact .inr (auRunGoesOn_token n h1 hn hb rfl rfl rfl)
  | index n _ _ _ => exact .inl (auRunEnded_raise _ hlast rfl)
  | merge hp =>
    rw [wrapMerge_eq]
    exact .inr ⟨hb, by simp [auMeasure, bitsLeft, hp], rfl⟩
  | output _ => exact .inl ⟨nofun, nofun, fun h => absurd rfl h⟩

/-- Settles O52, by strong induction on the measure: a step either ends the run, or leads to a BUSY ACU that meets the
invariant, with a smaller measure and `PCM` as it was. -/
theorem auRunEnds : Obligations.AuRunEnds := by
  intro s
  induction hm : auMeasure s.au using Nat.strong_induction_on generalizing s with
  | _ m ih =>
    intro hr hl hb hi
    obtain ⟨u, hu, hk⟩ := au_step_answers s hr hl hb hi
    rcases auStepKind_ends_or_goes_on s u hb (hi.lastN_eq_zero hb) hk with hend | hgo
    · exact ⟨1, s.withAu u, by omega, core_run_succ 0 s _ hu, hend.status, hend.lastN, hend.pcm⟩
    · obtain ⟨n, t, hn, hrun, hst, hlastN, hpcm⟩ := ih (auMeasure u) (hm ▸ hgo.measure) (s.withAu u) rfl hr hl
        hgo.status (auStepKind_keeps_inv s u hb hi hk)
      have hend : AuRunEnded s.au t.au := hgo.trans_ended ⟨hst, hlastN, hpcm⟩
      have hlt := hgo.measure
      exact ⟨n + 1, t, by omega, (core_run_succ n s _ hu).trans hrun, hend.status, hend.lastN, hend.pcm⟩

end Sys2Proof.Machine

namespace Sys2Proof.Machine

/-! ## Reset (70_reset_and_hazards.md R270 to R272) -/

/-- Settles O10: the reset is taken whatever the statuses, and both units start from their initial registers. -/
theorem platformReset : Obligations.PlatformReset := fun s rest ho =>
  ⟨hardReset (s.withOps rest), step_reset s rest ho, rfl, rfl, rfl, rfl, rfl, rfl, rfl, rfl, rfl, rfl, rfl, rfl, rfl, rfl,
    rfl, rfl, rfl, rfl, rfl, rfl, rfl, rfl, rfl, rfl, rfl⟩

/-- Settles O11. -/
theorem resetRegisterValues : Obligations.ResetRegisterValues := by
  unfold Obligations.ResetRegisterValues
  decide

/-- Settles O59: the initial registers of the units meet their invariants whatever the parameters, and no memory lists a
cell. -/
theorem resetMeetsInvariants : Obligations.ResetMeetsInvariants :=
  ⟨lzInv_initial _ 0 0 [] [] (Nat.two_pow_pos _) (Nat.two_pow_pos _),
    auInv_initial _ 0 0 [] [] 0 (Nat.two_pow_pos _), Memory.wf_reset, nofun, nofun, nofun⟩

end Sys2Proof.Machine

namespace Sys2Proof

/-! ## The LZSS tokens, from what was read (30_encoding.md R80 to R85) -/

theorem wellFormed_prefixInstr (w : BitVec 16) : (prefixInstr w).wellFormed = true := by
  by_cases hw : w = 0
  · subst hw; rfl
  · cases hm : w.msb with
    | true => rw [prefixInstr_raw w hm]; exact hm
    | false => simpa [prefixInstr_coded w hm hw, Instr.wellFormed, hm] using hw

theorem encode_prefixInstr (c : Config) (w : BitVec 16) :
    encode c (prefixInstr w) = .bytes (prefixBytes c.prefixOrder w) := by
  by_cases hw : w = 0
  · subst hw; exact congrArg Words.bytes (prefixBytes_zero c.prefixOrder).symm
  · cases hm : w.msb with
    | true => rw [prefixInstr_raw w hm]; rfl
    | false => rw [prefixInstr_coded w hm hw]; rfl

/-- Every answer of the LZSS decoder, place by place of the grammar. -/
theorem decodeLz_sound (c : Config) (x : LzCtx) (bytes : List Byte) (i : Instr) (n : Nat)
    (h : decodeLz c x bytes = .ok i n) :
    i.wellFormed = true ∧ n ≤ bytes.length ∧ encode c i = .bytes (bytes.take n) := by
  unfold decodeLz at h
  split at h <;> cases h
  case h_1 b0 b1 rest =>
    refine ⟨wellFormed_prefixInstr _, by simp, ?_⟩
    rw [encode_prefixInstr, prefixBytes_prefixWord]
    rfl
  case h_5 b1 b2 rest => exact ⟨rfl, by simp, congrArg Words.bytes (refBytes_fields b1 b2)⟩
  -- raw data, a control byte and a literal: one byte, which is the operand
  all_goals exact ⟨rfl, by simp, rfl⟩

/-! ## The reads of an audio token (40_bit_reader.md R111)

A decoder of an audio token is a chain of reads. The bits of the reads that are done stand before the bits still to be read:
every rule below passes one read's bits from the one to the other. -/

/-- The instruction is well formed, and its bits are `word`. -/
def EncodesTo (c : Config) (i : Instr) (word : List Bool) : Prop :=
  i.wellFormed = true ∧ encode c i = .bits word

/-- If the decoding `D` of a stream of `bits` gives a token, the token encodes to the bits it took. -/
def SoundOn (c : Config) (bits : List Bool) (D : Decoded) : Prop :=
  ∀ i n, D = .ok i n → n ≤ bits.length ∧ EncodesTo c i (bits.take n)

section
variable (c : Config) {word bits : List Bool} {u : Nat}

theorem soundOn_reject (why : Reject) : SoundOn c bits (.reject why u) := nofun

/-- The end of a chain of reads: the token's bits are those read so far. -/
theorem soundOn_ok {i : Instr} (hu : word.length = u) (hi : EncodesTo c i word) : SoundOn c (word ++ bits) (.ok i u) := by
  rintro _ _ ⟨⟩
  subst hu
  exact ⟨by simp, by simpa using hi⟩

/-- One read in a chain: the rest of the chain may assume that the field's bits have gone to those read so far. -/
theorem soundOn_readField {n : Nat} {next : Nat → List Bool → Nat → Decoded}
    (h : ∀ (v : BitVec n) r, SoundOn c (word ++ fieldBits c.bitOrder n v.toNat ++ r) (next v.toNat r (u + n))) :
    SoundOn c (word ++ bits) (readField c.bitOrder n bits u next) := by
  rcases readField_cases c.bitOrder n bits u next with ⟨-, hshort⟩ | ⟨f, r, rfl, -, hf, hlt, hread⟩
  · rw [hshort]; nofun
  · have hnext := h (BitVec.ofNatLT _ hlt) r
    rwa [BitVec.toNat_ofNatLT, hf, List.append_assoc, ← hread] at hnext

/-- One bit that decides how the chain goes on. -/
theorem soundOn_readBit {zero one : List Bool → Nat → Decoded}
    (hzero : ∀ r, SoundOn c (word ++ [false] ++ r) (zero r (u + 1)))
    (hone : ∀ r, SoundOn c (word ++ [true] ++ r) (one r (u + 1))) :
    SoundOn c (word ++ bits)
      (readField c.bitOrder 1 bits u fun b r u => if b = 0 then zero r u else one r u) := by
  have bit0 : fieldBits c.bitOrder 1 0 = [false] := by cases c.bitOrder <;> rfl
  have bit1 : fieldBits c.bitOrder 1 1 = [true] := by cases c.bitOrder <;> rfl
  refine soundOn_readField c fun v r => ?_
  obtain rfl | rfl := BitVec.eq_zero_or_eq_one v
  · simpa [bit0] using hzero r
  · simpa [bit1] using hone r

/-! ## The parts of the code words (30_encoding.md R90) -/

/-- A value field at the end of a code word, its value the operand. -/
theorem soundOn_decodeValue {n : Nat} {mk : Nat → Instr} (hu : word.length = u)
    (hmk : ∀ v : BitVec n, EncodesTo c (mk v.toNat) (word ++ fieldBits c.bitOrder n v.toNat)) :
    SoundOn c (word ++ bits) (decodeValue c.bitOrder n mk bits u) :=
  soundOn_readField c fun v _ => soundOn_ok c (by simp [hu]) (hmk v)

/-- A value field as wide as its operand. -/
theorem soundOn_decodeOperand {n : Nat} (mk : BitVec n → Instr) (hu : word.length = u)
    (hmk : ∀ v, EncodesTo c (mk v) (word ++ fieldBits c.bitOrder n v.toNat)) :
    SoundOn c (word ++ bits) (decodeValue c.bitOrder n (fun v => mk (BitVec.ofNat n v)) bits u) :=
  soundOn_decodeValue c hu fun v => by simpa using hmk v

theorem soundOn_decodeTwoZero {z2 z1 : Instr} {value : List Bool → Nat → Decoded} (hz2 : EncodesTo c z2 [false])
    (hz1 : EncodesTo c z1 [true, false]) (hvalue : ∀ r, SoundOn c ([true, true] ++ r) (value r 2)) :
    SoundOn c bits (decodeTwoZero c.bitOrder z2 z1 value bits) :=
  soundOn_readBit c (word := []) (fun _ => soundOn_ok c rfl hz2) fun _ =>
    soundOn_readBit c (fun _ => soundOn_ok c rfl hz1) hvalue

theorem soundOn_decodeOneZero {z1 : Instr} {value : List Bool → Nat → Decoded} (hz1 : EncodesTo c z1 [false])
    (hvalue : ∀ r, SoundOn c ([true] ++ r) (value r 1)) :
    SoundOn c bits (decodeOneZero c.bitOrder z1 value bits) :=
  soundOn_readBit c (word := []) (fun _ => soundOn_ok c rfl hz1) hvalue

theorem soundOn_decodeTiers {near : BitVec 1 → Instr} {far : BitVec 2 → Instr} (hu : word.length = u)
    (hnear : ∀ v, EncodesTo c (near v) (word ++ [false] ++ fieldBits c.bitOrder 1 v.toNat))
    (hfar : ∀ v, EncodesTo c (far v) (word ++ [true] ++ fieldBits c.bitOrder 2 v.toNat)) :
    SoundOn c (word ++ bits) (decodeTiers c.bitOrder near far bits u) :=
  soundOn_readBit c (fun _ => soundOn_decodeOperand c near (by simp [hu]) hnear)
    fun _ => soundOn_decodeOperand c far (by simp [hu]) hfar

end

/-! ## The audio tokens, from what was read (30_encoding.md R86 to R90) -/

section
variable (c : Config) (bits : List Bool)

/-- The two magics are the ones the header's tokens encode; after `AU_MAGIC` each of the six fields is an operand. -/
theorem decodeHeader_sound : SoundOn c bits (decodeHeader c.bitOrder bits) := by
  refine soundOn_readField c (word := []) fun magic r => ?_
  split_ifs with hwrapper hmagic
  · exact soundOn_ok c (by simp) ⟨rfl, by rw [hwrapper]; rfl⟩
  · exact soundOn_reject c _
  · rw [not_not.mp hmagic]
    refine soundOn_readField c fun version r => soundOn_readField c fun samples r =>
      soundOn_readField c fun channels r => soundOn_readField c fun rate r =>
      soundOn_readField c fun level r => soundOn_readField c fun rows r => ?_
    simp only [BitVec.ofNat_toNat, BitVec.setWidth_eq]
    exact soundOn_ok c (by simp) ⟨rfl, rfl⟩

theorem decodeBlock_sound : SoundOn c bits (decodeBlock c.bitOrder bits) := by
  refine soundOn_readField c (word := []) fun pwr r => soundOn_readField c fun scale r => ?_
  simp only [BitVec.ofNat_toNat, BitVec.setWidth_eq]
  exact soundOn_ok c (by simp) ⟨rfl, rfl⟩

/-- Every five bits are the encoding of the selector of their value. -/
theorem selectorInstr_encodesTo (n : Nat) (hn : n < 32) :
    EncodesTo c (selectorInstr n) (fieldBits c.bitOrder 5 n) := by
  interval_cases n <;> exact ⟨rfl, rfl⟩

theorem decodeSelector_sound : SoundOn c bits (decodeSelector c.bitOrder bits) :=
  soundOn_readField c (word := []) fun sel _ => soundOn_ok c (by simp) (selectorInstr_encodesTo c sel.toNat sel.isLt)

/-- A LINEAR value has its selector's width, at most 31, so the 32-bit operand holds it whole (43_audio_block_decode.md
R178). -/
theorem linear_encodesTo (sel : BitVec 5) (hsel : sel ≠ 0) (v : BitVec sel.toNat) :
    EncodesTo c (.auLinearV sel (BitVec.ofNat 32 v.toNat)) (fieldBits c.bitOrder sel.toNat v.toNat) := by
  have hv : (BitVec.ofNat 32 v.toNat).toNat = v.toNat :=
    Nat.mod_eq_of_lt (v.isLt.trans_le (Nat.pow_le_pow_right (by decide) (by have := sel.isLt; omega)))
  have hpos : 1 ≤ sel.toNat := Nat.pos_of_ne_zero fun h => hsel (BitVec.eq_of_toNat_eq h)
  exact ⟨by simp only [Instr.wellFormed, hv, hpos, v.isLt, decide_true, Bool.and_true], by rw [encode, hv]⟩

/-- The code words, decoder by decoder. -/
theorem decodeCode_sound (d : Decoder) (sel : BitVec 5) : SoundOn c bits (decodeCode c.bitOrder d sel bits) := by
  cases d <;> dsimp only [decodeCode]
  case zero => exact soundOn_reject c _
  case bad => exact soundOn_reject c _
  case linear =>
    split_ifs with hsel
    · exact soundOn_reject c _
    · exact soundOn_decodeValue c (word := []) rfl (linear_encodesTo c sel hsel)
  case k13 =>
    exact soundOn_decodeTwoZero c ⟨rfl, rfl⟩ ⟨rfl, rfl⟩ fun _ => soundOn_decodeOperand c .auK13V rfl fun _ => ⟨rfl, rfl⟩
  case k24 =>
    exact soundOn_decodeTwoZero c ⟨rfl, rfl⟩ ⟨rfl, rfl⟩ fun _ => soundOn_decodeOperand c .auK24V rfl fun _ => ⟨rfl, rfl⟩
  case k45 =>
    exact soundOn_decodeTwoZero c ⟨rfl, rfl⟩ ⟨rfl, rfl⟩ fun _ => soundOn_decodeOperand c .auK45V rfl fun _ => ⟨rfl, rfl⟩
  case k35 =>
    exact soundOn_decodeTwoZero c ⟨rfl, rfl⟩ ⟨rfl, rfl⟩ fun _ =>
      soundOn_decodeTiers c rfl (fun _ => ⟨rfl, rfl⟩) fun _ => ⟨rfl, rfl⟩
  case k12 => exact soundOn_decodeOneZero c ⟨rfl, rfl⟩ fun _ => soundOn_decodeOperand c .auK12V rfl fun _ => ⟨rfl, rfl⟩
  case k23 => exact soundOn_decodeOneZero c ⟨rfl, rfl⟩ fun _ => soundOn_decodeOperand c .auK23V rfl fun _ => ⟨rfl, rfl⟩
  case k44 => exact soundOn_decodeOneZero c ⟨rfl, rfl⟩ fun _ => soundOn_decodeOperand c .auK44V rfl fun _ => ⟨rfl, rfl⟩
  case k34 =>
    exact soundOn_decodeOneZero c ⟨rfl, rfl⟩ fun _ =>
      soundOn_decodeTiers c rfl (fun _ => ⟨rfl, rfl⟩) fun _ => ⟨rfl, rfl⟩
  case t15 => exact soundOn_decodeOperand c (word := []) .auT15Idx rfl fun _ => ⟨rfl, rfl⟩
  case t27 => exact soundOn_decodeOperand c (word := []) .auT27Idx rfl fun _ => ⟨rfl, rfl⟩
  case t37 => exact soundOn_decodeOperand c (word := []) .auT37Idx rfl fun _ => ⟨rfl, rfl⟩

/-- The audio decoder, place by place of the grammar. -/
theorem decodeAu_sound (x : AuCtx) : SoundOn c bits (decodeAu c x bits) := by
  cases x with
  | header => exact decodeHeader_sound c bits
  | block => exact decodeBlock_sound c bits
  | selector => exact decodeSelector_sound c bits
  | code d sel => exact decodeCode_sound c bits d sel

end

/-- Settles O4: the LZSS decoder by its places, the audio decoder read by read. -/
theorem decodeSound : Obligations.DecodeSound := by
  refine ⟨decodeLz_sound, fun c x bits i n h => ?_⟩
  obtain ⟨hn, hw, he⟩ := decodeAu_sound c bits x i n h
  exact ⟨hw, hn, he⟩

end Sys2Proof
